-- ==== Sys2Proof/Word.lean ====
section
/-! DEFINITION. The words of the two-wire display master (00_scope.md R11, R13): everything it shifts, stores
or looks up is an unsigned byte; bit 0 is the least significant bit. -/

namespace Sys2Proof

/-- One byte, unsigned, bit 0 least significant (R13). -/
abbrev Byte := BitVec 8

end Sys2Proof
end

