-- ==== Sys2Proof/Config.lean ====
section
/-! DEFINITION. What is fixed at build time (00_scope.md R9) and the values the spec leaves open.
The parameters are plain data, so that a statement can be made for every choice of them; the open tables are
opaque constants, which no proof can see into (93_implementation_defined.md U8, U9). -/

namespace Sys2Proof

namespace Config

/-- `N_COLS` (R9): columns of the display. -/
def nCols : Nat := 128

/-- `N_PAGES` (R9): addressable pages. -/
def nPages : Nat := 8

/-- `N_ACTIVE_PAGES` (R9): displayed pages, the ones CLEAR blanks. -/
def nActivePages : Nat := 4

/-- `GLYPH_BYTES` (R9): bytes, that is pixel columns, of one glyph. -/
def glyphBytes : Nat := 8

/-- `GLYPH_FIRST` (R9): the first character code with a glyph of its own. -/
def glyphFirst : Nat := 32

/-- `GLYPH_LAST_EXCL` (R9): the first code after the printable ones. -/
def glyphLastExcl : Nat := 127

/-- FREE VALUE (R9 `GLYPH_COUNT` ≥ 95, OPEN; notes/assumptions/11.md): glyphs beyond the 95 printable ones. -/
opaque extraGlyphs : Nat

/-- FREE VALUE (R9 `FALLBACK_INDEX`, OPEN; notes/assumptions/11.md), before it is brought below the count. -/
opaque fallbackSeed : Nat

/-- FREE VALUE (R9 `FONT`, OPEN; notes/assumptions/11.md): the font byte at an offset. -/
opaque fontByte : Nat → Byte

/-- FREE VALUE (R9 `COS`, OPEN, each entry in [0,8]; notes/assumptions/11.md): the cosine entry at an index. -/
opaque cosEntry : Nat → Fin 9

end Config

/-- `ACK_POLICY` (R9, 41_protocol.md R161): whose acknowledges a transaction checks. -/
inductive AckPolicy where
  /-- only INIT checks: the default, the original's behaviour -/
  | initOnly
  /-- every Protocol operation checks -/
  | all
  /-- nothing checks; INIT always reports success -/
  | off
  deriving DecidableEq, Repr

/-- `STRETCH_LIMIT` (R9, 40_bus.md R134): the bound on the clock-stretch wait. -/
inductive StretchLimit where
  /-- no bound: the default, the original's behaviour -/
  | unbounded
  /-- Timeout after `n` consecutive low reads, `n` at least 1 -/
  | bounded (n : Nat)
  deriving DecidableEq, Repr

/-- The build parameters of R9. `font` and `cos` list the table contents a claim names (R12); an entry past the
list is the open value of `Config`, so the empty list is the hardware's own, unknown table. -/
structure Params where
  /-- `DEV_BASE`: the address byte before the sub-address bit -/
  devBase : Byte
  /-- `SUBADDR`: the sub-address bit -/
  subaddr : Bool
  /-- `SUBADDR_MASK`: where that bit stands in the address byte -/
  subaddrMask : Byte
  /-- `FLIP_SEG`: segment remap flipped -/
  flipSeg : Bool
  /-- `FLIP_COM`: COM scan direction flipped -/
  flipCom : Bool
  /-- `ACK_POLICY` -/
  ackPolicy : AckPolicy
  /-- `STRETCH_LIMIT` -/
  stretchLimit : StretchLimit
  /-- `GLYPH_COUNT`: glyphs in `FONT` -/
  glyphCount : Nat
  /-- `FALLBACK_INDEX`: the glyph shown for a code that is not printable -/
  fallbackIndex : Nat
  /-- `FONT`, as far as it is given -/
  font : List Byte
  /-- `COS`, as far as it is given -/
  cos : List (Fin 9)
  deriving DecidableEq, Repr

/-- The parameters as the source fixes them, the tables left open (R9). -/
def Params.default : Params where
  devBase := 0x78
  subaddr := false
  subaddrMask := 0x02
  flipSeg := false
  flipCom := false
  ackPolicy := .initOnly
  stretchLimit := .unbounded
  glyphCount := 95 + Config.extraGlyphs
  fallbackIndex := Config.fallbackSeed % (95 + Config.extraGlyphs)
  font := []
  cos := []

end Sys2Proof
end

