-- ==== Sys2Proof/Syntax.lean ====
section
/-! DEFINITION. The instructions: one constructor for every row of spec/opcode_table.json.
The first thirteen are the operations of 30_encoding.md R110; then the reserved selectors (R115); then the
bytes of the wire (R94, R95, R100), which as requests are the host putting that item on the bus in its position
(R96, R118; notes/assumptions/3.md). Operand widths are those of 00_scope.md R11; a message is its list of
character codes and carries its length `L`. -/

namespace Sys2Proof

/-- One request to the block (R110) or one item of a transaction the host builds itself (R118). -/
inductive Instr where
  /-- BUSCFG (R135) -/
  | busCfg
  /-- START `abyte` (R137) -/
  | start (abyte : Byte)
  /-- SENDBYTE `byte` (R139) -/
  | sendByte (byte : Byte)
  /-- STOP (R141) -/
  | stop
  /-- INIT (R163) -/
  | init
  /-- SETPAGEWINDOW `page, column` (R166) -/
  | setPageWindow (page : BitVec 3) (column : BitVec 7)
  /-- WRITEBYTES `n, SRC` (R168); `n` is the length of `src` -/
  | writeBytes (src : List Byte)
  /-- CLEAR (R170) -/
  | clear
  /-- SETCONTRAST `level` (R172) -/
  | setContrast (level : Byte)
  /-- GLYPHFOR `code` (R191) -/
  | glyphFor (code : Byte)
  /-- MARQUEE `x, y, width, L, MSG, OFFSET, speed` (R203) -/
  | marquee (x : BitVec 7) (y : BitVec 3) (width : Byte) (msg : List Byte) (offset : BitVec 16) (speed : Byte)
  /-- BUNGEE `x, y, width, L, MSG, OFFSET` (R210) -/
  | bungee (x : BitVec 7) (y : BitVec 3) (width : Byte) (msg : List Byte) (offset : BitVec 16)
  /-- WOBBLE `x, y, L, MSG, PHASE` (R220) -/
  | wobble (x : BitVec 7) (y : BitVec 3) (msg : List Byte) (phase : Byte)
  /-- selector `0xD`, which names no operation (R115) -/
  | reserved1101
  /-- selector `0xE`, which names no operation (R115) -/
  | reserved1110
  /-- selector `0xF`, which names no operation (R115) -/
  | reserved1111
  /-- the address byte `0x78 | subaddr << 1` (R94) -/
  | addrByte (subaddr : BitVec 1)
  /-- the framing byte `0x00`: the rest of the transaction is commands (R95) -/
  | ctrlCommands
  /-- the framing byte `0x40`: the rest of the transaction is data (R95) -/
  | ctrlData
  /-- `0xA8, ratio` (R100) -/
  | cmdMuxRatio (ratio : Byte)
  /-- `0xD3, offset` (R100) -/
  | cmdDisplayOffset (offset : Byte)
  /-- `0x40` (R98: line 0 only) -/
  | cmdStartLine
  /-- `0xA0 | flip` (R98) -/
  | cmdSegmentRemap (flip : BitVec 1)
  /-- `0xC0 | flip << 3` (R98) -/
  | cmdComScanDir (flip : BitVec 1)
  /-- `0xDA, pins` (R100) -/
  | cmdComPins (pins : Byte)
  /-- `0x81, level` (R100) -/
  | cmdContrast (level : Byte)
  /-- `0xA4 | force` (R98) -/
  | cmdEntireDisplayOn (force : BitVec 1)
  /-- `0xA6 | inv` (R98) -/
  | cmdNormalInverted (inv : BitVec 1)
  /-- `0xD5, freq` (R100) -/
  | cmdOscFreq (freq : Byte)
  /-- `0x8D, pump` (R100) -/
  | cmdChargePump (pump : Byte)
  /-- `0xAE | on` (R98) -/
  | cmdDisplayOnOff (on : BitVec 1)
  /-- `0x20, mode` (R100) -/
  | cmdAddressingMode (mode : Byte)
  /-- `0x21, first, last` (R100) -/
  | cmdColumnRange (first last : Byte)
  /-- `0x22, first, last` (R100) -/
  | cmdPageRange (first last : Byte)
  /-- `0xB0 | page` (R98) -/
  | cmdPageStart (page : BitVec 3)
  /-- `0x10 | hi`: `column[6:4]` (R98) -/
  | cmdColumnUpper (hi : BitVec 3)
  /-- `0x00 | lo`: `column[3:0]` (R98) -/
  | cmdColumnLower (lo : BitVec 4)
  deriving DecidableEq, Repr

end Sys2Proof
end

