-- ==== Sys2Proof/WellFormed.lean ====
section
/-! DEFINITION. Which terms of `Instr` are requests at all: the operand widths of 00_scope.md R11 are in the
types, so what is left is that a length fits the width of its length operand. A well-formed request may still
be refused by its operation (60_exceptions.md R252): that is a matter of the machine. -/

namespace Sys2Proof

/-- `L` is 8 bits (R11). -/
def fitsL (msg : List Byte) : Bool := msg.length < 256

/-- `n` is 16 bits (R11). -/
def fitsN (src : List Byte) : Bool := src.length < 65536

/-- The lengths an instruction carries fit their operands (R11, R110). -/
def Instr.wellFormed : Instr → Bool
  | .busCfg => true
  | .start _ => true
  | .sendByte _ => true
  | .stop => true
  | .init => true
  | .setPageWindow _ _ => true
  | .writeBytes src => fitsN src
  | .clear => true
  | .setContrast _ => true
  | .glyphFor _ => true
  | .marquee _ _ _ msg _ _ => fitsL msg
  | .bungee _ _ _ msg _ => fitsL msg
  | .wobble _ _ msg _ => fitsL msg
  | .reserved1101 => true
  | .reserved1110 => true
  | .reserved1111 => true
  | .addrByte _ => true
  | .ctrlCommands => true
  | .ctrlData => true
  | .cmdMuxRatio _ => true
  | .cmdDisplayOffset _ => true
  | .cmdStartLine => true
  | .cmdSegmentRemap _ => true
  | .cmdComScanDir _ => true
  | .cmdComPins _ => true
  | .cmdContrast _ => true
  | .cmdEntireDisplayOn _ => true
  | .cmdNormalInverted _ => true
  | .cmdOscFreq _ => true
  | .cmdChargePump _ => true
  | .cmdDisplayOnOff _ => true
  | .cmdAddressingMode _ => true
  | .cmdColumnRange _ _ => true
  | .cmdPageRange _ _ => true
  | .cmdPageStart _ => true
  | .cmdColumnUpper _ => true
  | .cmdColumnLower _ => true

end Sys2Proof
end

