-- ==== Sys2Proof/Decode.lean ====
section
/-! DEFINITION. The decoder of requests and of wire bytes, and after it the encoder.

A request is a selector nibble and then its operands in the order of 30_encoding.md R110, each operand in whole
bytes, a 16-bit one high byte first (notes/assumptions/2.md). A wire item is a marker byte that names its
POSITION in the transaction (R96: "Position decides meaning"), then the bytes of the item as they go on the wire
(notes/assumptions/3.md). Byte assembly and the closed set of command bytes are R98 to R100, R119. -/

namespace Sys2Proof

/-- Why a list of bytes is no request. -/
inductive DecodeError where
  /-- there is no byte at all -/
  | empty
  /-- the first byte is neither a selector nor a position marker -/
  | unknownMarker (b : Byte)
  /-- the operands end early -/
  | truncated
  /-- an operand byte has bits above the operand's width (00_scope.md R11) -/
  | operandTooWide (b : Byte)
  /-- the byte in address position is not `0x78 | subaddr << 1` (R94) -/
  | notAnAddress (b : Byte)
  /-- the byte in framing position is neither `0x00` nor `0x40` (R95) -/
  | notAFramingByte (b : Byte)
  /-- the byte in command position is outside the closed set (R100, R118) -/
  | notACommand (b : Byte)
  deriving DecidableEq, Repr

/-! ### The command set of the display (R98, R100) -/

/-- The eighteen commands of the closed set (R100). -/
inductive CmdKind where
  | muxRatio | displayOffset | startLine | segmentRemap | comScanDir | comPins | contrast | entireDisplayOn
  | normalInverted | oscFreq | chargePump | displayOnOff | addressingMode | columnRange | pageRange | pageStart
  | columnUpper | columnLower
  deriving DecidableEq, Repr

/-- One row of the command table: a first byte `b` is this command when `b & mask = base`; `operands` bytes
follow it (R97, R122). -/
structure CmdRow where
  kind : CmdKind
  base : Byte
  mask : Byte
  operands : Nat
  deriving DecidableEq, Repr

/-- The closed set of command bytes with their formats (R100; masks as in opcode_table.json, R122). -/
def commandTable : List CmdRow :=
  [⟨.muxRatio, 0xA8, 0xFF, 1⟩, ⟨.displayOffset, 0xD3, 0xFF, 1⟩, ⟨.startLine, 0x40, 0xFF, 0⟩,
   ⟨.segmentRemap, 0xA0, 0xFE, 0⟩, ⟨.comScanDir, 0xC0, 0xF7, 0⟩, ⟨.comPins, 0xDA, 0xFF, 1⟩,
   ⟨.contrast, 0x81, 0xFF, 1⟩, ⟨.entireDisplayOn, 0xA4, 0xFE, 0⟩, ⟨.normalInverted, 0xA6, 0xFE, 0⟩] ++
  [⟨.oscFreq, 0xD5, 0xFF, 1⟩, ⟨.chargePump, 0x8D, 0xFF, 1⟩, ⟨.displayOnOff, 0xAE, 0xFE, 0⟩,
   ⟨.addressingMode, 0x20, 0xFF, 1⟩, ⟨.columnRange, 0x21, 0xFF, 2⟩, ⟨.pageRange, 0x22, 0xFF, 2⟩,
   ⟨.pageStart, 0xB0, 0xF8, 0⟩, ⟨.columnUpper, 0x10, 0xF8, 0⟩, ⟨.columnLower, 0x00, 0xF0, 0⟩]

/-- The command a byte in command position begins, none outside the closed set (R100, R119). -/
def commandRow (b : Byte) : Option CmdRow := commandTable.find? fun r => b &&& r.mask == r.base

/-- `0xA0 | FLIP_SEG` (R98). -/
def segmentRemapByte (flip : BitVec 1) : Byte := 0xA0 ||| flip.setWidth 8

/-- `0xC0 | (FLIP_COM << 3)` (R98). -/
def comScanDirByte (flip : BitVec 1) : Byte := 0xC0 ||| (flip.setWidth 8 <<< 3)

/-- `0xA4 | force` (R98). -/
def entireDisplayOnByte (force : BitVec 1) : Byte := 0xA4 ||| force.setWidth 8

/-- `0xA6 | inv` (R98). -/
def normalInvertedByte (inv : BitVec 1) : Byte := 0xA6 ||| inv.setWidth 8

/-- `0xAE | on` (R98). -/
def displayOnOffByte (on : BitVec 1) : Byte := 0xAE ||| on.setWidth 8

/-- `0xB0 | page` (R98). -/
def pageStartByte (page : BitVec 3) : Byte := 0xB0 ||| page.setWidth 8

/-- `0x10 | hi` (R98, R99). -/
def columnUpperByte (hi : BitVec 3) : Byte := 0x10 ||| hi.setWidth 8

/-- `0x00 | lo` (R98, R99). -/
def columnLowerByte (lo : BitVec 4) : Byte := 0x00 ||| lo.setWidth 8

/-- `column[6:4]` (R99). -/
def columnHi (column : BitVec 7) : BitVec 3 := (column >>> 4).setWidth 3

/-- `column[3:0]` (R99). -/
def columnLo (column : BitVec 7) : BitVec 4 := column.setWidth 4

/-- The address byte of row ADDR_BYTE: `0x78`, the sub-address bit in bit 1, the read/write bit 0 (R94). -/
def addressByte (subaddr : BitVec 1) : Byte := 0x78 ||| (subaddr.setWidth 8 <<< 1)

/-- For a command without operands. -/
def operands0 {α : Type} (ops : List Byte) (k : Option α) : Option α :=
  match ops with
  | [] => k
  | _ :: _ => none

/-- For a command with one operand byte. -/
def operands1 {α : Type} (ops : List Byte) (k : Byte → Option α) : Option α :=
  match ops with
  | [v] => k v
  | [] => none
  | _ :: _ :: _ => none

/-- For a command with two operand bytes. -/
def operands2 {α : Type} (ops : List Byte) (k : Byte → Byte → Option α) : Option α :=
  match ops with
  | [v, w] => k v w
  | [] => none
  | [_] => none
  | _ :: _ :: _ :: _ => none

/-- The command whose first byte is `b` and whose operands are `ops`, none if their number is not its own. -/
def commandInstr (k : CmdKind) (b : Byte) (ops : List Byte) : Option Instr :=
  match k with
  | .muxRatio => operands1 ops fun v => some (.cmdMuxRatio v)
  | .displayOffset => operands1 ops fun v => some (.cmdDisplayOffset v)
  | .startLine => operands0 ops (some .cmdStartLine)
  | .segmentRemap => operands0 ops (some (.cmdSegmentRemap (b.setWidth 1)))
  | .comScanDir => operands0 ops (some (.cmdComScanDir ((b >>> 3).setWidth 1)))
  | .comPins => operands1 ops fun v => some (.cmdComPins v)
  | .contrast => operands1 ops fun v => some (.cmdContrast v)
  | .entireDisplayOn => operands0 ops (some (.cmdEntireDisplayOn (b.setWidth 1)))
  | .normalInverted => operands0 ops (some (.cmdNormalInverted (b.setWidth 1)))
  | .oscFreq => operands1 ops fun v => some (.cmdOscFreq v)
  | .chargePump => operands1 ops fun v => some (.cmdChargePump v)
  | .displayOnOff => operands0 ops (some (.cmdDisplayOnOff (b.setWidth 1)))
  | .addressingMode => operands1 ops fun v => some (.cmdAddressingMode v)
  | .columnRange => operands2 ops fun v w => some (.cmdColumnRange v w)
  | .pageRange => operands2 ops fun v w => some (.cmdPageRange v w)
  | .pageStart => operands0 ops (some (.cmdPageStart (b.setWidth 3)))
  | .columnUpper => operands0 ops (some (.cmdColumnUpper (b.setWidth 3)))
  | .columnLower => operands0 ops (some (.cmdColumnLower (b.setWidth 4)))

/-! ### Reading operands -/

/-- What a decoder answers: an instruction and the bytes after it, or the reason there is none. -/
abbrev Decoded := Except DecodeError (Instr × List Byte)

/-- Read an operand of one whole byte. -/
def withByte (bs : List Byte) (k : Byte → List Byte → Decoded) : Decoded :=
  match bs with
  | [] => .error .truncated
  | b :: rest => k b rest

/-- Read an operand of `w` bits, which stands in the low bits of a byte whose other bits are 0. -/
def withField (w : Nat) (bs : List Byte) (k : BitVec w → List Byte → Decoded) : Decoded :=
  withByte bs fun b rest => if b.toNat < 2 ^ w then k (b.setWidth w) rest else .error (.operandTooWide b)

/-- Read an operand of 16 bits, high byte first. -/
def withHalf (bs : List Byte) (k : BitVec 16 → List Byte → Decoded) : Decoded :=
  withByte bs fun hi rest => withByte rest fun lo rest' => k (hi ++ lo) rest'

/-- Read `n` bytes of a message or of a byte source. -/
def withBytes (n : Nat) (bs : List Byte) (k : List Byte → List Byte → Decoded) : Decoded :=
  if n ≤ bs.length then k (bs.take n) (bs.drop n) else .error .truncated

/-- Read a length `L` of one byte and then that many message bytes (20_memory.md R53). -/
def withMessage (bs : List Byte) (k : List Byte → List Byte → Decoded) : Decoded :=
  withByte bs fun len rest => withBytes len.toNat rest k

/-! ### The decoder -/

/-- The operation a selector names, with its operands in the order of R110; `0xD` to `0xF` are reserved (R115). -/
def decodeRequest (selector : Nat) (bs : List Byte) : Decoded :=
  match selector with
  | 0x0 => .ok (.busCfg, bs)
  | 0x1 => withByte bs fun a rest => .ok (.start a, rest)
  | 0x2 => withByte bs fun b rest => .ok (.sendByte b, rest)
  | 0x3 => .ok (.stop, bs)
  | 0x4 => .ok (.init, bs)
  | 0x5 => withField 3 bs fun page rest => withField 7 rest fun column rest => .ok (.setPageWindow page column, rest)
  | 0x6 => withHalf bs fun n rest => withBytes n.toNat rest fun src rest => .ok (.writeBytes src, rest)
  | 0x7 => .ok (.clear, bs)
  | 0x8 => withByte bs fun level rest => .ok (.setContrast level, rest)
  | 0x9 => withByte bs fun code rest => .ok (.glyphFor code, rest)
  | 0xA => withField 7 bs fun x rest => withField 3 rest fun y rest => withByte rest fun width rest =>
      withMessage rest fun msg rest => withHalf rest fun offset rest => withByte rest fun speed rest =>
        .ok (.marquee x y width msg offset speed, rest)
  | 0xB => withField 7 bs fun x rest => withField 3 rest fun y rest => withByte rest fun width rest =>
      withMessage rest fun msg rest => withHalf rest fun offset rest => .ok (.bungee x y width msg offset, rest)
  | 0xC => withField 7 bs fun x rest => withField 3 rest fun y rest => withMessage rest fun msg rest =>
      withByte rest fun phase rest => .ok (.wobble x y msg phase, rest)
  | 0xD => .ok (.reserved1101, bs)
  | 0xE => .ok (.reserved1110, bs)
  | 0xF => .ok (.reserved1111, bs)
  | n => .error (.unknownMarker (BitVec.ofNat 8 n))

/-- Marker of an item in address position (notes/assumptions/3.md). -/
def addressMarker : Byte := 0x10

/-- Marker of an item in framing position, the first payload byte. -/
def framingMarker : Byte := 0x11

/-- Marker of an item in command position, after framing byte `0x00`. -/
def commandMarker : Byte := 0x12

/-- The address byte (R94): `0x78 | subaddr << 1` and nothing else. -/
def decodeAddress (bs : List Byte) : Decoded :=
  withByte bs fun b rest =>
    if b &&& 0xFD = 0x78 then .ok (.addrByte ((b >>> 1).setWidth 1), rest) else .error (.notAnAddress b)

/-- The framing byte (R95): `0x00` or `0x40` and nothing else. -/
def decodeFraming (bs : List Byte) : Decoded :=
  withByte bs fun b rest =>
    if b = 0x00 then .ok (.ctrlCommands, rest)
    else if b = 0x40 then .ok (.ctrlData, rest)
    else .error (.notAFramingByte b)

/-- A command and its operand bytes (R97, R100, R119). -/
def decodeCommand (bs : List Byte) : Decoded :=
  withByte bs fun b rest =>
    match commandRow b with
    | none => .error (.notACommand b)
    | some row =>
      withBytes row.operands rest fun ops rest =>
        match commandInstr row.kind b ops with
        | some i => .ok (i, rest)
        | none => .error .truncated

/-- The decoder: total on any bytes, one instruction and the bytes after it, or the reason there is none. -/
def decode : List Byte → Decoded
  | [] => .error .empty
  | b :: bs =>
    if b.toNat < 16 then decodeRequest b.toNat bs
    else if b = addressMarker then decodeAddress bs
    else if b = framingMarker then decodeFraming bs
    else if b = commandMarker then decodeCommand bs
    else .error (.unknownMarker b)

/-! ### The encoder -/

/-- A 16-bit operand, high byte first. -/
def halfBytes (v : BitVec 16) : List Byte := [(v >>> 8).setWidth 8, v.setWidth 8]

/-- A message: its length `L` and its character codes. -/
def messageBytes (msg : List Byte) : List Byte := BitVec.ofNat 8 msg.length :: msg

/-- The bytes of a request or wire item. -/
def encode : Instr → List Byte
  | .busCfg => [0x0]
  | .start abyte => [0x1, abyte]
  | .sendByte byte => [0x2, byte]
  | .stop => [0x3]
  | .init => [0x4]
  | .setPageWindow page column => [0x5, page.setWidth 8, column.setWidth 8]
  | .writeBytes src => 0x6 :: (halfBytes (BitVec.ofNat 16 src.length) ++ src)
  | .clear => [0x7]
  | .setContrast level => [0x8, level]
  | .glyphFor code => [0x9, code]
  | .marquee x y width msg offset speed =>
      [0xA, x.setWidth 8, y.setWidth 8, width] ++ messageBytes msg ++ halfBytes offset ++ [speed]
  | .bungee x y width msg offset =>
      [0xB, x.setWidth 8, y.setWidth 8, width] ++ messageBytes msg ++ halfBytes offset
  | .wobble x y msg phase => [0xC, x.setWidth 8, y.setWidth 8] ++ messageBytes msg ++ [phase]
  | .reserved1101 => [0xD]
  | .reserved1110 => [0xE]
  | .reserved1111 => [0xF]
  | .addrByte subaddr => [addressMarker, addressByte subaddr]
  | .ctrlCommands => [framingMarker, 0x00]
  | .ctrlData => [framingMarker, 0x40]
  | .cmdMuxRatio ratio => [commandMarker, 0xA8, ratio]
  | .cmdDisplayOffset offset => [commandMarker, 0xD3, offset]
  | .cmdStartLine => [commandMarker, 0x40]
  | .cmdSegmentRemap flip => [commandMarker, segmentRemapByte flip]
  | .cmdComScanDir flip => [commandMarker, comScanDirByte flip]
  | .cmdComPins pins => [commandMarker, 0xDA, pins]
  | .cmdContrast level => [commandMarker, 0x81, level]
  | .cmdEntireDisplayOn force => [commandMarker, entireDisplayOnByte force]
  | .cmdNormalInverted inv => [commandMarker, normalInvertedByte inv]
  | .cmdOscFreq freq => [commandMarker, 0xD5, freq]
  | .cmdChargePump pump => [commandMarker, 0x8D, pump]
  | .cmdDisplayOnOff on => [commandMarker, displayOnOffByte on]
  | .cmdAddressingMode mode => [commandMarker, 0x20, mode]
  | .cmdColumnRange first last => [commandMarker, 0x21, first, last]
  | .cmdPageRange first last => [commandMarker, 0x22, first, last]
  | .cmdPageStart page => [commandMarker, pageStartByte page]
  | .cmdColumnUpper hi => [commandMarker, columnUpperByte hi]
  | .cmdColumnLower lo => [commandMarker, columnLowerByte lo]

/-! ### A word of the opcode table -/

/-- The bytes of a word of `nbits` bits, bits 7..0 first. -/
def wordBytes (nbits w : Nat) : List Byte :=
  (List.range ((nbits + 7) / 8)).map fun k => BitVec.ofNat 8 (w >>> (8 * k))

/-- The operand bytes of zeros that a word shorter than its instruction is followed by: as many as the longest
instruction has whose lengths are zero (MARQUEE). -/
def zeroOperands : List Byte := [0, 0, 0, 0, 0, 0, 0, 0]

/-- A bare word of the opcode table as the decoder is to read it: a first byte below 16 is a selector; any other
is a byte of the wire and stands in the position its value belongs to (notes/assumptions/4.md). -/
def tableWordBytes (nbits w : Nat) : List Byte :=
  match wordBytes nbits w with
  | [] => []
  | b :: bs =>
    if b.toNat < 16 then b :: bs ++ zeroOperands
    else if b &&& 0xFD = 0x78 then addressMarker :: b :: bs ++ zeroOperands
    else if b = 0x40 then framingMarker :: b :: bs ++ zeroOperands
    else commandMarker :: b :: bs ++ zeroOperands

/-- The instruction the decoder reads from an instruction whose bits are `w`, numbered as
spec/opcode_table.json numbers them, operand bytes beyond `nbits` zero. -/
def decodeTableWord (nbits w : Nat) : Option Instr :=
  match decode (tableWordBytes nbits w) with
  | .ok (i, _) => some i
  | .error _ => none

end Sys2Proof
end

