-- ==== Sys2Proof/Machine/State.lean ====
section
/-! DEFINITION. The state of the block, of the host's side of its interface, of the reference peer and of the
environment's choices (10_state.md R34; 20_memory.md R71), as plain data; the reset state (R21, R280); and
the reasons a step can stop. -/

namespace Sys2Proof.Machine

/-! ### What is observed (00_scope.md R15) -/

/-- The three named hold durations (40_bus.md R146); their lengths are open and no rule uses them. -/
inductive Hold where
  | startHold | stopHold | idleHold
  deriving DecidableEq, Repr

/-- A line event (R15). `up = true` is a release (`SCL↑`, `SDA↑`), `up = false` a pull (`SCL↓`, `SDA↓`);
`sample level` is `S=b` with `level = true` for a line that reads high. -/
inductive LineEvent where
  | scl (up : Bool)
  | sda (up : Bool)
  | wait
  | sample (level : Bool)
  | hold (h : Hold)
  deriving DecidableEq, Repr

/-- An entry of the byte trace (R15): start, a whole byte with its acknowledge, stop. -/
inductive ByteEvent where
  | start
  | byte (b : Byte) (acked : Bool)
  | stop
  deriving DecidableEq, Repr

/-! ### Where the wire stands (30_encoding.md R93, R96, R119) -/

/-- The position of the next byte in the transaction, as the bytes sent so far decide it (R96, R119). -/
inductive StreamPos where
  /-- no transaction -/
  | idle
  /-- START has begun and the address byte is next -/
  | address
  /-- the first payload byte is next: a framing byte -/
  | control
  /-- after framing `0x00`: a command is next; `afterUpper` when the command just before it was an upper column
  nibble (20_memory.md R77) -/
  | command (afterUpper : Bool)
  /-- inside a command: its first byte, the operands got, and how many (at least 1) are still to come -/
  | operand (kind : CmdKind) (first : Byte) (got : List Byte) (left : Nat)
  /-- after framing `0x40`: every byte is data -/
  | data
  /-- after a byte the spec gives no meaning in its position (R73, R82): until STOP nothing has one -/
  | noMeaning
  deriving DecidableEq, Repr

/-! ### The reference peer (20_memory.md R71) -/

/-- `P_MODE` where it is known (R71, R75). -/
inductive AddrMode where
  | pageMode | rangeMode
  deriving DecidableEq, Repr

/-- One entry of `P_CFG`: a configuration command and its operand, where it has one (R80). -/
structure CfgCommand where
  command : Byte
  operand : Option Byte
  deriving DecidableEq, Repr

/-- What the peer holds that nothing can read back (10_state.md R32; 20_memory.md R71). `none` is the spec's
`unknown`; `ram` lists the bytes of `P_RAM` that are known, at address 128·page + column. -/
structure Display where
  /-- `P_RAM` -/
  ram : List Host.Cell
  /-- `P_PAGE` -/
  page : Option (BitVec 3)
  /-- `P_COL` -/
  col : Option (BitVec 7)
  /-- `P_MODE` -/
  mode : Option AddrMode
  /-- `P_C0` -/
  c0 : Option (BitVec 7)
  /-- `P_C1` -/
  c1 : Option (BitVec 7)
  /-- `P_G0` -/
  g0 : Option (BitVec 3)
  /-- `P_G1` -/
  g1 : Option (BitVec 3)
  /-- `P_HI`: the pending upper nibble, where one is known to be pending -/
  hi : Option (BitVec 3)
  /-- `P_CFG`, oldest first: the commands known to have been received, whatever came before them
  (notes/assumptions/10.md) -/
  cfg : List CfgCommand
  /-- `P_CONTRAST` -/
  contrast : Option Byte
  deriving DecidableEq, Repr

/-- Everything unknown (R71): the display before anything is known of it, and after a byte that has no meaning. -/
def Display.unknown : Display where
  ram := []
  page := none
  col := none
  mode := none
  c0 := none
  c1 := none
  g0 := none
  g1 := none
  hi := none
  cfg := []
  contrast := none

/-- The reference peer. -/
structure Peer where
  /-- `P_ON` (R71) -/
  on : Bool
  /-- the transaction in progress is addressed to it (R72) -/
  addressed : Bool
  /-- it reads the wire in step with the block; a byte without meaning, an unfinished byte, a malformed start
  condition or a stop condition it did not see ends that until the next STOP (R73; notes/assumptions/14.md) -/
  synced : Bool
  /-- what it holds -/
  disp : Display
  deriving DecidableEq, Repr

/-- A peer whose power has just come or gone: no transaction, everything unknown (20_memory.md R71). -/
def Peer.blank (on : Bool) : Peer := { on, addressed := false, synced := true, disp := .unknown }

/-! ### The environment's choices (60_exceptions.md R262; 93_implementation_defined.md U2, U14, U15, U16) -/

/-- How long the peer holds the clock low in one wait (40_bus.md R134): so many low reads, or for ever. -/
inductive Stretch where
  | reads (low : Nat)
  | forever
  deriving DecidableEq, Repr

/-- What befalls the peer's power as a transaction begins: nothing, power comes (20_memory.md R71), it is lost, or the
peer is reset (70_reset_and_hazards.md R298; notes/assumptions/34.md). -/
inductive PowerChange where
  | steady | on | off | reset
  deriving DecidableEq, Repr

/-- Whether a peer is powered after a change, given whether it was before. -/
def PowerChange.leaves (on : Bool) : PowerChange → Bool
  | .steady => on
  | .on => true
  | .off => false
  | .reset => on

/-- What the peer will do on the lines, and what befalls its power, as the environment chooses, oldest first; where a list has run out the reference peer answers: the
acknowledge of 20_memory.md R72, no stretching, both lines free at START and STOP, the power as it is
(notes/assumptions/6.md). A peer without power pulls neither line, whatever the lists say (10_state.md R33, 20_memory.md
R72). -/
structure Env where
  /-- whether the peer pulls the data line in the coming acknowledge slots (U14) -/
  acks : List Bool
  /-- how long it holds the clock in the coming waits (U15) -/
  stretches : List Stretch
  /-- whether it holds a line low as the coming STARTs begin, so that the start condition on the wire is malformed
  (40_bus.md R138, 60_exceptions.md R262) -/
  startHeld : List Bool
  /-- whether it holds the clock low at the coming STOPs (U2) -/
  stopHeld : List Bool
  /-- what befalls the peer's power as the coming transactions begin (20_memory.md R71, 70_reset_and_hazards.md R298) -/
  power : List PowerChange
  deriving DecidableEq, Repr

/-! ### Results (30_encoding.md R110, 60_exceptions.md R241) -/

/-- The operation status of R241. -/
inductive Status where
  | ok | nack | timeout
  deriving DecidableEq, Repr

/-- What the host gets back (R110, R241). -/
inductive Result where
  /-- no result: none was due, or the operation has not returned -/
  | none
  /-- START, SENDBYTE, INIT: `acked` -/
  | acked (a : Bool)
  /-- START, SENDBYTE, INIT: Timeout was raised (60_exceptions.md R246) -/
  | timeout
  /-- the other Protocol operations: the status -/
  | status (st : Status)
  /-- GLYPHFOR: the bitmap -/
  | glyph (bytes : List Byte)
  /-- MARQUEE, BUNGEE: `OFFSET'` and the status -/
  | offset (v : BitVec 16) (st : Status)
  /-- WOBBLE: `PHASE'` and the status -/
  | phase (v : Byte) (st : Status)
  deriving DecidableEq, Repr

/-! ### The state -/

/-- The whole state (R34, R71), with the parameters of 00_scope.md R9, which nothing writes
(notes/assumptions/1.md). `line` and `bytes` are newest first (notes/assumptions/28.md). -/
structure State where
  /-- the build parameters (R9) -/
  params : Params
  /-- the requests the host has still to present (R261) -/
  requests : List Byte
  /-- the block is inside a wait that never ends (60_exceptions.md R245) -/
  hung : Bool
  /-- `SCL_PULL` (R20) -/
  sclPull : Bool
  /-- `SDA_PULL` (R20) -/
  sdaPull : Bool
  /-- `ACK` (R26) -/
  ack : Bool
  /-- where the wire stands -/
  wire : StreamPos
  /-- the result of the last operation -/
  result : Result
  /-- `OFFSET` (R29), the host's -/
  offset : BitVec 16
  /-- `PHASE` (R30), the host's -/
  phase : Byte
  /-- the peer -/
  peer : Peer
  /-- the environment's choices to come -/
  env : Env
  /-- the line events so far, newest first -/
  line : List LineEvent
  /-- the byte trace so far, newest first -/
  bytes : List ByteEvent
  deriving DecidableEq, Repr

/-- The state right after reset: both lines released, Idle (R21, R280); the peer unpowered and unknown (R71); no
request; the animation state at 0 (R288); the environment's lists empty. -/
def State.reset : State where
  params := .default
  requests := []
  hung := false
  sclPull := false
  sdaPull := false
  ack := false
  wire := .idle
  result := .none
  offset := 0
  phase := 0
  peer := .blank false
  env := { acks := [], stretches := [], startHeld := [], stopHeld := [], power := [] }
  line := []
  bytes := []

/-! ### Why a step stops -/

/-- The block has no faults: a Nack and a Timeout are results (60_exceptions.md R240, R241), and a wait that
never ends is a hang, not a fault (R245; notes/assumptions/13.md). So there is no constructor, and no step of the
model ever answers one. -/
inductive Fault where
  deriving DecidableEq, Repr

/-- A request the spec gives no meaning (60_exceptions.md R252): no line event, no state change. Each is safe: the
run is marked refused, so no claim about it can be proved. -/
inductive Refusal where
  /-- raised by `exec` for an instruction that has no meaning in the model yet; safe -/
  | notModelled (mnemonic : String)
  /-- raised by RESERVED_1101 to RESERVED_1111: the selector names no operation (R115); safe -/
  | reservedSelector (selector : BitVec 4)
  /-- raised by every operation while the block is inside a wait that never ends: it accepts no request (R249); safe -/
  | busy
  /-- raised by BUSCFG, START, ADDR_BYTE, the Protocol and the Animation operations when the block is not Idle (R135,
  R138, R252); safe -/
  | notIdle
  /-- raised by SENDBYTE, STOP, CTRL_* and CMD_* when no transaction is open (R140, R142); safe -/
  | notOpen
  /-- raised by START: the address byte has its read bit set (R117); safe -/
  | readBit
  /-- raised by CTRL_* and CMD_*: the wire does not stand where that item belongs (R96, R122); safe -/
  | wrongPosition
  /-- raised by MARQUEE and BUNGEE: `width = 0` or `width > 128` (R204); safe -/
  | badWidth
  /-- raised by the Animation operations: the window runs past column 127 (R204, R222); safe -/
  | pastLastColumn
  /-- raised by the Animation operations: `L = 0` (R204, R222) or a message longer than `L` can say (R11); safe -/
  | badLength
  /-- raised by MARQUEE and BUNGEE: `OFFSET >= 8*L` (R204); safe -/
  | badOffset
  /-- raised by WOBBLE: `y = 7`, so that page `y + 1` does not exist (R222); safe -/
  | badPage
  /-- raised by WRITEBYTES: more bytes than `n` can say (R11); safe -/
  | badCount
  /-- raised by `step`: the bytes the host presents are no request; safe -/
  | undecodable (why : DecodeError)
  deriving DecidableEq, Repr

end Sys2Proof.Machine
end

