-- ==== Sys2Proof/Machine/Operands.lean ====
section
/-! DEFINITION. Operand forms: the device address, the bits of a byte, the command sequences the Protocol
operations assemble, the reads of the constant tables and of the message, and the renderers' byte streams,
each a function of operands and parameters alone (43_animation.md R224). -/

namespace Sys2Proof

/-- `DEV_ADDR = DEV_BASE | (SUBADDR ? SUBADDR_MASK : 0)` (00_scope.md R10). -/
def Params.devAddr (p : Params) : Byte := p.devBase ||| (if p.subaddr then p.subaddrMask else 0)

namespace Machine

/-! ### Bits (20_memory.md R55) -/

/-- The bits of a byte in the order they go on the wire: most significant first (R55). -/
def msbFirst (b : Byte) : List Bool :=
  [b.getLsbD 7, b.getLsbD 6, b.getLsbD 5, b.getLsbD 4, b.getLsbD 3, b.getLsbD 2, b.getLsbD 1, b.getLsbD 0]

/-- The read/write bit of an address byte (30_encoding.md R94). -/
def readBitSet (abyte : Byte) : Bool := abyte.getLsbD 0

/-! ### Command sequences (30_encoding.md R95, R100) -/

/-- Framing byte before commands (R95). -/
def ctrlCommandsByte : Byte := 0x00

/-- Framing byte before data (R95). -/
def ctrlDataByte : Byte := 0x40

/-- `CMD([c1..cn])`'s payload (R121). -/
def cmdPayload (cs : List Byte) : List Byte := ctrlCommandsByte :: cs

/-- `DATA([d1..dn])`'s payload (R121). -/
def dataPayload (ds : List Byte) : List Byte := ctrlDataByte :: ds

/-- INIT's configuration sequence (41_protocol.md R163, R165). -/
def initCommands (p : Params) : List Byte :=
  [0xA8, 0x1F, 0xD3, 0x00, 0x40, segmentRemapByte (BitVec.ofBool p.flipSeg), comScanDirByte (BitVec.ofBool p.flipCom),
   0xDA, 0x02, 0x81, 0x7F, 0xA4, 0xA6, 0xD5, 0x80, 0x8D, 0x14, 0xAF]

/-- SETPAGEWINDOW's commands: page mode, page start, upper nibble, lower nibble, in that order (R166, R167). -/
def windowCommands (page : BitVec 3) (column : BitVec 7) : List Byte :=
  [0x20, 0x02, pageStartByte page, columnUpperByte (columnHi column), columnLowerByte (columnLo column)]

/-- CLEAR's addressing window: range mode, all columns, the active pages (R170). -/
def clearCommands : List Byte := [0x20, 0x00, 0x21, 0x00, 0x7F, 0x22, 0x00, 0x03]

/-- CLEAR's data: a zero byte for every column of every active page (R170). -/
def clearData : List Byte := List.replicate (Config.nCols * Config.nActivePages) 0x00

/-! ### The constant tables (20_memory.md R50 to R52, 42_glyph.md R190) -/

/-- `MemRead(GLYPH, k, 1)`: the byte of `FONT` at offset `k`, the open value where the contents are not given. -/
def fontAt (p : Params) (k : Nat) : Byte := p.font.getD k (Config.fontByte k)

/-- `MemRead(COSROM, i, 1)`: the entry of `COS` at index `i`, in [0,8]. -/
def cosAt (p : Params) (i : Nat) : Nat := (p.cos.getD i (Config.cosEntry i)).val

/-- `GIDX(c)` (R190): the code's own glyph when it is printable, the fallback glyph otherwise. -/
def glyphIndex (p : Params) (code : Byte) : Nat :=
  if Config.glyphFirst ≤ code.toNat ∧ code.toNat < Config.glyphLastExcl then code.toNat - Config.glyphFirst
  else p.fallbackIndex

/-- Column `j` of a character's glyph (R194). -/
def glyphByte (p : Params) (code : Byte) (j : Nat) : Byte := fontAt p (Config.glyphBytes * glyphIndex p code + j)

/-- The bitmap of a character (R191). -/
def glyphBitmap (p : Params) (code : Byte) : List Byte := (List.range Config.glyphBytes).map (glyphByte p code)

/-! ### Scrolling (43_animation.md R201, R202) -/

/-- Message bit-length `8*L` (00_scope.md R17). -/
def bitLength (msg : List Byte) : Nat := 8 * msg.length

/-- `COLBYTE(msg, L, p)` (R201), for `p < 8*L`. -/
def colByte (p : Params) (msg : List Byte) (pos : Nat) : Byte := glyphByte p (msg.getD (pos / 8) 0) (pos % 8)

/-- `NEXTPOS(p, L)` (R201). -/
def nextPos (msg : List Byte) (pos : Nat) : Nat := if pos + 1 < bitLength msg then pos + 1 else 0

/-- `ADVANCE(off, step, L)` (R202), exactly, before it is stored in 16 bits. -/
def advanceNat (off step len : Nat) : Nat :=
  let n := off + step
  if len ≤ n / 8 then n % 8 else n

/-- `ADVANCE` on the stored `OFFSET`. -/
def advance (off : BitVec 16) (step : Nat) (msg : List Byte) : BitVec 16 :=
  BitVec.ofNat 16 (advanceNat off.toNat step msg.length)

/-- MARQUEE's data: `count` columns from position `pos` on (R203). -/
def marqueeData (p : Params) (msg : List Byte) : Nat → Nat → List Byte
  | 0, _ => []
  | count + 1, pos => colByte p msg pos :: marqueeData p msg count (nextPos msg pos)

/-! ### The elastic marquee (43_animation.md R210, R211) -/

/-- The factor after a run, `rem` being the columns still to be filled (R210, R211 a, b, e). -/
def nextFactor (mid rem f : Nat) : Nat := if mid < rem then f + 1 else if 1 < f then f - 1 else f

/-- The runs of R210 as (factor, columns emitted), one per source column, for at most `fuel` source columns. -/
def bungeeRunsFrom (mid : Nat) : Nat → Nat → Nat → List (Nat × Nat)
  | 0, _, _ => []
  | fuel + 1, f, rem =>
    if rem = 0 then []
    else (f, min f rem) :: bungeeRunsFrom mid fuel (nextFactor mid (rem - min f rem) f) (rem - min f rem)

/-- The runs that fill a window of `width` columns; `width` source columns always suffice, as every run fills at
least one column (R212). -/
def bungeeRuns (width : Nat) : List (Nat × Nat) := bungeeRunsFrom (width / 2) width 1 width

/-- The data bytes of a list of runs, source columns from `pos` on. -/
def expandRuns (p : Params) (msg : List Byte) : List (Nat × Nat) → Nat → List Byte
  | [], _ => []
  | (_, r) :: runs, pos => List.replicate r (colByte p msg pos) ++ expandRuns p msg runs (nextPos msg pos)

/-- BUNGEE's data (R210). -/
def bungeeData (p : Params) (msg : List Byte) (width pos : Nat) : List Byte := expandRuns p msg (bungeeRuns width) pos

/-! ### The wobble (43_animation.md R220, R221) -/

/-- The shift of column `n` at a phase: `COS[(PHASE + n) mod 64]` (R220, R223). -/
def wobbleShift (p : Params) (phase : Byte) (n : Nat) : Nat := cosAt p ((phase.toNat + n) % 64)

/-- The upper page's byte: the glyph column moved down by the shift (R221). -/
def upperByte (g : Byte) (sh : Nat) : Byte := g <<< sh

/-- The lower page's byte: the pixels that left the upper page (R221). -/
def lowerByte (g : Byte) (sh : Nat) : Byte := g >>> (8 - sh)

/-- WOBBLE's upper page (R220). -/
def wobbleUpper (p : Params) (msg : List Byte) (phase : Byte) : List Byte :=
  (List.range (bitLength msg)).map fun n => upperByte (colByte p msg n) (wobbleShift p phase n)

/-- WOBBLE's lower page (R220). -/
def wobbleLower (p : Params) (msg : List Byte) (phase : Byte) : List Byte :=
  (List.range (bitLength msg)).map fun n => lowerByte (colByte p msg n) (wobbleShift p phase n)

/-! ### Operand checks (00_scope.md R11; 43_animation.md R204, R222; 41_protocol.md R168) -/

/-- What is wrong with the operands of MARQUEE or BUNGEE, nothing if they are legal (R204). -/
def marqueeProblem (x : BitVec 7) (width : Byte) (msg : List Byte) (offset : BitVec 16) : Option Refusal :=
  if width.toNat = 0 ∨ Config.nCols < width.toNat then some .badWidth
  else if Config.nCols < x.toNat + width.toNat then some .pastLastColumn
  else if msg.length = 0 ∨ 256 ≤ msg.length then some .badLength
  else if bitLength msg ≤ offset.toNat then some .badOffset
  else none

/-- What is wrong with the operands of WOBBLE, nothing if they are legal (R222). -/
def wobbleProblem (x : BitVec 7) (y : BitVec 3) (msg : List Byte) : Option Refusal :=
  if msg.length = 0 ∨ 256 ≤ msg.length then some .badLength
  else if Config.nCols < x.toNat + bitLength msg then some .pastLastColumn
  else if y = 7 then some .badPage
  else none

/-- What is wrong with WRITEBYTES's operands: a count that 16 bits cannot say (R11). -/
def writeProblem (src : List Byte) : Option Refusal := if 65536 ≤ src.length then some .badCount else none

end Machine

end Sys2Proof
end

