-- ==== Sys2Proof/Machine/Flags.lean ====
section
/-! DEFINITION. The one flag and what follows from it: `ACK` (10_state.md R26), who checks it (41_protocol.md
R160, R161), the numeric status codes (60_exceptions.md R241), and the lines it is sampled from (R22). -/

namespace Sys2Proof.Machine

/-- A line is high when neither the block nor the peer pulls it: the wired-AND of open drains (R22). -/
def lineHigh (blockPulls peerPulls : Bool) : Bool := !blockPulls && !peerPulls

/-- `ACK <- (sample = 0)` (R26, 40_bus.md R136): acknowledged when the data line was sampled low. -/
def ackOf (sampledHigh : Bool) : Bool := !sampledHigh

/-- Which operation a transaction is sent for, as far as `check` asks (R160). -/
inductive Issuer where
  | initOp | otherOp
  deriving DecidableEq, Repr

/-- `check` of `TXN` (R160, R161). -/
def checks : AckPolicy → Issuer → Bool
  | .all, _ => true
  | .initOnly, .initOp => true
  | .initOnly, .otherOp => false
  | .off, _ => false

/-- A missing acknowledge that the issuer acts on (60_exceptions.md R242). -/
def nackTaken (check acked : Bool) : Bool := check && !acked

/-- The 2-bit status codes (R241). -/
def Status.code : Status → BitVec 2
  | .ok => 0
  | .nack => 1
  | .timeout => 2

end Sys2Proof.Machine
end

