-- ==== Sys2Proof/Machine/Peer.lean ====
section
/-! DEFINITION. The reference peer (20_memory.md R70 to R82) and the reading of the byte stream it shares with the
wire (30_encoding.md R96, R119). `none` as an answer means that the spec gives the byte NO MEANING; the peer's
state is then unknown (93_implementation_defined.md §1; notes/assumptions/14.md). -/

namespace Sys2Proof.Machine

/-! ### The display RAM -/

/-- The canonical form of a memory: addresses strictly rising; only known bytes are listed, and an address that
is not listed reads as unknown (notes/assumptions/23.md). -/
def Memory.wf : List Host.Cell → Bool
  | [] => true
  | [_] => true
  | a :: b :: rest => a.1 < b.1 && Memory.wf (b :: rest)

/-- The byte at an address, `none` if it is unknown. -/
def Memory.read : List Host.Cell → Nat → Option Byte
  | [], _ => none
  | c :: rest, a => if c.1 = a then some c.2 else Memory.read rest a

/-- Write one byte, keeping the addresses rising. -/
def Memory.write : List Host.Cell → Nat → Byte → List Host.Cell
  | [], a, v => [(a, v)]
  | c :: rest, a, v =>
    if c.1 < a then c :: Memory.write rest a v
    else if c.1 = a then (a, v) :: rest
    else (a, v) :: c :: rest

/-- The address of (page, column) in `DISP` (R50, R54). -/
def dispAddr (page : BitVec 3) (col : BitVec 7) : Nat := Config.nCols * page.toNat + col.toNat

/-- The byte at (page, column) (R54). -/
def Display.byteAt (d : Display) (page : BitVec 3) (col : BitVec 7) : Option Byte :=
  Memory.read d.ram (dispAddr page col)

/-- Pixel (column `c`, row `r`): bit `r mod 8` of the byte at (page `r div 8`, column `c`) (R54, R56). -/
def Display.pixel (d : Display) (c : BitVec 7) (r : BitVec 6) : Option Bool :=
  (d.byteAt ((r >>> 3).setWidth 3) c).map fun b => b.getLsbD (r.toNat % 8)

/-- The INIT sequence as `P_CFG` lists it, orientation not flipped (R80; 41_protocol.md R163). -/
def initConfig : List CfgCommand :=
  [⟨0xA8, some 0x1F⟩, ⟨0xD3, some 0x00⟩, ⟨0x40, none⟩, ⟨0xA0, none⟩, ⟨0xC0, none⟩, ⟨0xDA, some 0x02⟩, ⟨0xA4, none⟩,
   ⟨0xA6, none⟩, ⟨0xD5, some 0x80⟩, ⟨0x8D, some 0x14⟩, ⟨0xAF, none⟩]

/-- A configuration, newest command first, holds the INIT sequence, and no command after it sets anything else (R81;
notes/assumptions/32.md). -/
def holdsInit : List CfgCommand → Bool
  | [] => false
  | c :: older => initConfig.contains c && (initConfig.reverse.isPrefixOf (c :: older) || holdsInit older)

/-- The frame a viewer sees (R81): the bytes of pages 0 to 3, as far as they are known, where `P_CFG` holds the INIT
sequence; nothing where it does not, or where the orientation is flipped, whose mapping to the glass the spec does not
define (notes/assumptions/32.md). -/
def Display.frame (d : Display) : Option (List (Option Byte)) :=
  if holdsInit d.cfg.reverse then
    some ((List.range (Config.nCols * Config.nActivePages)).map (Memory.read d.ram))
  else none

/-! ### Data bytes (R79) -/

/-- The pointers after a data byte in page mode: the column steps, and is unknown after column 127 (R79). That nothing else
is unknown then, though 93_implementation_defined.md U17 says "no meaning", is DESIGN CHOICE (notes/assumptions/35.md). -/
def stepPageMode (d : Display) (col : BitVec 7) : Display :=
  if col.toNat < 127 then { d with col := some (col + 1) } else { d with col := none }

/-- The pointers after a data byte in range mode with the full column window: the column steps; after column 127 the
page steps inside the window, and after its last page both pointers are unknown (R79). -/
def stepRangeMode (d : Display) (page : BitVec 3) (col : BitVec 7) : Display :=
  if col.toNat < 127 then { d with col := some (col + 1) }
  else match d.g1 with
    | some last => if page < last then { d with col := some 0, page := some (page + 1) } else { d with col := none, page := none }
    | none => { d with col := none, page := none }

/-- A data byte (R79): written where the pointers point, which then move. No meaning when a pointer or the mode is
unknown, or in range mode with a column window other than the full one (R61). -/
def Display.data (b : Byte) (d : Display) : Option Display :=
  match d.page, d.col, d.mode with
  | some page, some col, some .pageMode =>
    some (stepPageMode { d with ram := Memory.write d.ram (dispAddr page col) b } col)
  | some page, some col, some .rangeMode =>
    if d.c0 = some 0 ∧ d.c1 = some 127 then
      some (stepRangeMode { d with ram := Memory.write d.ram (dispAddr page col) b } page col)
    else none
  | _, _, _ => none

/-! ### Commands (R74 to R80) -/

/-- `P_MODE` after `0x20, m` (R75). With any other operand it is unknown and the rest of the peer stays as it is, as R75
says: DESIGN CHOICE, since 93_implementation_defined.md U18 calls that operand one of no meaning, which its section 1 makes
the whole peer unknown (notes/assumptions/35.md). -/
def modeOf (m : Byte) : Option AddrMode :=
  if m = 0x02 then some .pageMode else if m = 0x00 then some .rangeMode else none

/-- A bound of a column range, where the byte is a column (R71, R78; notes/assumptions/18.md). -/
def columnOf (b : Byte) : Option (BitVec 7) := if b.toNat < Config.nCols then some (b.setWidth 7) else none

/-- A bound of a page range, where the byte is a page (R71, R78; notes/assumptions/18.md). -/
def pageOf (b : Byte) : Option (BitVec 3) := if b.toNat < Config.nPages then some (b.setWidth 3) else none

/-- Append a configuration command (R80). -/
def Display.configure (command : Byte) (operand : Option Byte) (d : Display) : Display :=
  { d with cfg := d.cfg ++ [⟨command, operand⟩] }

/-- The column pointer a lower nibble sets (R77): with the upper nibble the command just before it left, or with
an upper nibble of zero. -/
def Display.lowerNibble (lo : BitVec 4) (afterUpper : Bool) (d : Display) : Display :=
  match afterUpper, d.hi with
  | true, some h => { d with col := some (h ++ lo), hi := none }
  | _, _ => { d with col := some (lo.setWidth 7) }

/-- `0x21, a, b` (R78). -/
def Display.columnRange (a b : Byte) (d : Display) : Option Display :=
  match columnOf a, columnOf b with
  | some first, some last => some { d with c0 := some first, c1 := some last, col := some first }
  | _, _ => none

/-- `0x22, a, b` (R78). -/
def Display.pageRange (a b : Byte) (d : Display) : Option Display :=
  match pageOf a, pageOf b with
  | some first, some last => some { d with g0 := some first, g1 := some last, page := some first }
  | _, _ => none

/-- A whole command, first byte `c` and operands `ops` (R75 to R80). The bytes `0xA5` and `0xA7` are in the table of
R98 but not in the peer's closed set (R74, R82), so they have no meaning here (notes/assumptions/19.md). -/
def Display.obey (kind : CmdKind) (c : Byte) (ops : List Byte) (afterUpper : Bool) (d : Display) : Option Display :=
  match kind with
  | .contrast => operands1 ops fun v => some { d with contrast := some v }
  | .addressingMode => operands1 ops fun m => some { d with mode := modeOf m }
  | .columnRange => operands2 ops fun a b => d.columnRange a b
  | .pageRange => operands2 ops fun a b => d.pageRange a b
  | .pageStart => operands0 ops (some { d with page := some (c.setWidth 3) })
  | .columnUpper => operands0 ops (some { d with hi := some (c.setWidth 3), col := none })
  | .columnLower => operands0 ops (some (d.lowerNibble (c.setWidth 4) afterUpper))
  | .entireDisplayOn => operands0 ops (if c = 0xA4 then some (d.configure c none) else none)
  | .normalInverted => operands0 ops (if c = 0xA6 then some (d.configure c none) else none)
  | .startLine => operands0 ops (some (d.configure c none))
  | .segmentRemap => operands0 ops (some (d.configure c none))
  | .comScanDir => operands0 ops (some (d.configure c none))
  | .displayOnOff => operands0 ops (some (d.configure c none))
  | .muxRatio => operands1 ops fun v => some (d.configure c (some v))
  | .displayOffset => operands1 ops fun v => some (d.configure c (some v))
  | .comPins => operands1 ops fun v => some (d.configure c (some v))
  | .oscFreq => operands1 ops fun v => some (d.configure c (some v))
  | .chargePump => operands1 ops fun v => some (d.configure c (some v))

/-! ### The byte stream (30_encoding.md R96, R119; 20_memory.md R73) -/

/-- Where the wire stands after a byte (R96, R119). -/
def StreamPos.next (pos : StreamPos) (b : Byte) : StreamPos :=
  match pos with
  | .idle => .idle
  | .address => .control
  | .control => if b = ctrlCommandsByte then .command false else if b = ctrlDataByte then .data else .noMeaning
  | .command _ =>
    match commandRow b with
    | none => .noMeaning
    | some row => if row.operands = 0 then .command (row.kind = .columnUpper) else .operand row.kind b [] row.operands
  | .operand kind first got left => if left ≤ 1 then .command false else .operand kind first (got ++ [b]) (left - 1)
  | .data => .data
  | .noMeaning => .noMeaning

/-- What a payload byte does to the display (R73 to R80): a framing byte and the bytes of an unfinished command
nothing, the last byte of a command its effect, a data byte its write. -/
def Display.take (pos : StreamPos) (b : Byte) (d : Display) : Option Display :=
  match pos with
  | .idle => some d
  | .address => some d
  | .control => if b = ctrlCommandsByte ∨ b = ctrlDataByte then some d else none
  | .command afterUpper =>
    match commandRow b with
    | none => none
    | some row => if row.operands = 0 then d.obey row.kind b [] afterUpper else some d
  | .operand kind first got left => if left ≤ 1 then d.obey kind first (got ++ [b]) false else some d
  | .data => d.data b
  | .noMeaning => none

/-! ### The peer in a transaction -/

/-- The peer after an event the spec gives no meaning: it holds nothing known, and nothing it reads before the next
STOP has a meaning (93_implementation_defined.md §1, U5; notes/assumptions/14.md). -/
def Peer.lost (p : Peer) : Peer := { p with synced := false, disp := .unknown }

/-- A payload byte has a meaning to a peer that is addressed and in step; to any other it does nothing. -/
def Peer.take (pos : StreamPos) (b : Byte) (p : Peer) : Peer :=
  if p.addressed && p.synced then
    match p.disp.take pos b with
    | some d => { p with disp := d }
    | none => p.lost
  else p

/-- Whether the reference peer pulls the data line in the acknowledge slot of byte `b` (R72). -/
def Peer.answer (devAddr : Byte) (pos : StreamPos) (b : Byte) (p : Peer) : Bool :=
  match pos with
  | .address => p.on && (b == devAddr)
  | _ => p.on && p.addressed

/-- The peer after byte `b`, which it acts on before the acknowledge sample completes (R69 c). `pulls` is what it
does in the acknowledge slot: where that is not the reference peer's answer, it is no reference peer, and nothing is
known of it (notes/assumptions/15.md). -/
def Peer.receive (devAddr : Byte) (pos : StreamPos) (b : Byte) (pulls : Bool) (p : Peer) : Peer :=
  let q := if pulls = p.answer devAddr pos b then p.take pos b else p.lost
  match pos with
  | .address => { q with addressed := pulls }
  | _ => q

/-- The peer as a transaction begins: it sees the start condition, unless it holds a line low at that moment, so that
the start condition is malformed; what it makes of the bytes after that the spec does not say, so nothing is known of it
until the next STOP (40_bus.md R138; notes/assumptions/31.md). Without power it holds no line (R72). -/
def Peer.startSeen (held : Bool) (p : Peer) : Peer := if p.on && held then p.lost else p

/-- The peer at a stop condition (R73, 30_encoding.md R96): the transaction is over and it is in step again. With
the clock held low at the STOP there is no stop condition for it to see (93_implementation_defined.md U2); without
power it holds no line (R72). -/
def Peer.stopSeen (held : Bool) (p : Peer) : Peer :=
  if p.on && held then p.lost else { p with addressed := false, synced := true }

/-- The peer after a change of its power. An unpowered one comes on with everything unknown (R71). One that loses power,
or is reset, keeps nothing that is known: the spec says that its display shows nothing or garbage until INIT is run
again (70_reset_and_hazards.md R298; DEDUCED, notes/assumptions/34.md). Power that is there already does not come again,
and a peer without power is not reset. -/
def Peer.powerChange (c : PowerChange) (p : Peer) : Peer :=
  match c with
  | .steady => p
  | .on => if p.on then p else .blank true
  | .off => .blank false
  | .reset => if p.on then .blank true else p

/-! ### The environment's lists -/

/-- The next wait's stretch (40_bus.md R134), none where the list has run out. -/
def Env.stretch (e : Env) : Stretch := e.stretches.headD (.reads 0)

/-- The peer's pull in the next acknowledge slot, the reference peer's where the list has run out. -/
def Env.pull (e : Env) (reference : Bool) : Bool := e.acks.headD reference

/-- Whether the peer holds a line low as the next START begins (40_bus.md R138). -/
def Env.heldAtStart (e : Env) : Bool := e.startHeld.headD false

/-- Whether the peer holds the clock at the next STOP. -/
def Env.held (e : Env) : Bool := e.stopHeld.headD false

/-- What befalls the peer's power as the next transaction begins, nothing where the list has run out. -/
def Env.powerNow (e : Env) : PowerChange := e.power.headD .steady

/-- The beginning of a transaction uses up the environment's choices for it: the peer's power and its hold of a line at the
start condition. -/
def Env.beginTxn (e : Env) : Env := { e with startHeld := e.startHeld.tail, power := e.power.tail }

end Sys2Proof.Machine
end

