-- ==== Sys2Proof/Machine/Ops.lean ====
section
/-! DEFINITION. The named operations all meanings are built from: the line primitives (40_bus.md R130 to R134,
R146), the byte frame `SHIFT9` (R136), start and stop, the transaction `TXN` (41_protocol.md R160), composition
(R162), and how an operation ends.

This block takes no exceptions. What the spec puts in their place is shared here once: the checked Nack
(`takeNack`, 60_exceptions.md R243), the Timeout (`takeTimeout`, R246) and the wait that never ends
(`takeHang`, R245). -/

namespace Sys2Proof.Machine

/-! ### Bus phases (10_state.md R23) -/

/-- Idle: both lines released (R23). -/
def State.isIdle (s : State) : Bool := !s.sclPull && !s.sdaPull

/-- Open, in a transaction: clock held low, data released (R23). -/
def State.isOpen (s : State) : Bool := s.sclPull && !s.sdaPull

/-! ### Line primitives -/

/-- `pull(SCL)` (R131). -/
def pullScl (s : State) : State := { s with sclPull := true, line := .scl false :: s.line }

/-- `release(SCL)` (R132). -/
def releaseScl (s : State) : State := { s with sclPull := false, line := .scl true :: s.line }

/-- `release(SDA)` when `up`, `pull(SDA)` when not (R131, R132). -/
def driveSda (up : Bool) (s : State) : State := { s with sdaPull := !up, line := .sda up :: s.line }

/-- `hold(T)` (R146): only its event. -/
def holdLine (h : Hold) (s : State) : State := { s with line := .hold h :: s.line }

/-- How a wait ends (R134). -/
inductive WaitEnd where
  | high | timeout | never
  deriving DecidableEq, Repr

/-- The end of a wait in which the peer holds the clock as `st` says (R134): with no bound a finite stretch ends and
an endless one never does; with bound `n`, `n` consecutive low reads are a Timeout. -/
def waitEnd (limit : StretchLimit) (st : Stretch) : WaitEnd :=
  match limit, st with
  | .unbounded, .reads _ => .high
  | .unbounded, .forever => .never
  | .bounded n, .reads low => if low < n then .high else .timeout
  | .bounded _, .forever => .timeout

/-- How the peer holds the clock in the next wait: without power not at all, since it pulls neither line (20_memory.md
R72), and else as the environment says. -/
def State.stretch (s : State) : Stretch := if s.peer.on then s.env.stretch else .reads 0

/-- `wait_scl_high()` (R134), which uses up one of the environment's stretches. The peer stays as it is: DESIGN CHOICE, a
peer that stretches the clock for a finite time (60_exceptions.md R262) still takes bytes and acknowledges them as the
reference peer, which never stretches (20_memory.md R72; notes/assumptions/33.md). -/
def waitSclHigh (s : State) : State × WaitEnd :=
  ({ s with line := .wait :: s.line, env := { s.env with stretches := s.env.stretches.tail } },
   waitEnd s.params.stretchLimit s.stretch)

/-- `ACK <- (sample_sda() = 0)` (R133, R136), the peer pulling the data line or not. -/
def sampleAck (pulls : Bool) (s : State) : State :=
  { s with
    ack := ackOf (lineHigh s.sdaPull pulls)
    line := .sample (lineHigh s.sdaPull pulls) :: s.line }

/-! ### The byte frame (R136) -/

/-- How a byte frame ends: with its acknowledge, by Timeout, or never (60_exceptions.md R247). -/
inductive ByteEnd where
  | acked (a : Bool) | timeout | never
  deriving DecidableEq, Repr

/-- A bit frame (30_encoding.md R90): data, clock up, wait, clock down. -/
def shiftBit (d : Bool) (s : State) : State × WaitEnd :=
  match waitSclHigh (releaseScl (driveSda d s)) with
  | (t, .high) => (pullScl t, .high)
  | (t, .timeout) => (t, .timeout)
  | (t, .never) => (t, .never)

/-- Bit frames in a row, until one does not end. -/
def shiftBits : List Bool → State → State × WaitEnd
  | [], s => (s, .high)
  | d :: ds, s =>
    match shiftBit d s with
    | (t, .high) => shiftBits ds t
    | (t, .timeout) => (t, .timeout)
    | (t, .never) => (t, .never)

/-- Whether the peer pulls the data line in the acknowledge slot of `b`: without power never (10_state.md R33,
20_memory.md R72), and else the environment's answer, or the reference peer's (R72, 93 U14). -/
def State.peerPulls (s : State) (b : Byte) : Bool :=
  s.peer.on && s.env.pull (s.peer.answer s.params.devAddr s.wire b)

/-- Byte `b` has arrived whole: the peer acts on it (R69 c), the wire moves on, the environment's answer is used. -/
def deliver (b : Byte) (s : State) : State :=
  { s with
    peer := s.peer.receive s.params.devAddr s.wire b (s.peerPulls b)
    wire := s.wire.next b
    env := { s.env with acks := s.env.acks.tail } }

/-- The byte's entry in the byte trace (30_encoding.md R93). -/
def recordByte (b : Byte) (s : State) : State := { s with bytes := .byte b s.ack :: s.bytes }

/-- The acknowledge slot (30_encoding.md R91), once the clock has been seen high. -/
def ackSample (b : Byte) (s : State) : State :=
  pullScl (recordByte b (sampleAck (s.peerPulls b) (deliver b s)))

/-- Timeout inside a byte (R136, 60_exceptions.md R246): the data line is released too, so the block is Idle and the
transaction is over, with no stop condition; the peer is left inside the byte. -/
def takeTimeout (s : State) : State :=
  let t := driveSda true s
  { t with wire := .idle, peer := t.peer.lost }

/-- An acknowledge slot that never ends: whether the peer has acted on the eight bits it holds the spec leaves open
(20_memory.md R69 c says only that it acts before the sample completes), so nothing is known of it (60_exceptions.md
R245; DESIGN CHOICE, notes/assumptions/30.md). -/
def leaveInSlot9 (s : State) : State := { s with peer := s.peer.lost }

/-- `SHIFT9(b)` (R136). What the peer has done when a wait never ends is the model's choice (DESIGN CHOICE,
notes/assumptions/30.md): in slots 1 to 8 nothing, in the acknowledge slot unknown. -/
def shift9 (b : Byte) (s : State) : State × ByteEnd :=
  match shiftBits (msbFirst b) s with
  | (t, .high) =>
    match waitSclHigh (releaseScl (driveSda true t)) with
    | (u, .high) => (ackSample b u, .acked (ackSample b u).ack)
    | (u, .timeout) => (takeTimeout u, .timeout)
    | (u, .never) => (leaveInSlot9 u, .never)
  | (t, .timeout) => (takeTimeout t, .timeout)
  | (t, .never) => (t, .never)

/-! ### Start and stop (30_encoding.md R92) -/

/-- A transaction begins: the peer may have come to power (20_memory.md R71), lost it or been reset
(70_reset_and_hazards.md R298, notes/assumptions/34.md), it sees the start condition or a malformed one (R138; what it
makes of that is DESIGN CHOICE, notes/assumptions/31.md), and the address byte is next. -/
def beginTxn (s : State) : State :=
  { s with
    peer := (s.peer.powerChange s.env.powerNow).startSeen s.env.heldAtStart
    env := s.env.beginTxn
    wire := .address
    bytes := .start :: s.bytes }

/-- The start condition with its holds (R137). -/
def startCondition (s : State) : State :=
  holdLine .startHold (pullScl (holdLine .startHold (driveSda false (beginTxn s))))

/-- `START(abyte)` (R137). -/
def startOp (abyte : Byte) (s : State) : State × ByteEnd := shift9 abyte (startCondition s)

/-- The transaction ends: the peer sees the stop condition, unless it holds the clock low (93 U2). -/
def endTxn (s : State) : State :=
  { s with
    peer := s.peer.stopSeen s.env.held
    env := { s.env with stopHeld := s.env.stopHeld.tail }
    wire := .idle
    bytes := .stop :: s.bytes }

/-- `STOP()` (R141). -/
def stopOp (s : State) : State :=
  endTxn (holdLine .idleHold (driveSda true (holdLine .stopHold (releaseScl (driveSda false s)))))

/-! ### Transactions (41_protocol.md R160, R162) -/

/-- How an operation ends: with a status, or never. -/
inductive OpEnd where
  | status (st : Status) | never
  deriving DecidableEq, Repr

/-- A checked Nack (60_exceptions.md R243): no further byte, STOP, status NACK. -/
def takeNack (s : State) : State × OpEnd := (stopOp s, .status .nack)

/-- The payload of a transaction, byte by byte, and its STOP (R160). -/
def sendPayload (check : Bool) : List Byte → State → State × OpEnd
  | [], s => (stopOp s, .status .ok)
  | b :: bs, s =>
    match shift9 b s with
    | (t, .acked a) => if nackTaken check a then takeNack t else sendPayload check bs t
    | (t, .timeout) => (t, .status .timeout)
    | (t, .never) => (t, .never)

/-- `TXN` with its `check` decided (R160). -/
def txn (check : Bool) (payload : List Byte) (s : State) : State × OpEnd :=
  match startOp s.params.devAddr s with
  | (t, .acked a) => if nackTaken check a then takeNack t else sendPayload check payload t
  | (t, .timeout) => (t, .status .timeout)
  | (t, .never) => (t, .never)

/-- `CMD(op, cs)` (R121). -/
def cmdTxn (issuer : Issuer) (cs : List Byte) (s : State) : State × OpEnd :=
  txn (checks s.params.ackPolicy issuer) (cmdPayload cs) s

/-- `DATA(op, ds)` (R121). -/
def dataTxn (issuer : Issuer) (ds : List Byte) (s : State) : State × OpEnd :=
  txn (checks s.params.ackPolicy issuer) (dataPayload ds) s

/-- Composition (R162): the next sub-operation runs only after OK. -/
def andThen (r : State × OpEnd) (k : State → State × OpEnd) : State × OpEnd :=
  match r with
  | (s, .status .ok) => k s
  | (s, .status .nack) => (s, .status .nack)
  | (s, .status .timeout) => (s, .status .timeout)
  | (s, .never) => (s, .never)

/-- SETPAGEWINDOW as a sub-operation (R166). -/
def windowOp (page : BitVec 3) (column : BitVec 7) (s : State) : State × OpEnd :=
  cmdTxn .otherOp (windowCommands page column) s

/-- WRITEBYTES as a sub-operation (R168). -/
def writeOp (ds : List Byte) (s : State) : State × OpEnd := dataTxn .otherOp ds s

/-- CLEAR's two transactions (R170). -/
def clearOp (s : State) : State × OpEnd :=
  andThen (cmdTxn .otherOp clearCommands s) fun t => dataTxn .otherOp clearData t

/-! ### How an operation answers -/

/-- The outcome of an instruction. -/
abbrev Answer := Host.Outcome State Fault Refusal

/-- The block is inside a wait that never ends (60_exceptions.md R245): no result, and no request is accepted. -/
def takeHang (s : State) : State := { s with hung := true, result := .none }

/-- START, SENDBYTE: `acked` or Timeout (R241). -/
def answerByte (r : State × ByteEnd) : Answer :=
  match r with
  | (s, .acked a) => .next { s with result := .acked a }
  | (s, .timeout) => .next { s with result := .timeout }
  | (s, .never) => .next (takeHang s)

/-- A Protocol operation: its status (R241). -/
def answerStatus (r : State × OpEnd) : Answer :=
  match r with
  | (s, .status st) => .next { s with result := .status st }
  | (s, .never) => .next (takeHang s)

/-- INIT: `acked = (status = OK)`, Timeout raised (41_protocol.md R163). -/
def answerInit (r : State × OpEnd) : Answer :=
  match r with
  | (s, .status .ok) => .next { s with result := .acked true }
  | (s, .status .nack) => .next { s with result := .acked false }
  | (s, .status .timeout) => .next { s with result := .timeout }
  | (s, .never) => .next (takeHang s)

/-- The state value a renderer returns: the advanced one after OK, its operand unchanged after anything else
(41_protocol.md R162). -/
def returned {α : Type} (operand advanced : α) : Status → α
  | .ok => advanced
  | .nack => operand
  | .timeout => operand

/-- MARQUEE, BUNGEE: `OFFSET'` and the status; the host keeps `OFFSET'` (10_state.md R29). -/
def answerOffset (operand advanced : BitVec 16) (r : State × OpEnd) : Answer :=
  match r with
  | (s, .status st) =>
    .next { s with offset := returned operand advanced st, result := .offset (returned operand advanced st) st }
  | (s, .never) => .next (takeHang s)

/-- WOBBLE: `PHASE'` and the status; the host keeps `PHASE'` (10_state.md R30). -/
def answerPhase (operand advanced : Byte) (r : State × OpEnd) : Answer :=
  match r with
  | (s, .status st) =>
    .next { s with phase := returned operand advanced st, result := .phase (returned operand advanced st) st }
  | (s, .never) => .next (takeHang s)

/-! ### Preconditions (60_exceptions.md R252, R249) -/

/-- An operation that touches no line: accepted unless another one is still running (42_glyph.md R191). -/
def whenFree (s : State) (answer : Answer) : Answer := if s.hung then .refused .busy else answer

/-- An operation whose precondition is Idle. -/
def whenIdle (s : State) (answer : Answer) : Answer :=
  whenFree s (if s.isIdle then answer else .refused .notIdle)

/-- An operation whose precondition is Open. -/
def whenOpen (s : State) (answer : Answer) : Answer :=
  whenFree s (if s.isOpen then answer else .refused .notOpen)

/-- An operation whose operands may be illegal. -/
def whenLegal (problem : Option Refusal) (answer : Answer) : Answer :=
  match problem with
  | none => answer
  | some r => .refused r

/-! ### Items a host-built transaction sends (30_encoding.md R96, R118, R122; notes/assumptions/3.md) -/

/-- SENDBYTE for each byte of an item in turn; the acknowledge of the last is the item's. -/
def sendItem : List Byte → State → State × ByteEnd
  | [], s => (s, .acked s.ack)
  | b :: bs, s =>
    match shift9 b s with
    | (t, .acked _) => sendItem bs t
    | (t, .timeout) => (t, .timeout)
    | (t, .never) => (t, .never)

/-- The wire stands where a command may begin (R96, R122). -/
def StreamPos.isCommand : StreamPos → Bool
  | .command _ => true
  | .idle | .address | .control | .operand _ _ _ _ | .data | .noMeaning => false

/-- A framing byte: only as the first payload byte (R95, R96). -/
def sendFraming (b : Byte) (s : State) : Answer :=
  whenOpen s (if s.wire = .control then answerByte (sendItem [b] s) else .refused .wrongPosition)

/-- A command with its operands: only in command position (R96, R122). -/
def sendCommand (bs : List Byte) (s : State) : Answer :=
  whenOpen s (if s.wire.isCommand then answerByte (sendItem bs s) else .refused .wrongPosition)

end Sys2Proof.Machine
end

