-- ==== Sys2Proof/Machine/Animation.lean ====
section
/-! DEFINITION. The AnimationEngine operations (43_animation.md). Each is refused unless the block is Idle and its
operands are legal (R204, R222). -/

namespace Sys2Proof.Machine

/-- MARQUEE (R203): address the page, send the columns, advance by `speed`. -/
def execMarquee (x : BitVec 7) (y : BitVec 3) (width : Byte) (msg : List Byte) (offset : BitVec 16) (speed : Byte)
    (s : State) : Answer :=
  whenIdle s (whenLegal (marqueeProblem x width msg offset)
    (answerOffset offset (advance offset speed.toNat msg)
      (andThen (windowOp y x s) (writeOp (marqueeData s.params msg width.toNat offset.toNat)))))

/-- BUNGEE (R210): as MARQUEE with the elastic columns, and an advance of 1. -/
def execBungee (x : BitVec 7) (y : BitVec 3) (width : Byte) (msg : List Byte) (offset : BitVec 16) (s : State) :
    Answer :=
  whenIdle s (whenLegal (marqueeProblem x width msg offset)
    (answerOffset offset (advance offset 1 msg)
      (andThen (windowOp y x s) (writeOp (bungeeData s.params msg width.toNat offset.toNat)))))

/-- WOBBLE (R220): the upper page, then the lower one; the phase steps by 1 and wraps at 256. -/
def execWobble (x : BitVec 7) (y : BitVec 3) (msg : List Byte) (phase : Byte) (s : State) : Answer :=
  whenIdle s (whenLegal (wobbleProblem x y msg)
    (answerPhase phase (phase + 1)
      (andThen (andThen (andThen (windowOp y x s) (writeOp (wobbleUpper s.params msg phase)))
        (windowOp (y + 1) x)) (writeOp (wobbleLower s.params msg phase)))))

end Sys2Proof.Machine
end

