-- ==== Sys2Proof/Machine/Bus.lean ====
section
/-! DEFINITION. The Bus operations (40_bus.md). -/

namespace Sys2Proof.Machine

/-- BUSCFG (R135): release both lines; refused unless Idle. -/
def execBusCfg (s : State) : Answer :=
  whenIdle s (.next { driveSda true (releaseScl s) with result := .none })

/-- START (R137, R138): refused unless Idle, and with the read bit set (30_encoding.md R117). -/
def execStart (abyte : Byte) (s : State) : Answer :=
  whenIdle s (if readBitSet abyte then .refused .readBit else answerByte (startOp abyte s))

/-- SENDBYTE (R139, R140): refused unless a transaction is open. -/
def execSendByte (byte : Byte) (s : State) : Answer := whenOpen s (answerByte (shift9 byte s))

/-- STOP (R141, R142): refused unless a transaction is open. -/
def execStop (s : State) : Answer := whenOpen s (.next { stopOp s with result := .none })

end Sys2Proof.Machine
end

