-- ==== Sys2Proof/Machine/Glyph.lean ====
section
/-! DEFINITION. The GlyphSource operation (42_glyph.md). -/

namespace Sys2Proof.Machine

/-- GLYPHFOR (R191): legal in any bus phase, no line event. -/
def execGlyphFor (code : Byte) (s : State) : Answer :=
  whenFree s (.next { s with result := .glyph (glyphBitmap s.params code) })

end Sys2Proof.Machine
end

