-- ==== Sys2Proof/Machine/Protocol.lean ====
section
/-! DEFINITION. The Protocol operations (41_protocol.md). Each is refused unless the block is Idle. -/

namespace Sys2Proof.Machine

/-- INIT (R163, R164): one transaction with the configuration sequence. -/
def execInit (s : State) : Answer := whenIdle s (answerInit (cmdTxn .initOp (initCommands s.params) s))

/-- SETPAGEWINDOW (R166). -/
def execSetPageWindow (page : BitVec 3) (column : BitVec 7) (s : State) : Answer :=
  whenIdle s (answerStatus (windowOp page column s))

/-- WRITEBYTES (R168). -/
def execWriteBytes (src : List Byte) (s : State) : Answer :=
  whenIdle s (whenLegal (writeProblem src) (answerStatus (writeOp src s)))

/-- CLEAR (R170). -/
def execClear (s : State) : Answer := whenIdle s (answerStatus (clearOp s))

/-- SETCONTRAST (R172). -/
def execSetContrast (level : Byte) (s : State) : Answer :=
  whenIdle s (answerStatus (cmdTxn .otherOp [0x81, level] s))

end Sys2Proof.Machine
end

