-- ==== Sys2Proof/Machine/Wire.lean ====
section
/-! DEFINITION. The rows of the opcode table that are bytes of the wire (30_encoding.md R94, R95, R98, R100), as
items a host sends in a transaction it builds itself (R118; notes/assumptions/3.md). The reserved selectors (R115)
stand at the end. -/

namespace Sys2Proof.Machine

/-- ADDR_BYTE (R94): START with the address byte. -/
def execAddrByte (subaddr : BitVec 1) (s : State) : Answer := whenIdle s (answerByte (startOp (addressByte subaddr) s))

/-- CTRL_COMMANDS (R95). -/
def execCtrlCommands (s : State) : Answer := sendFraming ctrlCommandsByte s

/-- CTRL_DATA (R95). -/
def execCtrlData (s : State) : Answer := sendFraming ctrlDataByte s

/-- CMD_MUX_RATIO (R100). -/
def execCmdMuxRatio (ratio : Byte) (s : State) : Answer := sendCommand [0xA8, ratio] s

/-- CMD_DISPLAY_OFFSET (R100). -/
def execCmdDisplayOffset (offset : Byte) (s : State) : Answer := sendCommand [0xD3, offset] s

/-- CMD_START_LINE (R98, R100). -/
def execCmdStartLine (s : State) : Answer := sendCommand [0x40] s

/-- CMD_SEGMENT_REMAP (R98, R100). -/
def execCmdSegmentRemap (flip : BitVec 1) (s : State) : Answer := sendCommand [segmentRemapByte flip] s

/-- CMD_COM_SCAN_DIR (R98, R100). -/
def execCmdComScanDir (flip : BitVec 1) (s : State) : Answer := sendCommand [comScanDirByte flip] s

/-- CMD_COM_PINS (R100). -/
def execCmdComPins (pins : Byte) (s : State) : Answer := sendCommand [0xDA, pins] s

/-- CMD_CONTRAST (R100). -/
def execCmdContrast (level : Byte) (s : State) : Answer := sendCommand [0x81, level] s

/-- CMD_ENTIRE_DISPLAY_ON (R98, R100). -/
def execCmdEntireDisplayOn (force : BitVec 1) (s : State) : Answer := sendCommand [entireDisplayOnByte force] s

/-- CMD_NORMAL_INVERTED (R98, R100). -/
def execCmdNormalInverted (inv : BitVec 1) (s : State) : Answer := sendCommand [normalInvertedByte inv] s

/-- CMD_OSC_FREQ (R100). -/
def execCmdOscFreq (freq : Byte) (s : State) : Answer := sendCommand [0xD5, freq] s

/-- CMD_CHARGE_PUMP (R100). -/
def execCmdChargePump (pump : Byte) (s : State) : Answer := sendCommand [0x8D, pump] s

/-- CMD_DISPLAY_ON_OFF (R98, R100). -/
def execCmdDisplayOnOff (on : BitVec 1) (s : State) : Answer := sendCommand [displayOnOffByte on] s

/-- CMD_ADDRESSING_MODE (R100). -/
def execCmdAddressingMode (mode : Byte) (s : State) : Answer := sendCommand [0x20, mode] s

/-- CMD_COLUMN_RANGE (R100). -/
def execCmdColumnRange (first last : Byte) (s : State) : Answer := sendCommand [0x21, first, last] s

/-- CMD_PAGE_RANGE (R100). -/
def execCmdPageRange (first last : Byte) (s : State) : Answer := sendCommand [0x22, first, last] s

/-- CMD_PAGE_START (R98, R100). -/
def execCmdPageStart (page : BitVec 3) (s : State) : Answer := sendCommand [pageStartByte page] s

/-- CMD_COLUMN_UPPER (R98, R99). -/
def execCmdColumnUpper (hi : BitVec 3) (s : State) : Answer := sendCommand [columnUpperByte hi] s

/-- CMD_COLUMN_LOWER (R98, R99). -/
def execCmdColumnLower (lo : BitVec 4) (s : State) : Answer := sendCommand [columnLowerByte lo] s

/-- RESERVED_1101 (R115): the selector names no operation. -/
def execReserved1101 (_ : State) : Answer := .refused (.reservedSelector 0xD)

/-- RESERVED_1110 (R115): the selector names no operation. -/
def execReserved1110 (_ : State) : Answer := .refused (.reservedSelector 0xE)

/-- RESERVED_1111 (R115): the selector names no operation. -/
def execReserved1111 (_ : State) : Answer := .refused (.reservedSelector 0xF)

end Sys2Proof.Machine
end

