-- ==== Sys2Proof/Machine/Dispatch.lean ====
section
/-! DEFINITION. The dispatch: one arm per instruction, each one direct call of its meaning. -/

namespace Sys2Proof.Machine

def exec (i : Instr) (s : State) : Host.Outcome State Fault Refusal :=
  match i with
  | .busCfg => Sys2Proof.Machine.execBusCfg s
  | .start abyte => Sys2Proof.Machine.execStart abyte s
  | .sendByte byte => Sys2Proof.Machine.execSendByte byte s
  | .stop => Sys2Proof.Machine.execStop s
  | .init => Sys2Proof.Machine.execInit s
  | .setPageWindow page column => Sys2Proof.Machine.execSetPageWindow page column s
  | .writeBytes src => Sys2Proof.Machine.execWriteBytes src s
  | .clear => Sys2Proof.Machine.execClear s
  | .setContrast level => Sys2Proof.Machine.execSetContrast level s
  | .glyphFor code => Sys2Proof.Machine.execGlyphFor code s
  | .marquee x y width msg offset speed => Sys2Proof.Machine.execMarquee x y width msg offset speed s
  | .bungee x y width msg offset => Sys2Proof.Machine.execBungee x y width msg offset s
  | .wobble x y msg phase => Sys2Proof.Machine.execWobble x y msg phase s
  | .reserved1101 => Sys2Proof.Machine.execReserved1101 s
  | .reserved1110 => Sys2Proof.Machine.execReserved1110 s
  | .reserved1111 => Sys2Proof.Machine.execReserved1111 s
  | .addrByte subaddr => Sys2Proof.Machine.execAddrByte subaddr s
  | .ctrlCommands => Sys2Proof.Machine.execCtrlCommands s
  | .ctrlData => Sys2Proof.Machine.execCtrlData s
  | .cmdMuxRatio ratio => Sys2Proof.Machine.execCmdMuxRatio ratio s
  | .cmdDisplayOffset offset => Sys2Proof.Machine.execCmdDisplayOffset offset s
  | .cmdStartLine => Sys2Proof.Machine.execCmdStartLine s
  | .cmdSegmentRemap flip => Sys2Proof.Machine.execCmdSegmentRemap flip s
  | .cmdComScanDir flip => Sys2Proof.Machine.execCmdComScanDir flip s
  | .cmdComPins pins => Sys2Proof.Machine.execCmdComPins pins s
  | .cmdContrast level => Sys2Proof.Machine.execCmdContrast level s
  | .cmdEntireDisplayOn force => Sys2Proof.Machine.execCmdEntireDisplayOn force s
  | .cmdNormalInverted inv => Sys2Proof.Machine.execCmdNormalInverted inv s
  | .cmdOscFreq freq => Sys2Proof.Machine.execCmdOscFreq freq s
  | .cmdChargePump pump => Sys2Proof.Machine.execCmdChargePump pump s
  | .cmdDisplayOnOff on => Sys2Proof.Machine.execCmdDisplayOnOff on s
  | .cmdAddressingMode mode => Sys2Proof.Machine.execCmdAddressingMode mode s
  | .cmdColumnRange first last => Sys2Proof.Machine.execCmdColumnRange first last s
  | .cmdPageRange first last => Sys2Proof.Machine.execCmdPageRange first last s
  | .cmdPageStart page => Sys2Proof.Machine.execCmdPageStart page s
  | .cmdColumnUpper hi => Sys2Proof.Machine.execCmdColumnUpper hi s
  | .cmdColumnLower lo => Sys2Proof.Machine.execCmdColumnLower lo s

end Sys2Proof.Machine
end

