-- ==== Sys2Proof/Machine/Fetch.lean ====
section
/-! DEFINITION. Where the next request comes from (30_encoding.md R110; 60_exceptions.md R261), and how a word of the
opcode table is placed there (notes/assumptions/5.md). -/

namespace Sys2Proof.Machine

/-- What the host presents next. -/
inductive Fetched where
  /-- the block is inside a wait that never ends and accepts nothing (60_exceptions.md R245, R249) -/
  | stuck
  /-- the host's list is over: nothing is presented (R261) -/
  | nothing
  /-- a request, and the bytes of the requests after it -/
  | request (i : Instr) (rest : List Byte)
  /-- bytes that are no request -/
  | garbage (why : DecodeError)
  deriving DecidableEq, Repr

/-- The next request of a state. -/
def fetch (s : State) : Fetched :=
  if s.hung then .stuck
  else if s.requests = [] then .nothing
  else
    match decode s.requests with
    | .ok (i, rest) => .request i rest
    | .error why => .garbage why

/-- The bytes the instruction at the head of `bs` takes up, all of `bs` if there is none. -/
def headBytes (bs : List Byte) : List Byte :=
  match decode bs with
  | .ok (_, rest) => bs.take (bs.length - rest.length)
  | .error _ => bs

/-- Put the bus into the position a marker names (R96): a framing byte stands first in an open transaction, a command
after framing byte `0x00`, an address byte in Idle. A selector needs nothing. -/
def inPosition (bs : List Byte) (s : State) : State :=
  if bs.head? = some addressMarker then { s with sclPull := false, sdaPull := false, wire := .idle }
  else if bs.head? = some framingMarker then { s with sclPull := true, sdaPull := false, wire := .control }
  else if bs.head? = some commandMarker then { s with sclPull := true, sdaPull := false, wire := .command false }
  else s

/-- The host presents a word of the opcode table next, in its position, to a block that accepts requests. -/
def presentWord (s : State) (nbits w : Nat) : State :=
  let bs := headBytes (tableWordBytes nbits w)
  { inPosition bs s with requests := bs, hung := false }

end Sys2Proof.Machine
end

