-- ==== Sys2Proof/Machine/Step.lean ====
section
/-! DEFINITION. One step: the next request of the host, run to completion (00_scope.md R3; 10_state.md R25). With
nothing to run the block stays as it is (notes/assumptions/22.md); inside a wait that never ends it stays there
(60_exceptions.md R245; notes/assumptions/13.md). -/

namespace Sys2Proof.Machine

/-- One step of the machine. -/
def step (s : State) : Host.Outcome State Fault Refusal :=
  match fetch s with
  | .stuck => .next s
  | .nothing => .next s
  | .request i rest => exec i { s with requests := rest }
  | .garbage why => .refused (.undecodable why)

/-- `s` with a word of the opcode table as the host's next request (notes/assumptions/5.md). -/
def State.withFetchWord (s : State) (nbits w : Nat) : State := presentWord s nbits w

end Sys2Proof.Machine
end

