-- ==== Sys2Proof/Machine/Trace.lean ====
section
/-! DEFINITION. The traces of 00_scope.md R15 as claims speak of them: the frames of 30_encoding.md R90 to R93
written out, oldest event first, and what is read off a trace (40_bus.md R130, R145). No meaning uses them. -/

namespace Sys2Proof.Machine

/-- The line trace of a state, oldest event first (R15). -/
def State.lineTrace (s : State) : List LineEvent := s.line.reverse

/-- The byte trace of a state, oldest entry first (R15). -/
def State.byteTrace (s : State) : List ByteEvent := s.bytes.reverse

/-! ### Frames (30_encoding.md R90 to R93) -/

/-- Bit frame (R90). -/
def bitFrame (d : Bool) : List LineEvent := [.sda d, .scl true, .wait, .scl false]

/-- Acknowledge slot (R91): `S=0` when acknowledged. -/
def ackFrame (acked : Bool) : List LineEvent := [.sda true, .scl true, .wait, .sample !acked, .scl false]

/-- Byte frame (R91): eight bit frames, most significant bit first, and the acknowledge slot. -/
def byteFrame (b : Byte) (acked : Bool) : List LineEvent := (msbFirst b).flatMap bitFrame ++ ackFrame acked

/-- A byte frame cut inside the wait of slot `k` (0 to 7 the bits, 8 the acknowledge): its events up to and with that
wait (60_exceptions.md R245, R246). -/
def cutFrame (b : Byte) (k : Nat) : List LineEvent := (byteFrame b true).take (4 * k + 3)

/-- What the block drives the data line to in slot `k` of a byte: the bit, and in the acknowledge slot nothing
(R90, R91). -/
def slotPull (b : Byte) (k : Nat) : Bool := if k < 8 then !b.getLsbD (7 - k) else false

/-- Start condition with its holds (R92, 40_bus.md R137). -/
def startFrame : List LineEvent := [.sda false, .hold .startHold, .scl false, .hold .startHold]

/-- Stop condition with its holds (R92, 40_bus.md R141). -/
def stopFrame : List LineEvent := [.sda false, .scl true, .hold .stopHold, .sda true, .hold .idleHold]

/-- A transaction on the wire (R93): start, the bytes with their acknowledges, stop. -/
def txnFrame (sent : List (Byte × Bool)) : List LineEvent :=
  startFrame ++ sent.flatMap (fun x => byteFrame x.1 x.2) ++ stopFrame

/-- The byte trace of a transaction (R93). -/
def txnBytes (sent : List (Byte × Bool)) : List ByteEvent :=
  .start :: sent.map (fun x => .byte x.1 x.2) ++ [.stop]

/-! ### Where a byte frame, a start and a stop lead -/

/-- The state after a whole byte frame for `b` (R91, 40_bus.md R136): Open, the acknowledge latched, the frame's events,
the byte's entry, nine waits used up. -/
def afterByte (b : Byte) (s : State) : State :=
  { s with
    sclPull := true
    sdaPull := false
    ack := s.peerPulls b
    line := (byteFrame b (s.peerPulls b)).reverse ++ s.line
    bytes := .byte b (s.peerPulls b) :: s.bytes
    peer := s.peer.receive s.params.devAddr s.wire b (s.peerPulls b)
    wire := s.wire.next b
    env := { s.env with acks := s.env.acks.tail, stretches := s.env.stretches.drop 9 } }

/-- The state after several whole byte frames. -/
def afterBytes (bs : List Byte) (s : State) : State := bs.foldl (fun t b => afterByte b t) s

/-- The state after the start condition (40_bus.md R137). -/
def afterStart (s : State) : State :=
  { beginTxn s with sclPull := true, sdaPull := true, line := startFrame.reverse ++ s.line }

/-- The state after the stop condition (40_bus.md R141). -/
def afterStop (s : State) : State :=
  { endTxn s with sclPull := false, sdaPull := false, line := stopFrame.reverse ++ s.line }

/-- The state after a whole transaction (R93, R160). -/
def afterTxn (payload : List Byte) (s : State) : State :=
  afterStop (afterBytes (s.params.devAddr :: payload) (afterStart s))

/-! ### What an operation has sent (41_protocol.md R160) -/

/-- Between `s` and `t` exactly these transactions went over the wire, whole, each to `DEV_ADDR` with its payload: the
line trace grew by their frames and the byte trace by their entries, for one and the same list of acknowledges, of
which `ACK` holds the last (R93, R145). -/
def Sends (s t : State) (payloads : List (List Byte)) : Prop :=
  ∃ sent : List (List (Byte × Bool)),
    sent.map (List.map Prod.fst) = payloads.map (s.params.devAddr :: ·) ∧
    t.lineTrace = s.lineTrace ++ sent.flatMap txnFrame ∧
    t.byteTrace = s.byteTrace ++ sent.flatMap txnBytes ∧
    sent.flatten.getLast?.map Prod.snd = some t.ack

/-- Between `s` and `t` an operation broke off inside a wait (60_exceptions.md R245, R246): the transactions `whole` went
over the wire whole; one more began and sent the bytes `begun` whole; its next byte `b` came to the wait of slot `k` and
no further; the line trace then ends with `after`, and the byte trace with the last whole byte. -/
def BreaksOff (s t : State) (whole : List (List Byte)) (begun : List Byte) (b : Byte) (k : Nat)
    (after : List LineEvent) : Prop :=
  ∃ sent : List (List (Byte × Bool)), ∃ part : List (Byte × Bool),
    sent.map (List.map Prod.fst) = whole.map (s.params.devAddr :: ·) ∧ part.map Prod.fst = begun ∧
    t.lineTrace = s.lineTrace ++ sent.flatMap txnFrame ++ startFrame ++ part.flatMap (fun x => byteFrame x.1 x.2) ++
      cutFrame b k ++ after ∧
    t.byteTrace = s.byteTrace ++ sent.flatMap txnBytes ++ (.start :: part.map fun x => .byte x.1 x.2)

/-- What went over the wire when an operation with these payloads acted on its first missing acknowledge (41_protocol.md
R160, R162): whole transactions with every byte acknowledged, and then one that ends after the first byte that is not;
the payloads after it are not begun. -/
def StopsAtNack (devAddr : Byte) (payloads : List (List Byte)) (sent : List (List (Byte × Bool))) : Prop :=
  ∃ whole payload after done pre b, payloads = whole ++ payload :: after ∧ sent = done ++ [pre ++ [(b, false)]] ∧
    done.map (List.map Prod.fst) = whole.map (devAddr :: ·) ∧ (∀ x ∈ done.flatten, x.2 = true) ∧
    (∀ x ∈ pre, x.2 = true) ∧ (pre ++ [(b, false)]).map Prod.fst <+: devAddr :: payload

/-- The bytes of the transactions `whole`, their address bytes counted, and of the bytes `begun` of one more (R145). -/
def bytesBefore (whole : List (List Byte)) (begun : List Byte) : Nat :=
  (whole.map fun p => p.length + 1).sum + begun.length

/-- The waits of an operation before the wait of slot `k` of a byte: nine for each byte before, and `k` (R145). -/
def waitsBefore (whole : List (List Byte)) (begun : List Byte) (k : Nat) : Nat :=
  9 * bytesBefore whole begun + k

/-! ### Waveforms and counts (40_bus.md R130, R145) -/

/-- The waveform of a trace begun with the lines released or pulled as given: pulls of a line already pulled and
releases of a line already released are left out (R130). -/
def waveform : Bool → Bool → List LineEvent → List LineEvent
  | _, _, [] => []
  | scl, sda, .scl up :: es => if up = scl then waveform scl sda es else .scl up :: waveform up sda es
  | scl, sda, .sda up :: es => if up = sda then waveform scl sda es else .sda up :: waveform scl up es
  | scl, sda, .wait :: es => .wait :: waveform scl sda es
  | scl, sda, .sample level :: es => .sample level :: waveform scl sda es
  | scl, sda, .hold h :: es => .hold h :: waveform scl sda es

/-- Clock pulses: releases of the clock that are pulled down again (R145). -/
def clockPulses : List LineEvent → Nat
  | [] => 0
  | .scl true :: es => (if LineEvent.scl false ∈ es then 1 else 0) + clockPulses es
  | .scl false :: es => clockPulses es
  | .sda _ :: es => clockPulses es
  | .wait :: es => clockPulses es
  | .sample _ :: es => clockPulses es
  | .hold _ :: es => clockPulses es

/-- Samples of the data line (R145). -/
def samples (es : List LineEvent) : Nat := es.countP fun e => e matches .sample _

/-- What an event drives the data line to: `true` for a release (a 1), nothing if it does not touch the line. -/
def LineEvent.dataBit : LineEvent → Option Bool
  | .sda up => some up
  | .scl _ => none
  | .wait => none
  | .sample _ => none
  | .hold _ => none

/-- The data line is driven only while the block holds the clock low: the order that guarantees setup and hold
(30_encoding.md R90), for a trace begun with the clock held low or not. -/
def dataOnlyWhileClockLow : Bool → List LineEvent → Bool
  | _, [] => true
  | _, .scl up :: es => dataOnlyWhileClockLow (!up) es
  | low, .sda _ :: es => low && dataOnlyWhileClockLow low es
  | low, .wait :: es => dataOnlyWhileClockLow low es
  | low, .sample _ :: es => dataOnlyWhileClockLow low es
  | low, .hold _ :: es => dataOnlyWhileClockLow low es

end Sys2Proof.Machine
end

