-- ==== Sys2Proof/Safety.lean ====
section
/-! DEFINITION. What claims rest on: the legal parameters, the invariant of every step, the environments in which
operations complete (70_reset_and_hazards.md R304), and what counts as a safe run. -/

namespace Sys2Proof

/-- The constraints 00_scope.md R9 and R10 put on the parameters: the read/write bit of `DEV_ADDR` is 0, a wait bound
is at least 1, there are at least 95 glyphs, and the fallback is one of them (42_glyph.md R193). -/
abbrev Params.wf (p : Params) : Prop :=
  p.devAddr.getLsbD 0 = false ∧ p.stretchLimit ≠ .bounded 0 ∧ 95 ≤ p.glyphCount ∧ p.fallbackIndex < p.glyphCount

namespace Machine

/-! ### The invariant -/

/-- The drive state and the wire agree (10_state.md R23): between operations the block is Idle and the wire idle, or
Open and the wire inside a transaction, past its address byte; a block that hangs has released the clock, inside a
transaction (60_exceptions.md R245). -/
abbrev State.busWf (s : State) : Prop :=
  if s.hung then s.sclPull = false ∧ s.wire ≠ .idle
  else s.sdaPull = false ∧ (s.sclPull = false ↔ s.wire = .idle) ∧ s.wire ≠ .address

/-- The RAM is in canonical form and lists no address outside `DISP` (20_memory.md R50). -/
abbrev Display.wf (d : Display) : Prop :=
  Memory.wf d.ram = true ∧ ∀ c ∈ d.ram, c.1 < Config.nCols * Config.nPages

/-- A peer without power or out of step holds nothing known (20_memory.md R71, 93 §1). -/
abbrev Peer.wf (p : Peer) : Prop :=
  p.disp.wf ∧ (p.synced = false → p.disp = .unknown) ∧ (p.on = false → p.disp = .unknown) ∧
    (p.addressed = true → p.synced = true → p.on = true)

/-- The invariant every step keeps. -/
abbrev State.Inv (s : State) : Prop := s.params.wf ∧ s.busWf ∧ s.peer.wf

/-! ### Environments (70_reset_and_hazards.md R304) -/

/-- The peer has no power and none is to come: it pulls neither line (10_state.md R33, 20_memory.md R72). -/
abbrev State.silent (s : State) : Prop := s.peer.on = false ∧ ∀ c ∈ s.env.power, c ≠ .on

/-- The peer has power once the next transaction has begun, and does not lose it as a later one begins. -/
abbrev State.powered (s : State) : Prop :=
  s.env.powerNow.leaves s.peer.on = true ∧ ∀ c ∈ s.env.power.tail, c ≠ .off

/-- Every clock stretch to come ends, and within the bound if there is one (which is at least 1, R134): no wait hangs,
none times out; so it is too with a peer that cannot hold the clock. It does not ask that there is no stretch: that a stretch which ends leaves the peer as the reference peer is
DESIGN CHOICE (notes/assumptions/33.md). -/
def State.flows (s : State) : Prop :=
  s.params.stretchLimit ≠ .bounded 0 ∧
    (s.silent ∨ ∀ st ∈ s.env.stretches, waitEnd s.params.stretchLimit st = .high)

/-- The environment leaves every answer to the reference peer (20_memory.md R72), which sees every start and stop
condition and keeps its power as it is: it is neither lost nor reset (70_reset_and_hazards.md R298). The peer may stretch
the clock (notes/assumptions/33.md). -/
abbrev State.reference (s : State) : Prop :=
  s.env.acks = [] ∧ s.env.startHeld = [] ∧ s.env.stopHeld = [] ∧ s.env.power = []

/-- Between operations with nothing running and no transaction open: where a Protocol or Animation operation may be
requested (60_exceptions.md R252). -/
abbrev State.ready (s : State) : Prop := s.hung = false ∧ s.isIdle = true

/-- The same with a transaction open. -/
abbrev State.readyOpen (s : State) : Prop := s.hung = false ∧ s.isOpen = true

/-- A powered peer whose answers are its own: every byte of a transaction to it is acknowledged (20_memory.md R72). -/
abbrev State.answered (s : State) : Prop := s.reference ∧ s.peer.on = true

/-- The same, with the peer in step, so that every byte sent to it has its effect. -/
abbrev State.hearing (s : State) : Prop := s.reference ∧ s.peer.on = true ∧ s.peer.synced = true

/-- Where an operation other than INIT runs to its end with status OK (60_exceptions.md R251; 41_protocol.md R160): it
may be requested, no wait fails, and no missing acknowledge is acted on or none can be missing. -/
abbrev State.unhindered (s : State) : Prop := s.ready ∧ s.flows ∧ (s.params.ackPolicy ≠ .all ∨ s.answered)

/-- The environment, with a powered peer, lets `w` waits end and holds the clock for ever in the next, and waits have no bound
(60_exceptions.md R245). -/
abbrev State.hangsAfter (s : State) (w : Nat) : Prop :=
  s.params.stretchLimit = .unbounded ∧ (∀ j < w, ∃ m, s.env.stretches[j]? = some (.reads m)) ∧
    s.env.stretches[w]? = some .forever

/-- The environment, with a powered peer, lets `w` waits end within the bound and in the next holds the clock for at least as many reads, or
for ever (60_exceptions.md R246). -/
abbrev State.timesOutAfter (s : State) (w : Nat) : Prop :=
  ∃ n, s.params.stretchLimit = .bounded n ∧ (∀ j < w, ∃ m, s.env.stretches[j]? = some (.reads m) ∧ m < n) ∧
    (s.env.stretches[w]? = some .forever ∨ ∃ m, s.env.stretches[w]? = some (.reads m) ∧ n ≤ m)

/-- What no bus activity changes: the parameters, the host's requests and its animation state. -/
abbrev State.sameHost (s t : State) : Prop :=
  t.params = s.params ∧ t.requests = s.requests ∧ t.offset = s.offset ∧ t.phase = s.phase ∧ t.hung = s.hung

/-- The same without the hang mark, which an operation that never returns sets. -/
abbrev State.sameSetting (s t : State) : Prop :=
  t.params = s.params ∧ t.requests = s.requests ∧ t.offset = s.offset ∧ t.phase = s.phase

/-- Inside a wait that never ends (60_exceptions.md R245, R249): no result, the clock released, every further step stays
there, and a request is refused, one for the bus and one that needs no line alike. -/
abbrev State.staysInWait (t : State) : Prop :=
  t.hung = true ∧ t.result = .none ∧ t.sclPull = false ∧ step t = .next t ∧
    (∀ c, exec (.sendByte c) t = .refused .busy) ∧ ∀ c, exec (.glyphFor c) t = .refused .busy

/-! ### The Protocol and Animation operations as a table -/

/-- The payloads of an operation's transactions, in their order (41_protocol.md R163 to R172; 43_animation.md R203, R210,
R220), where its operands are legal; nothing for what is no Protocol or Animation operation. -/
def opPayloads (p : Params) : Instr → Option (List (List Byte))
  | .init => some [cmdPayload (initCommands p)]
  | .setPageWindow page column => some [cmdPayload (windowCommands page column)]
  | .writeBytes src => if src.length < 65536 then some [dataPayload src] else none
  | .clear => some [cmdPayload clearCommands, dataPayload clearData]
  | .setContrast level => some [cmdPayload [0x81, level]]
  | .marquee x y width msg offset _ =>
    if marqueeProblem x width msg offset = none then
      some [cmdPayload (windowCommands y x), dataPayload (marqueeData p msg width.toNat offset.toNat)]
    else none
  | .bungee x y width msg offset =>
    if marqueeProblem x width msg offset = none then
      some [cmdPayload (windowCommands y x), dataPayload (bungeeData p msg width.toNat offset.toNat)]
    else none
  | .wobble x y msg phase =>
    if wobbleProblem x y msg = none then
      some [cmdPayload (windowCommands y x), dataPayload (wobbleUpper p msg phase),
        cmdPayload (windowCommands (y + 1) x), dataPayload (wobbleLower p msg phase)]
    else none
  | _ => none

/-- Whether an operation acts on a missing acknowledge (41_protocol.md R160, R161). -/
def opChecks (policy : AckPolicy) (i : Instr) : Bool := checks policy (if i = .init then .initOp else .otherOp)

/-- `OFFSET` after an operation that ends with a status: what MARQUEE and BUNGEE return (R162), as it was after any
other. -/
def opOffset (i : Instr) (s : State) (st : Status) : BitVec 16 :=
  match i with
  | .marquee _ _ _ msg offset speed => returned offset (advance offset speed.toNat msg) st
  | .bungee _ _ _ msg offset => returned offset (advance offset 1 msg) st
  | _ => s.offset

/-- `PHASE` after an operation that ends with a status: what WOBBLE returns (R162), as it was after any other. -/
def opPhase (i : Instr) (s : State) (st : Status) : Byte :=
  match i with
  | .wobble _ _ _ phase => returned phase (phase + 1) st
  | _ => s.phase

/-- The result of an operation that ends with a status (60_exceptions.md R241). -/
def opResult (i : Instr) (s : State) (st : Status) : Result :=
  match i, st with
  | .init, .ok => .acked true
  | .init, .nack => .acked false
  | .init, .timeout => .timeout
  | .marquee _ _ _ _ _ _, st => .offset (opOffset i s st) st
  | .bungee _ _ _ _ _, st => .offset (opOffset i s st) st
  | .wobble _ _ _ _, st => .phase (opPhase i s st) st
  | _, st => .status st

/-- An operation that began in `s` has ended in `t` with a status: the result, the animation state (the renderers' own
operand unless the status is OK, R162), the block Idle; the parameters and the host's requests as they were. -/
abbrev EndsWith (i : Instr) (s t : State) (st : Status) : Prop :=
  t.result = opResult i s st ∧ t.offset = opOffset i s st ∧ t.phase = opPhase i s st ∧ t.isIdle = true ∧
    t.wire = .idle ∧ t.hung = false ∧ t.params = s.params ∧ t.requests = s.requests

/-! ### What items and data bytes do -/

/-- An item of a host-built transaction, executed in `s`, is the bytes `bs` on the wire, each a whole frame, and leaves
the transaction open at `pos`; its result is the last acknowledge (notes/assumptions/3.md). -/
def ItemSends (i : Instr) (s : State) (bs : List Byte) (pos : StreamPos) : Prop :=
  ∃ t, ∃ sent : List (Byte × Bool), exec i s = .next t ∧ sent.map Prod.fst = bs ∧
    t.lineTrace = s.lineTrace ++ sent.flatMap (fun x => byteFrame x.1 x.2) ∧
    t.byteTrace = s.byteTrace ++ sent.map (fun x => .byte x.1 x.2) ∧
    sent.getLast?.map Prod.snd = some t.ack ∧ t.result = .acked t.ack ∧
    t.wire = pos ∧ t.readyOpen ∧ s.sameHost t

/-- The peer is listening to the transaction in progress: addressed, in step, its answers its own. -/
abbrev State.listening (s : State) : Prop := s.hearing ∧ s.peer.addressed = true

/-- From `d` to `d'` the bytes `bs` were stored from address `base` on, and every other byte reads as before. -/
def Display.stores (d d' : Display) (base : Nat) (bs : List Byte) : Prop :=
  ∀ a, Memory.read d'.ram a = if base ≤ a ∧ a < base + bs.length then bs[a - base]? else Memory.read d.ram a

/-! ### Safe runs -/

/-- An operation returns: it is not refused, and it does not hang. -/
def Completes (a : Answer) : Prop := ∃ t, a = .next t ∧ t.hung = false

/-- What a WRITEBYTES of `n` bytes must find (70_reset_and_hazards.md R291, R293): page mode, both pointers known, and
room in the page. -/
def Display.readyFor (d : Display) (n : Nat) : Prop :=
  d.mode = some .pageMode ∧ (∃ p, d.page = some p) ∧ ∃ c, d.col = some c ∧ c.toNat + n ≤ Config.nCols

/-- A run of `k` steps is safe when none of them stops and none leaves the block hanging. -/
def SafeRun (k : Nat) (s : State) : Prop := ∃ t, Sys2Proof.core.run k s = .next t ∧ t.hung = false

end Machine

end Sys2Proof
end

