-- ==== Sys2Proof/Certificates/Slice0/Obligations.lean ====
section
/-! DEFINITION. The statements for the provers. Each docstring names the rules it formalises; where a clause rests on
the model's own choice it names the entry of notes/assumptions. -/

open Sys2Proof Sys2Proof.Machine

/-! ### Reset, the invariant, the step -/

/-- R21: after reset both lines are released, the idle state. -/
def Obligations.ResetReleasesBothLines : Prop :=
  State.reset.sclPull = false ∧ State.reset.sdaPull = false ∧ State.reset.isIdle = true

/-- The reset state meets the invariant (10_state.md R23, 20_memory.md R50, 00_scope.md R9; the parameters' and the
peer's reset values are the model's, entries 9, 11, 14; so are the marks `hung` and `synced` it speaks of, entries 13 and
14). -/
def Obligations.ResetMeetsTheInvariant : Prop := State.reset.Inv

/-- The invariant is kept by every step: the drive state is Idle or Open between operations and agrees with the wire
(R23), the display RAM stays canonical and inside `DISP` (R50), the parameters stay legal (R9), and an unpowered peer
holds nothing known (R71). Two parts speak of the model's own marks: a peer out of step (`synced`) holds nothing known
(93 §1 as entry 14 reads it, with 15, 16, 17, 30, 31), and a hung block (`hung`, entry 13) is inside a transaction with
the clock released. -/
def Obligations.StepKeepsTheInvariant : Prop :=
  ∀ s t, s.Inv → step s = .next t → t.Inv

/-- When the bytes the host presents decode to an instruction, the step is that instruction's meaning, run with those
bytes taken off the host's list (R110, R25; the bytes of a request are the model's, entries 2 and 3). -/
def Obligations.StepRunsTheDecodedRequest : Prop :=
  ∀ s i rest, s.hung = false → decode s.requests = .ok (i, rest) → step s = exec i { s with requests := rest }

/-- With nothing presented the block stays as it is (the model's choice, entry 22), and bytes that are no request are
refused (R252). -/
def Obligations.StepWithoutRequest : Prop :=
  (∀ s, s.hung = false → s.requests = [] → step s = .next s) ∧
  ∀ s why, s.hung = false → s.requests ≠ [] → decode s.requests = .error why → step s = .refused (.undecodable why)

/-! ### Encoding -/

/-- Every well-formed instruction decodes from its own encoding, whatever follows it (R110, R94 to R100; the request
bytes and the position markers are the model's, entries 2 and 3). -/
def Obligations.EveryInstructionDecodesFromItsEncoding : Prop :=
  ∀ i rest, i.wellFormed = true → decode (encode i ++ rest) = .ok (i, rest)

/-- Decoding loses no bit: whatever decodes is the encoding of a well-formed instruction, followed by what is left (R110,
R94 to R100; the request bytes and the position markers are the model's, entries 2 and 3). -/
def Obligations.WhateverDecodesIsAnEncoding : Prop :=
  ∀ bs i rest, decode bs = .ok (i, rest) → bs = encode i ++ rest ∧ i.wellFormed = true

/-- Requests of 95_test_vectors.md §8 and bytes of R98 to R100, written out, decode to what they stand for (the request
bytes and the position markers are the model's, entries 2 and 3). -/
def Obligations.WrittenOutWordsDecode : Prop :=
  decode [0x1, 0x78] = .ok (.start 0x78, []) ∧
  decode [0x5, 0x02, 0x5A] = .ok (.setPageWindow 2 90, []) ∧
  decode [0x6, 0x00, 0x01, 0xAA] = .ok (.writeBytes [0xAA], []) ∧
  decode [0xA, 0x08, 0x02, 0x10, 0x02, 0x41, 0x42, 0x00, 0x04, 0x02] = .ok (.marquee 8 2 16 [0x41, 0x42] 4 2, []) ∧
  decode [0xC, 0x00, 0x00, 0x01, 0x41, 0x01] = .ok (.wobble 0 0 [0x41] 1, []) ∧
  decode [0x10, 0x7A] = .ok (.addrByte 1, []) ∧
  decode [0x12, 0xB3] = .ok (.cmdPageStart 3, []) ∧
  decode [0x12, 0x22, 0x00, 0x03] = .ok (.cmdPageRange 0x00 0x03, [])

/-! ### Refusals (60_exceptions.md R252) -/

/-- R115: the three reserved selectors are refused in every state. -/
def Obligations.ReservedSelectorsAreRefused : Prop :=
  ∀ s, exec .reserved1101 s = .refused (.reservedSelector 0xD) ∧
    exec .reserved1110 s = .refused (.reservedSelector 0xE) ∧ exec .reserved1111 s = .refused (.reservedSelector 0xF)

/-- R140, R138, R142, R117, R135, R252: SENDBYTE and STOP when Idle, START with its read bit set, and BUSCFG, START and
every Protocol and Animation operation while a transaction is open are refused. So are the framing items and the
commands when Idle and ADDR_BYTE while open (wire items as requests are the model's, entry 3). Which ground a refusal
names where several hold (START while open whatever its operand, operations whatever their operands) is the model's
choice, entry 29. -/
def Obligations.WrongPhaseIsRefused : Prop :=
  (∀ s b, s.ready → exec (.sendByte b) s = .refused .notOpen) ∧
  (∀ s a, s.ready → a.getLsbD 0 = true → exec (.start a) s = .refused .readBit) ∧
  (∀ s, s.ready → exec .stop s = .refused .notOpen ∧ exec .ctrlCommands s = .refused .notOpen ∧
    exec .ctrlData s = .refused .notOpen) ∧
  (∀ s v w f, s.ready →
    exec (.cmdMuxRatio v) s = .refused .notOpen ∧ exec (.cmdDisplayOffset v) s = .refused .notOpen ∧
    exec .cmdStartLine s = .refused .notOpen ∧ exec (.cmdSegmentRemap f) s = .refused .notOpen ∧
    exec (.cmdComScanDir f) s = .refused .notOpen ∧ exec (.cmdComPins v) s = .refused .notOpen ∧
    exec (.cmdContrast v) s = .refused .notOpen ∧ exec (.cmdEntireDisplayOn f) s = .refused .notOpen ∧
    exec (.cmdNormalInverted f) s = .refused .notOpen ∧ exec (.cmdOscFreq v) s = .refused .notOpen ∧
    exec (.cmdChargePump v) s = .refused .notOpen ∧ exec (.cmdDisplayOnOff f) s = .refused .notOpen ∧
    exec (.cmdAddressingMode v) s = .refused .notOpen ∧ exec (.cmdColumnRange v w) s = .refused .notOpen ∧
    exec (.cmdPageRange v w) s = .refused .notOpen ∧ (∀ p, exec (.cmdPageStart p) s = .refused .notOpen) ∧
    (∀ h, exec (.cmdColumnUpper h) s = .refused .notOpen) ∧ ∀ l, exec (.cmdColumnLower l) s = .refused .notOpen) ∧
  ∀ s, s.readyOpen →
    exec .busCfg s = .refused .notIdle ∧ (∀ a, exec (.start a) s = .refused .notIdle) ∧
    (∀ a, exec (.addrByte a) s = .refused .notIdle) ∧ exec .init s = .refused .notIdle ∧
    (∀ p c, exec (.setPageWindow p c) s = .refused .notIdle) ∧ (∀ bs, exec (.writeBytes bs) s = .refused .notIdle) ∧
    exec .clear s = .refused .notIdle ∧ (∀ l, exec (.setContrast l) s = .refused .notIdle) ∧
    (∀ x y w m o v, exec (.marquee x y w m o v) s = .refused .notIdle) ∧
    (∀ x y w m o, exec (.bungee x y w m o) s = .refused .notIdle) ∧
    ∀ x y m p, exec (.wobble x y m p) s = .refused .notIdle

/-- R204: MARQUEE and BUNGEE refuse `width = 0`, `width > 128`, `x + width > 128`, `L = 0` and `OFFSET >= 8*L`; and
R222: WOBBLE refuses `L = 0`, `x + 8*L > 128` and `y = 7`. -/
def Obligations.RenderersRefuseIllegalOperands : Prop :=
  (∀ s x y (width : Byte) (msg : List Byte) (offset : BitVec 16) speed, s.ready →
    (width.toNat = 0 ∨ 128 < width.toNat ∨ 128 < x.toNat + width.toNat ∨ msg.length = 0 ∨
      8 * msg.length ≤ offset.toNat) →
    (∃ r, exec (.marquee x y width msg offset speed) s = .refused r) ∧
    ∃ r, exec (.bungee x y width msg offset) s = .refused r) ∧
  ∀ s x (y : BitVec 3) (msg : List Byte) phase, s.ready →
    (msg.length = 0 ∨ 128 < x.toNat + 8 * msg.length ∨ y = 7) →
    ∃ r, exec (.wobble x y msg phase) s = .refused r

/-- R96, R122: a wire item is refused where the wire does not stand in its position (the model's choice, entry 3). -/
def Obligations.ItemsOutOfPositionAreRefused : Prop :=
  (∀ s, s.readyOpen → s.wire ≠ .control →
    exec .ctrlCommands s = .refused .wrongPosition ∧ exec .ctrlData s = .refused .wrongPosition) ∧
  ∀ s v w f, s.readyOpen → s.wire.isCommand = false →
    exec (.cmdMuxRatio v) s = .refused .wrongPosition ∧ exec (.cmdDisplayOffset v) s = .refused .wrongPosition ∧
    exec .cmdStartLine s = .refused .wrongPosition ∧ exec (.cmdSegmentRemap f) s = .refused .wrongPosition ∧
    exec (.cmdComScanDir f) s = .refused .wrongPosition ∧ exec (.cmdComPins v) s = .refused .wrongPosition ∧
    exec (.cmdContrast v) s = .refused .wrongPosition ∧ exec (.cmdEntireDisplayOn f) s = .refused .wrongPosition ∧
    exec (.cmdNormalInverted f) s = .refused .wrongPosition ∧ exec (.cmdOscFreq v) s = .refused .wrongPosition ∧
    exec (.cmdChargePump v) s = .refused .wrongPosition ∧ exec (.cmdDisplayOnOff f) s = .refused .wrongPosition ∧
    exec (.cmdAddressingMode v) s = .refused .wrongPosition ∧ exec (.cmdColumnRange v w) s = .refused .wrongPosition ∧
    exec (.cmdPageRange v w) s = .refused .wrongPosition ∧ (∀ p, exec (.cmdPageStart p) s = .refused .wrongPosition) ∧
    (∀ h, exec (.cmdColumnUpper h) s = .refused .wrongPosition) ∧
    ∀ l, exec (.cmdColumnLower l) s = .refused .wrongPosition

/-! ### Bus operations (40_bus.md) -/

/-- R135: BUSCFG releases the clock, then the data line, and does nothing else; while a transaction is open it is
refused. -/
def Obligations.BusCfgReleasesBothLines : Prop :=
  (∀ s, s.ready → exec .busCfg s = .next { s with
    sclPull := false, sdaPull := false, line := .sda true :: .scl true :: s.line, result := .none }) ∧
  ∀ s, s.readyOpen → exec .busCfg s = .refused .notIdle

/-- R137: START sends the start condition with its holds and the address byte's frame, and leaves the transaction open
with the acknowledge as its result, also when it is missing. -/
def Obligations.StartSendsConditionAndAddress : Prop :=
  ∀ s a, s.ready → s.flows → a.getLsbD 0 = false →
    ∃ t k, exec (.start a) s = .next t ∧ t.result = .acked k ∧ t.ack = k ∧ t.sclPull = true ∧ t.sdaPull = false ∧
      t.lineTrace = s.lineTrace ++ startFrame ++ byteFrame a k ∧
      t.byteTrace = s.byteTrace ++ [.start, .byte a k] ∧ t.wire = .control ∧ s.sameHost t

/-- R139: SENDBYTE sends the byte's frame, whatever the byte, and leaves the transaction open with the acknowledge as
its result, whatever it is. -/
def Obligations.SendByteSendsItsFrame : Prop :=
  ∀ s b, s.readyOpen → s.flows →
    ∃ t k, exec (.sendByte b) s = .next t ∧ t.result = .acked k ∧ t.ack = k ∧ t.sclPull = true ∧ t.sdaPull = false ∧
      t.lineTrace = s.lineTrace ++ byteFrame b k ∧ t.byteTrace = s.byteTrace ++ [.byte b k] ∧
      t.wire = s.wire.next b ∧ s.sameHost t

/-- R141: STOP sends the stop condition with its holds and leaves the block Idle, in every environment: it has no
wait. -/
def Obligations.StopSendsConditionAndIdles : Prop :=
  ∀ s, s.readyOpen → ∃ t, exec .stop s = .next t ∧ t.result = .none ∧ t.sclPull = false ∧ t.sdaPull = false ∧
    t.lineTrace = s.lineTrace ++ [.sda false, .scl true, .hold .stopHold, .sda true, .hold .idleHold] ∧
    t.byteTrace = s.byteTrace ++ [.stop] ∧ t.wire = .idle ∧ t.ack = s.ack ∧ s.sameHost t

/-- R55, R91: the eight data bits of a byte frame go out most significant first, a 1 as a release and a 0 as a pull of
the data line, the ninth slot releases it; and R90: the data line is driven only while the clock is held low. -/
def Obligations.ByteFrameIsMsbFirst : Prop :=
  ∀ (b : Byte) (k : Bool),
    (byteFrame b k).filterMap LineEvent.dataBit = (List.range 8).map (fun j => b.getLsbD (7 - j)) ++ [true] ∧
    dataOnlyWhileClockLow true (byteFrame b k) = true ∧ (byteFrame b k).length = 37

/-- R72: the reference peer acknowledges an address byte when it is powered and the byte is `DEV_ADDR`, and then every
byte of that transaction; START and SENDBYTE report that. R33: an unpowered peer that stays so never acknowledges, in no
byte of any instruction, whatever the environment's lists say, and INIT learns of it (O27). A finite stretch of the
clock leaves the result as it is (95_test_vectors.md V7); that it leaves the peer so too is the model's choice (entry
33). -/
def Obligations.ReferencePeerAcknowledges : Prop :=
  (∀ s a, s.ready → s.flows → s.reference → a.getLsbD 0 = false →
    ∃ t, exec (.start a) s = .next t ∧ t.result = .acked (s.peer.on && (a == s.params.devAddr)) ∧
      t.peer.addressed = (s.peer.on && (a == s.params.devAddr)) ∧ t.peer.on = s.peer.on ∧ t.peer.disp = s.peer.disp) ∧
  (∀ s b, s.readyOpen → s.flows → s.reference → s.wire ≠ .address →
    ∃ t, exec (.sendByte b) s = .next t ∧ t.result = .acked (s.peer.on && s.peer.addressed) ∧
      t.peer.addressed = s.peer.addressed ∧ t.peer.on = s.peer.on) ∧
  ∀ i s t, s.silent → exec i s = .next t → t.silent ∧
    ∃ new, t.byteTrace = s.byteTrace ++ new ∧ ∀ b k, .byte b k ∈ new → k = false

/-- R79: a data byte to a listening peer. With the pointers and the mode known, in range mode with all columns as its
window, the byte is stored where the pointers point and nowhere else, and the pointers move as the mode says; that they
are unknown after column 127 in range mode with `P_G1` unknown is the model's choice (entry 18). With a pointer or the
mode unknown, or in range mode with another window, the byte has no meaning, and then nothing is known of the display
(93 §1 as entry 14 reads it). That a finite stretch of the clock changes nothing in this is the model's choice (entry
33). That a write at column 127 in page mode makes the column alone unknown is R79 and not U17 (entry 35). -/
def Obligations.DataBytesStoreAtThePointers : Prop :=
  ∀ s b, s.readyOpen → s.flows → s.listening → s.wire = .data →
    ∃ t, exec (.sendByte b) s = .next t ∧
      (s.peer.disp.page = none ∨ s.peer.disp.col = none ∨ s.peer.disp.mode = none → t.peer.disp = .unknown) ∧
      ∀ pg (c : BitVec 7), s.peer.disp.page = some pg → s.peer.disp.col = some c →
        (s.peer.disp.mode = some .pageMode →
          s.peer.disp.stores t.peer.disp (dispAddr pg c) [b] ∧
          t.peer.disp = { s.peer.disp with
            ram := t.peer.disp.ram, col := if c.toNat < 127 then some (c + 1) else none }) ∧
        (∀ last, s.peer.disp.mode = some .rangeMode → s.peer.disp.c0 = some 0 → s.peer.disp.c1 = some 127 →
          s.peer.disp.g1 = some last →
          s.peer.disp.stores t.peer.disp (dispAddr pg c) [b] ∧
          t.peer.disp = { s.peer.disp with
            ram := t.peer.disp.ram
            col := if c.toNat < 127 then some (c + 1) else if pg < last then some 0 else none
            page := if c.toNat < 127 then some pg else if pg < last then some (pg + 1) else none }) ∧
        (s.peer.disp.mode = some .rangeMode → s.peer.disp.c0 = some 0 → s.peer.disp.c1 = some 127 →
          s.peer.disp.g1 = none →
          s.peer.disp.stores t.peer.disp (dispAddr pg c) [b] ∧
          t.peer.disp = { s.peer.disp with
            ram := t.peer.disp.ram
            col := if c.toNat < 127 then some (c + 1) else none
            page := if c.toNat < 127 then some pg else none }) ∧
        (s.peer.disp.mode = some .rangeMode → s.peer.disp.c0 ≠ some 0 ∨ s.peer.disp.c1 ≠ some 127 →
          t.peer.disp = .unknown)

/-- R57, R65: outside data position no byte of a transaction stores anything: every byte of a listening peer's display
reads as before, or nothing is known of it (a byte without meaning, entry 14). That a finite stretch of the clock
changes nothing in this is the model's choice (entry 33). -/
def Obligations.OnlyDataBytesStore : Prop :=
  ∀ s b, s.readyOpen → s.flows → s.listening → s.wire ≠ .data → s.wire ≠ .address →
    ∃ t, exec (.sendByte b) s = .next t ∧
      ((∀ a, Memory.read t.peer.disp.ram a = Memory.read s.peer.disp.ram a) ∨ t.peer.disp = .unknown)

/-- START, STOP and BUSCFG, and the items ADDR_BYTE and the framing bytes (wire items as requests are the model's, entry
3), leave what the reference peer holds as it is (R57, R65), and after STOP it is not addressed any more (R73, R96).
That STOP also puts a peer that was out of step in step again is the model's choice, and an unsafe one (entry 14). That
a finite stretch of the clock changes nothing in this is the model's choice (entry 33). -/
def Obligations.BusOperationsKeepTheDisplay : Prop :=
  (∀ s a t, s.flows → s.reference → exec (.start a) s = .next t → t.peer.disp = s.peer.disp) ∧
  (∀ s a t, s.flows → s.reference → exec (.addrByte a) s = .next t → t.peer.disp = s.peer.disp) ∧
  (∀ s t, s.flows → s.reference → exec .ctrlCommands s = .next t ∨ exec .ctrlData s = .next t →
    t.peer = s.peer) ∧
  (∀ s, s.readyOpen → s.reference → ∃ t, exec .stop s = .next t ∧
    t.peer = { on := s.peer.on, addressed := false, synced := true, disp := s.peer.disp }) ∧
  ∀ s t, exec .busCfg s = .next t → t.peer = s.peer

/-! ### Waits that fail (60_exceptions.md R245, R246) -/

/-- R245: with no bound, a wait that a powered peer never ends leaves the block inside it, the clock released, the data
line at the current bit, without a result; it stays there and accepts no request (R249). `k` is the slot of the byte, 0
to 8. So SENDBYTE; so START, its start condition sent; and so every Protocol and Animation operation, in any slot of any
byte of any of its transactions, what comes before sent whole and what comes after not sent, if no missing acknowledge
is acted on before. The mark `hung` and the refusal are the model's way to show it (entry 13); that the byte trace lists
no unfinished byte is entry 27; that nothing is known of the peer when the acknowledge slot never ends is entry 30. -/
def Obligations.EndlessStretchHangs : Prop :=
  (∀ s b k, s.readyOpen → s.peer.on = true → k < 9 → s.hangsAfter k →
    ∃ t, exec (.sendByte b) s = .next t ∧ t.staysInWait ∧ t.sdaPull = slotPull b k ∧
      t.lineTrace = s.lineTrace ++ cutFrame b k ∧ t.bytes = s.bytes ∧ (k < 8 → t.peer = s.peer) ∧
      (k = 8 → t.peer.disp = .unknown) ∧ s.sameSetting t) ∧
  (∀ s a k, s.ready → s.env.powerNow.leaves s.peer.on = true → a.getLsbD 0 = false → k < 9 → s.hangsAfter k →
    ∃ t, exec (.start a) s = .next t ∧ t.staysInWait ∧ t.sdaPull = slotPull a k ∧
      t.lineTrace = s.lineTrace ++ startFrame ++ cutFrame a k ∧ t.byteTrace = s.byteTrace ++ [.start] ∧
      s.sameSetting t) ∧
  ∀ i s payloads whole payload after begun b rest k, s.ready → s.powered → opPayloads s.params i = some payloads →
    payloads = whole ++ payload :: after → s.params.devAddr :: payload = begun ++ b :: rest → k < 9 →
    s.hangsAfter (waitsBefore whole begun k) → opChecks s.params.ackPolicy i = false ∨ s.answered →
    ∃ t, exec i s = .next t ∧ t.staysInWait ∧ t.sdaPull = slotPull b k ∧ BreaksOff s t whole begun b k [] ∧
      s.sameSetting t

/-- R246, R136: with bound `n` and a powered peer, `n` low reads in the wait of slot `k` of the byte of SENDBYTE or
START raise Timeout: the data line is released too, so the block is Idle, and the transaction is over with no stop
condition. That the byte is not in the byte trace is the model's choice (entry 27). -/
def Obligations.BoundedStretchTimesOut : Prop :=
  (∀ s b k, s.readyOpen → s.peer.on = true → k < 9 → s.timesOutAfter k →
    ∃ t, exec (.sendByte b) s = .next t ∧ t.result = .timeout ∧ t.sclPull = false ∧ t.sdaPull = false ∧
      t.wire = .idle ∧ t.lineTrace = s.lineTrace ++ cutFrame b k ++ [.sda true] ∧ t.bytes = s.bytes ∧ s.sameHost t) ∧
  ∀ s a k, s.ready → s.env.powerNow.leaves s.peer.on = true → a.getLsbD 0 = false → k < 9 → s.timesOutAfter k →
    ∃ t, exec (.start a) s = .next t ∧ t.result = .timeout ∧ t.sclPull = false ∧ t.sdaPull = false ∧
      t.wire = .idle ∧ t.lineTrace = s.lineTrace ++ startFrame ++ cutFrame a k ++ [.sda true] ∧
      t.byteTrace = s.byteTrace ++ [.start] ∧ s.sameHost t

/-- R246, R162: a Timeout in any slot of any byte of any transaction ends a Protocol or Animation operation: status
TIMEOUT without a STOP, INIT raising it, a renderer giving its state back unchanged, the block Idle; what comes before
was sent whole, and the rest, further sub-operations among it, is not sent. It is so if the peer has power throughout
and no missing acknowledge is acted on before. That the byte trace lists no unfinished byte is the model's choice (entry
27), and so is that nothing is known of the peer afterwards (entry 16). -/
def Obligations.TimeoutEndsAnOperation : Prop :=
  ∀ i s payloads whole payload after begun b rest k, s.ready → s.powered → opPayloads s.params i = some payloads →
    payloads = whole ++ payload :: after → s.params.devAddr :: payload = begun ++ b :: rest → k < 9 →
    s.timesOutAfter (waitsBefore whole begun k) → opChecks s.params.ackPolicy i = false ∨ s.answered →
    ∃ t, exec i s = .next t ∧ EndsWith i s t .timeout ∧ BreaksOff s t whole begun b k [.sda true] ∧
      t.peer.disp = .unknown

/-! ### Protocol operations (41_protocol.md) -/

/-- INIT's payload bytes with the orientation flags as given (R163, R165). -/
def Sys2Proof.initPayload (flipSeg flipCom : Bool) : List Byte :=
  [0x00, 0xA8, 0x1F, 0xD3, 0x00, 0x40, if flipSeg then 0xA1 else 0xA0, if flipCom then 0xC8 else 0xC0, 0xDA, 0x02,
   0x81, 0x7F, 0xA4, 0xA6, 0xD5, 0x80, 0x8D, 0x14, 0xAF]

/-- R163, R165: INIT to a peer that acknowledges sends its nineteen payload bytes in one transaction, every one
acknowledged, and returns `acked = 1`. -/
def Obligations.InitSendsTheFixedSequence : Prop :=
  ∀ s, s.ready → s.flows → s.answered →
    ∃ t, exec .init s = .next t ∧ t.result = .acked true ∧ t.isIdle = true ∧ s.sameHost t ∧
      Sends s t [initPayload s.params.flipSeg s.params.flipCom] ∧
      t.byteTrace = s.byteTrace ++ txnBytes
        ((s.params.devAddr :: initPayload s.params.flipSeg s.params.flipCom).map fun b => (b, true))

/-- R164: INIT on a missing acknowledge. Its acknowledges checked, whatever the peer answers, it sends its whole sequence
acknowledged and returns `acked = 1`, or sends it up to and with the first byte that is not acknowledged, then STOP, and
returns `acked = 0`; to an unpowered peer it sends the address byte and STOP. Unchecked, it sends every byte and returns
`acked = 1`. The block is Idle in every case. -/
def Obligations.InitOnAMissingAcknowledge : Prop :=
  (∀ s, s.ready → s.flows → s.params.ackPolicy ≠ .off →
    ∃ t sent, exec .init s = .next t ∧ t.isIdle = true ∧ s.sameHost t ∧
      t.lineTrace = s.lineTrace ++ txnFrame sent ∧ t.byteTrace = s.byteTrace ++ txnBytes sent ∧
      ((t.result = .acked true ∧ (∀ x ∈ sent, x.2 = true) ∧
          sent.map Prod.fst = s.params.devAddr :: initPayload s.params.flipSeg s.params.flipCom) ∨
        (t.result = .acked false ∧ (∃ pre b, sent = pre ++ [(b, false)] ∧ ∀ x ∈ pre, x.2 = true) ∧
          sent.map Prod.fst <+: s.params.devAddr :: initPayload s.params.flipSeg s.params.flipCom))) ∧
  (∀ s, s.ready → s.params.stretchLimit ≠ .bounded 0 → s.env.powerNow.leaves s.peer.on = false →
    (∀ c ∈ s.env.power.tail, c ≠ .on) → s.params.ackPolicy ≠ .off →
    ∃ t, exec .init s = .next t ∧ t.result = .acked false ∧
      t.lineTrace = s.lineTrace ++ txnFrame [(s.params.devAddr, false)] ∧
      t.byteTrace = s.byteTrace ++ [.start, .byte s.params.devAddr false, .stop]) ∧
  ∀ s, s.ready → s.flows → s.params.ackPolicy = .off →
    ∃ t, exec .init s = .next t ∧ t.result = .acked true ∧ t.isIdle = true ∧ s.sameHost t ∧
      Sends s t [initPayload s.params.flipSeg s.params.flipCom]

/-- R166, R167: SETPAGEWINDOW sends page mode, the page start, the upper and then the lower column nibble. -/
def Obligations.SetPageWindowSendsItsCommands : Prop :=
  ∀ s (page : BitVec 3) (column : BitVec 7), s.unhindered →
    ∃ t, exec (.setPageWindow page column) s = .next t ∧ t.result = .status .ok ∧ t.isIdle = true ∧ s.sameHost t ∧
      Sends s t [[0x00, 0x20, 0x02, 0xB0 ||| page.setWidth 8, 0x10 ||| (column >>> 4).setWidth 8,
        0x00 ||| (column.setWidth 8 &&& 0x0F)]]

/-- R168: WRITEBYTES sends the data framing byte and its bytes in index order. -/
def Obligations.WriteBytesStreamsItsBytes : Prop :=
  ∀ s (src : List Byte), s.unhindered → src.length < 65536 →
    ∃ t, exec (.writeBytes src) s = .next t ∧ t.result = .status .ok ∧ t.isIdle = true ∧ s.sameHost t ∧
      Sends s t [0x40 :: src]

/-- R170: CLEAR sends its window and then 512 zero bytes, in two transactions. -/
def Obligations.ClearSendsWindowAndZeros : Prop :=
  ∀ s, s.unhindered →
    ∃ t, exec .clear s = .next t ∧ t.result = .status .ok ∧ t.isIdle = true ∧ s.sameHost t ∧
      Sends s t [[0x00, 0x20, 0x00, 0x21, 0x00, 0x7F, 0x22, 0x00, 0x03], 0x40 :: List.replicate 512 0x00]

/-- R172: SETCONTRAST sends the contrast command and its operand. -/
def Obligations.SetContrastSendsItsCommand : Prop :=
  ∀ s level, s.unhindered →
    ∃ t, exec (.setContrast level) s = .next t ∧ t.result = .status .ok ∧ t.isIdle = true ∧ s.sameHost t ∧
      Sends s t [[0x00, 0x81, level]]

/-- R145, R168: a WRITEBYTES of `n` bytes is `4 + 37*(n+2) + 5` line events, `n + 2` samples and `9*(n+2)` clock pulses,
with one more release of the clock for STOP; inside its byte frames the data line is driven only while the clock is
held low. -/
def Obligations.WriteBytesCounts : Prop :=
  ∀ s (src : List Byte), s.unhindered → src.length < 65536 →
    ∃ t frames, exec (.writeBytes src) s = .next t ∧
      t.lineTrace = s.lineTrace ++ startFrame ++ frames ++ stopFrame ∧
      (startFrame ++ frames ++ stopFrame).length = 4 + 37 * (src.length + 2) + 5 ∧
      samples (startFrame ++ frames ++ stopFrame) = src.length + 2 ∧
      clockPulses (startFrame ++ frames ++ stopFrame) = 9 * (src.length + 2) ∧
      (startFrame ++ frames ++ stopFrame).count (.scl true) = 9 * (src.length + 2) + 1 ∧
      dataOnlyWhileClockLow true frames = true

/-- R143, R160, R203 to R220: a Protocol or Animation operation that answers leaves the block Idle, in every environment
and under every policy, unless it hangs. -/
def Obligations.OperationsEndIdleOrHang : Prop :=
  ∀ i s t, s.ready → exec i s = .next t →
    (i = .init ∨ (∃ p c, i = .setPageWindow p c) ∨ (∃ bs, i = .writeBytes bs) ∨ i = .clear ∨
      (∃ l, i = .setContrast l) ∨ (∃ x y w m o v, i = .marquee x y w m o v) ∨ (∃ x y w m o, i = .bungee x y w m o) ∨
      ∃ x y m p, i = .wobble x y m p) →
    (t.hung = false ∧ t.isIdle = true ∧ t.wire = .idle) ∨ (t.hung = true ∧ t.result = .none ∧ t.sclPull = false)

/-- R161, R162, R243: under policy `All` every Protocol and Animation operation, whatever the peer answers, is sent
whole with every byte acknowledged and ends OK, or stops after the first byte that is not: STOP, status NACK (INIT:
`acked = 0`), a renderer's state returned unchanged, and no further sub-operation. Where the environment withholds the
first acknowledge of a powered peer after all the bytes before it, exactly those are sent; to an unpowered peer the
address byte alone. -/
def Obligations.PolicyAllStopsAtTheFirstNack : Prop :=
  (∀ i s payloads, s.ready → s.flows → s.params.ackPolicy = .all → opPayloads s.params i = some payloads →
    ∃ t sent, exec i s = .next t ∧ t.lineTrace = s.lineTrace ++ sent.flatMap txnFrame ∧
      t.byteTrace = s.byteTrace ++ sent.flatMap txnBytes ∧
      ((EndsWith i s t .ok ∧ sent.map (List.map Prod.fst) = payloads.map (s.params.devAddr :: ·) ∧
          ∀ x ∈ sent.flatten, x.2 = true) ∨
        (EndsWith i s t .nack ∧ StopsAtNack s.params.devAddr payloads sent))) ∧
  (∀ i s payloads whole payload after begun b rest, s.ready → s.flows → s.powered → s.params.ackPolicy = .all →
    opPayloads s.params i = some payloads → payloads = whole ++ payload :: after →
    s.params.devAddr :: payload = begun ++ b :: rest →
    (∀ j < bytesBefore whole begun, s.env.acks[j]? = some true) →
    s.env.acks[bytesBefore whole begun]? = some false →
    ∃ t sent, exec i s = .next t ∧ EndsWith i s t .nack ∧
      sent = whole.map (fun p => (s.params.devAddr :: p).map fun c => (c, true)) ++
        [begun.map (fun c => (c, true)) ++ [(b, false)]] ∧
      t.lineTrace = s.lineTrace ++ sent.flatMap txnFrame ∧ t.byteTrace = s.byteTrace ++ sent.flatMap txnBytes) ∧
  ∀ i s payloads, s.ready → s.params.stretchLimit ≠ .bounded 0 → s.params.ackPolicy = .all →
    opPayloads s.params i = some payloads → s.env.powerNow.leaves s.peer.on = false →
    (∀ c ∈ s.env.power.tail, c ≠ .on) →
    ∃ t, exec i s = .next t ∧ EndsWith i s t .nack ∧
      t.lineTrace = s.lineTrace ++ txnFrame [(s.params.devAddr, false)] ∧
      t.byteTrace = s.byteTrace ++ [.start, .byte s.params.devAddr false, .stop]

/-! ### What the operations do to the reference peer (20_memory.md R70 to R80) -/

/-- R75 to R77, R65: SETPAGEWINDOW puts a hearing peer in page mode at (page, column) and changes nothing else it holds.
That a finite stretch of the clock changes nothing in this is the model's choice (entry 33). -/
def Obligations.SetPageWindowPointsThePeer : Prop :=
  ∀ s page column, s.ready → s.flows → s.hearing →
    ∃ t, exec (.setPageWindow page column) s = .next t ∧ t.hearing ∧
      t.peer.disp = { s.peer.disp with mode := some .pageMode, page := some page, col := some column, hi := none }

/-- R79, R57: WRITEBYTES to a hearing peer in page mode with the pointers known stores its bytes from (page, column) on
and nothing else, and the column steps by their number, if there is room in the page; past column 127, or with a pointer
or the mode unknown, nothing is known of the display afterwards (93_implementation_defined.md U17, §1). That a finite
stretch of the clock changes nothing in this is the model's choice (entry 33). That a write at column 127 in page mode
makes the column alone unknown is R79 and not U17 (entry 35). -/
def Obligations.WriteBytesStoresInThePage : Prop :=
  ∀ s (src : List Byte), s.ready → s.flows → s.hearing → src.length < 65536 →
    ∃ t, exec (.writeBytes src) s = .next t ∧
      (∀ pg (c : BitVec 7), s.peer.disp.mode = some .pageMode → s.peer.disp.page = some pg →
        s.peer.disp.col = some c →
        (c.toNat + src.length ≤ 128 → t.hearing ∧ s.peer.disp.stores t.peer.disp (dispAddr pg c) src ∧
          t.peer.disp = { s.peer.disp with
            ram := t.peer.disp.ram
            col := if c.toNat + src.length < 128 then some (BitVec.ofNat 7 (c.toNat + src.length)) else none }) ∧
        (128 < c.toNat + src.length → t.peer.disp = .unknown)) ∧
      (src ≠ [] → s.peer.disp.page = none ∨ s.peer.disp.col = none ∨ s.peer.disp.mode = none →
        t.peer.disp = .unknown)

/-- R170, R171: CLEAR of a hearing peer makes every byte of pages 0 to 3 zero and leaves pages 4 to 7 as they are; the
peer is then in range mode with the full window and its pointers unknown. That a finite stretch of the clock changes
nothing in this is the model's choice (entry 33). -/
def Obligations.ClearBlanksTheActivePages : Prop :=
  ∀ s, s.ready → s.flows → s.hearing →
    ∃ t, exec .clear s = .next t ∧ t.hearing ∧ s.peer.disp.stores t.peer.disp 0 (List.replicate 512 0x00) ∧
      t.peer.disp = { s.peer.disp with
        ram := t.peer.disp.ram, mode := some .rangeMode, c0 := some 0, c1 := some 127, g0 := some 0, g1 := some 3
        page := none, col := none }

/-- R80, R287: SETCONTRAST sets `P_CONTRAST` of a hearing peer and changes nothing else it holds; INIT gives it its
eleven configuration commands and contrast `0x7F`, writes no byte of the display and moves no pointer. R81: after it,
the orientation not flipped, the frame a viewer sees is the RAM of pages 0 to 3; with it flipped no frame is given (what
holds of other configurations is the model's choice, entry 32). That a finite stretch of the clock changes nothing in
this is the model's choice (entry 33). -/
def Obligations.ContrastAndInitConfigureThePeer : Prop :=
  ∀ s level, s.ready → s.flows → s.hearing →
    (∃ t, exec (.setContrast level) s = .next t ∧ t.hearing ∧
      t.peer.disp = { s.peer.disp with contrast := some level }) ∧
    ∃ t, exec .init s = .next t ∧ t.hearing ∧
      t.peer.disp = { s.peer.disp with
        contrast := some 0x7F
        cfg := s.peer.disp.cfg ++ [⟨0xA8, some 0x1F⟩, ⟨0xD3, some 0x00⟩, ⟨0x40, none⟩,
          ⟨if s.params.flipSeg then 0xA1 else 0xA0, none⟩, ⟨if s.params.flipCom then 0xC8 else 0xC0, none⟩,
          ⟨0xDA, some 0x02⟩, ⟨0xA4, none⟩, ⟨0xA6, none⟩, ⟨0xD5, some 0x80⟩, ⟨0x8D, some 0x14⟩, ⟨0xAF, none⟩] } ∧
      (s.params.flipSeg = false → s.params.flipCom = false → ∃ f, t.peer.disp.frame = some f ∧ f.length = 512 ∧
        ∀ (page : BitVec 3) (col : BitVec 7), page.toNat < 4 →
          f[dispAddr page col]? = some (s.peer.disp.byteAt page col)) ∧
      (s.params.flipSeg = true ∨ s.params.flipCom = true → t.peer.disp.frame = none)

/-! ### GlyphSource (42_glyph.md) -/

/-- R191, R190: GLYPHFOR returns the eight font bytes of the code's own glyph when the code is printable, of the fallback
glyph otherwise, in any bus phase, and changes nothing else. -/
def Obligations.GlyphForReturnsTheBitmap : Prop :=
  ∀ s (code : Byte), s.hung = false →
    exec (.glyphFor code) s = .next { s with
      result := .glyph ((List.range 8).map fun j => fontAt s.params
        (8 * (if 32 ≤ code.toNat ∧ code.toNat < 127 then code.toNat - 32 else s.params.fallbackIndex) + j)) }

/-! ### AnimationEngine (43_animation.md) -/

/-- R203, R202: MARQUEE addresses its page and column and sends, as column `k`, the message's pixel column at
`(OFFSET + k) mod 8*L`; it returns the advanced offset. -/
def Obligations.MarqueeSendsTheScrolledColumns : Prop :=
  ∀ s (x : BitVec 7) (y : BitVec 3) (width : Byte) (msg : List Byte) (offset : BitVec 16) (speed : Byte),
    s.unhindered → 1 ≤ width.toNat → x.toNat + width.toNat ≤ 128 → 1 ≤ msg.length → msg.length < 256 →
    offset.toNat < 8 * msg.length →
    ∃ t, exec (.marquee x y width msg offset speed) s = .next t ∧ t.isIdle = true ∧
      Sends s t [[0x00, 0x20, 0x02, 0xB0 ||| y.setWidth 8, 0x10 ||| (x >>> 4).setWidth 8, 0x00 ||| (x.setWidth 8 &&& 0x0F)],
        0x40 :: (List.range width.toNat).map fun k =>
          glyphByte s.params (msg.getD ((offset.toNat + k) % (8 * msg.length) / 8) 0)
            ((offset.toNat + k) % (8 * msg.length) % 8)] ∧
      t.result = .offset t.offset .ok ∧
      t.offset.toNat = (if msg.length ≤ (offset.toNat + speed.toNat) / 8 then (offset.toNat + speed.toNat) % 8
        else offset.toNat + speed.toNat) ∧
      t.params = s.params ∧ t.requests = s.requests ∧ t.phase = s.phase ∧ t.hung = false

/-- R210: BUNGEE addresses its page and column and sends, run after run, the message's pixel columns from `OFFSET` on,
each as often as its run says; it returns the offset advanced by 1. -/
def Obligations.BungeeSendsItsRuns : Prop :=
  ∀ s (x : BitVec 7) (y : BitVec 3) (width : Byte) (msg : List Byte) (offset : BitVec 16),
    s.unhindered → 1 ≤ width.toNat → x.toNat + width.toNat ≤ 128 → 1 ≤ msg.length → msg.length < 256 →
    offset.toNat < 8 * msg.length →
    ∃ t data, exec (.bungee x y width msg offset) s = .next t ∧ t.isIdle = true ∧
      data = ((bungeeRuns width.toNat).zipIdx.flatMap fun run => List.replicate run.1.2
        (glyphByte s.params (msg.getD ((offset.toNat + run.2) % (8 * msg.length) / 8) 0)
          ((offset.toNat + run.2) % (8 * msg.length) % 8))) ∧
      data.length = width.toNat ∧
      Sends s t [[0x00, 0x20, 0x02, 0xB0 ||| y.setWidth 8, 0x10 ||| (x >>> 4).setWidth 8, 0x00 ||| (x.setWidth 8 &&& 0x0F)],
        0x40 :: data] ∧
      t.result = .offset t.offset .ok ∧ t.offset.toNat = (offset.toNat + 1) % (8 * msg.length) ∧
      t.params = s.params ∧ t.requests = s.requests ∧ t.phase = s.phase ∧ t.hung = false

/-- R212, R210: for every width at least 2, the first factor is 1, no factor is below 1, every run is as long as its
factor but for the cut of the last, the runs fill the window, and from one run to the next the factor grows by 1 while
the columns still to be filled exceed `width / 2` and then falls by 1 down to 1. -/
def Obligations.BungeeFactorsRiseThenFall : Prop :=
  ∀ width, 2 ≤ width →
    (bungeeRuns width).head? = some (1, 1) ∧ ((bungeeRuns width).map Prod.snd).sum = width ∧
    (∀ run ∈ bungeeRuns width, 1 ≤ run.1 ∧ 1 ≤ run.2 ∧ run.2 ≤ run.1) ∧
    ∀ pre f r g q post, bungeeRuns width = pre ++ (f, r) :: (g, q) :: post →
      r = f ∧ q = min g (width - ((pre ++ [(f, r)]).map Prod.snd).sum) ∧
      (width / 2 < width - ((pre ++ [(f, r)]).map Prod.snd).sum → g = f + 1) ∧
      (width - ((pre ++ [(f, r)]).map Prod.snd).sum ≤ width / 2 → g = max 1 (f - 1))

/-- R220: WOBBLE sends the message's columns moved down by `COS[(PHASE + n) mod 64]`, the upper page's part and then the
lower page's, each after its own addressing; it returns `(PHASE + 1) mod 256`. -/
def Obligations.WobbleSendsBothPages : Prop :=
  ∀ s (x : BitVec 7) (y : BitVec 3) (msg : List Byte) (phase : Byte),
    s.unhindered → 1 ≤ msg.length → x.toNat + 8 * msg.length ≤ 128 → y ≠ 7 →
    ∃ t, exec (.wobble x y msg phase) s = .next t ∧ t.isIdle = true ∧
      Sends s t [[0x00, 0x20, 0x02, 0xB0 ||| y.setWidth 8, 0x10 ||| (x >>> 4).setWidth 8, 0x00 ||| (x.setWidth 8 &&& 0x0F)],
        0x40 :: (List.range (8 * msg.length)).map (fun n =>
          glyphByte s.params (msg.getD (n / 8) 0) (n % 8) <<< cosAt s.params ((phase.toNat + n) % 64)),
        [0x00, 0x20, 0x02, 0xB0 ||| (y + 1).setWidth 8, 0x10 ||| (x >>> 4).setWidth 8, 0x00 ||| (x.setWidth 8 &&& 0x0F)],
        0x40 :: (List.range (8 * msg.length)).map (fun n =>
          glyphByte s.params (msg.getD (n / 8) 0) (n % 8) >>> (8 - cosAt s.params ((phase.toNat + n) % 64)))] ∧
      t.result = .phase t.phase .ok ∧ t.phase.toNat = (phase.toNat + 1) % 256 ∧
      t.params = s.params ∧ t.requests = s.requests ∧ t.offset = s.offset ∧ t.hung = false

/-- R221: the two pieces of a column never overlap and lose no pixel: together they are the column moved down by the
shift. -/
def Obligations.WobblePiecesLoseNoPixel : Prop :=
  ∀ (p : Params) (phase g : Byte) (n : Nat),
    wobbleShift p phase n ≤ 8 ∧
    (upperByte g (wobbleShift p phase n)).toNat + 256 * (lowerByte g (wobbleShift p phase n)).toNat =
      g.toNat * 2 ^ wobbleShift p phase n

/-- R223: only `PHASE mod 64` affects what WOBBLE sends. -/
def Obligations.WobblePhaseCountsModulo64 : Prop :=
  ∀ (p : Params) (msg : List Byte) (a b : Byte), a.toNat % 64 = b.toNat % 64 →
    wobbleUpper p msg a = wobbleUpper p msg b ∧ wobbleLower p msg a = wobbleLower p msg b

/-- R202: from a legal offset the advanced offset is legal again, and for a step of at most 8 it is
`(off + step) mod 8*L`. -/
def Obligations.AdvanceWraps : Prop :=
  ∀ (off : BitVec 16) (step : Byte) (msg : List Byte), off.toNat < 8 * msg.length → msg.length < 256 →
    (advance off step.toNat msg).toNat < 8 * msg.length ∧
    (step.toNat ≤ 8 → (advance off step.toNat msg).toNat = (off.toNat + step.toNat) % (8 * msg.length))

/-- R203, R210, R79: MARQUEE and BUNGEE store what they send at columns `x` to `x + width - 1` of page `y` of a hearing
peer, and every other byte of the display reads as before. That a finite stretch of the clock changes nothing in this is
the model's choice (entry 33). That a write at column 127 in page mode makes the column alone unknown is R79 and not U17
(entry 35). -/
def Obligations.MarqueesStoreInTheirWindow : Prop :=
  ∀ s (x : BitVec 7) (y : BitVec 3) (width : Byte) (msg : List Byte) (offset : BitVec 16) (speed : Byte),
    s.ready → s.flows → s.hearing → 1 ≤ width.toNat → x.toNat + width.toNat ≤ 128 → 1 ≤ msg.length →
    msg.length < 256 → offset.toNat < 8 * msg.length →
    (∃ t, exec (.marquee x y width msg offset speed) s = .next t ∧
      s.peer.disp.stores t.peer.disp (dispAddr y x) (marqueeData s.params msg width.toNat offset.toNat)) ∧
    ∃ t, exec (.bungee x y width msg offset) s = .next t ∧
      s.peer.disp.stores t.peer.disp (dispAddr y x) (bungeeData s.params msg width.toNat offset.toNat)

/-- R220, R79: WOBBLE stores the upper pieces in page `y` and the lower ones in page `y + 1` of a hearing peer, at
columns `x` to `x + 8*L - 1`, and every other byte of the display reads as before. That a finite stretch of the clock
changes nothing in this is the model's choice (entry 33). That a write at column 127 in page mode makes the column alone
unknown is R79 and not U17 (entry 35). -/
def Obligations.WobbleStoresInTwoPages : Prop :=
  ∀ s (x : BitVec 7) (y : BitVec 3) (msg : List Byte) (phase : Byte),
    s.ready → s.flows → s.hearing → 1 ≤ msg.length → x.toNat + 8 * msg.length ≤ 128 → y ≠ 7 →
    ∃ t d, exec (.wobble x y msg phase) s = .next t ∧
      s.peer.disp.stores d (dispAddr y x) (wobbleUpper s.params msg phase) ∧
      d.stores t.peer.disp (dispAddr (y + 1) x) (wobbleLower s.params msg phase)

/-- R224: what MARQUEE sends and returns depends on its operands and the parameters alone: two blocks with the same
parameters, whatever their peers answer, send the same payloads and return the same offset. -/
def Obligations.MarqueeIgnoresThePeersAnswers : Prop :=
  ∀ s u (x : BitVec 7) (y : BitVec 3) (width : Byte) (msg : List Byte) (offset : BitVec 16) (speed : Byte),
    s.ready → s.flows → s.params.ackPolicy ≠ .all → u.ready → u.flows → u.params = s.params →
    marqueeProblem x width msg offset = none →
    ∃ t v ps, exec (.marquee x y width msg offset speed) s = .next t ∧
      exec (.marquee x y width msg offset speed) u = .next v ∧ t.result = v.result ∧ t.offset = v.offset ∧
      Sends s t ps ∧ Sends u v ps

/-! ### Wire items (30_encoding.md R94 to R100) -/

/-- R94, R137: ADDR_BYTE opens a transaction with `0x78`, or `0x7A` with the sub-address bit, as START does (wire items
as requests are the model's, entry 3). -/
def Obligations.AddressItemOpensTheTransaction : Prop :=
  ∀ s sub, s.ready → s.flows →
    ∃ t k, exec (.addrByte sub) s = .next t ∧ t.result = .acked k ∧ t.ack = k ∧ t.readyOpen ∧ t.wire = .control ∧
      t.lineTrace = s.lineTrace ++ startFrame ++ byteFrame (if sub = 1 then 0x7A else 0x78) k ∧
      t.byteTrace = s.byteTrace ++ [.start, .byte (if sub = 1 then 0x7A else 0x78) k] ∧ s.sameHost t

/-- R95, R96: a framing byte, first in the payload, decides how the rest of the transaction is read (wire items as
requests are the model's, entry 3). -/
def Obligations.FramingItemsDecideTheRest : Prop :=
  ∀ s, s.readyOpen → s.flows → s.wire = .control →
    ItemSends .ctrlCommands s [0x00] (.command false) ∧ ItemSends .ctrlData s [0x40] .data

/-- R97, R98, R100: the one-byte commands in command position, their fields OR'd into their bases; the wire stays in
command position, and remembers an upper nibble (wire items as requests are the model's, entry 3). -/
def Obligations.OneByteCommandItems : Prop :=
  ∀ s (f : BitVec 1) (page hi : BitVec 3) (lo : BitVec 4), s.readyOpen → s.flows → s.wire.isCommand = true →
    ItemSends .cmdStartLine s [0x40] (.command false) ∧
    ItemSends (.cmdSegmentRemap f) s [if f = 1 then 0xA1 else 0xA0] (.command false) ∧
    ItemSends (.cmdComScanDir f) s [if f = 1 then 0xC8 else 0xC0] (.command false) ∧
    ItemSends (.cmdEntireDisplayOn f) s [if f = 1 then 0xA5 else 0xA4] (.command false) ∧
    ItemSends (.cmdNormalInverted f) s [if f = 1 then 0xA7 else 0xA6] (.command false) ∧
    ItemSends (.cmdDisplayOnOff f) s [if f = 1 then 0xAF else 0xAE] (.command false) ∧
    ItemSends (.cmdPageStart page) s [0xB0 ||| page.setWidth 8] (.command false) ∧
    ItemSends (.cmdColumnUpper hi) s [0x10 ||| hi.setWidth 8] (.command true) ∧
    ItemSends (.cmdColumnLower lo) s [0x00 ||| lo.setWidth 8] (.command false)

/-- R97, R100: the commands with operand bytes in command position: the command byte, then its operands as they are (wire
items as requests are the model's, entry 3). -/
def Obligations.CommandItemsWithOperands : Prop :=
  ∀ s v w, s.readyOpen → s.flows → s.wire.isCommand = true →
    ItemSends (.cmdMuxRatio v) s [0xA8, v] (.command false) ∧
    ItemSends (.cmdDisplayOffset v) s [0xD3, v] (.command false) ∧
    ItemSends (.cmdComPins v) s [0xDA, v] (.command false) ∧
    ItemSends (.cmdContrast v) s [0x81, v] (.command false) ∧
    ItemSends (.cmdOscFreq v) s [0xD5, v] (.command false) ∧
    ItemSends (.cmdChargePump v) s [0x8D, v] (.command false) ∧
    ItemSends (.cmdAddressingMode v) s [0x20, v] (.command false) ∧
    ItemSends (.cmdColumnRange v w) s [0x21, v, w] (.command false) ∧
    ItemSends (.cmdPageRange v w) s [0x22, v, w] (.command false)

/-- R75, R76, R78, R80: what the pointer, mode and contrast commands do to a listening peer; none writes the RAM (R65).
That a mode operand other than `0x02` and `0x00` makes `P_MODE` alone unknown is R75 and not U18 (entry 35). A range
bound that is no column or no page has no meaning (entry 18). That a finite stretch of the clock changes nothing in this
is the model's choice (entry 33). -/
def Obligations.CommandItemsSetThePeer : Prop :=
  ∀ s (v w : Byte) (page : BitVec 3), s.readyOpen → s.flows → s.listening → s.wire.isCommand = true →
    (∃ t, exec (.cmdContrast v) s = .next t ∧ t.peer.disp = { s.peer.disp with contrast := some v }) ∧
    (∃ t, exec (.cmdAddressingMode v) s = .next t ∧ t.peer.disp = { s.peer.disp with
      mode := if v = 0x02 then some .pageMode else if v = 0x00 then some .rangeMode else none }) ∧
    (∃ t, exec (.cmdPageStart page) s = .next t ∧ t.peer.disp = { s.peer.disp with page := some page }) ∧
    (∃ t, exec (.cmdColumnRange v w) s = .next t ∧ t.peer.disp =
      if v.toNat < 128 ∧ w.toNat < 128 then { s.peer.disp with
        c0 := some (v.setWidth 7), c1 := some (w.setWidth 7), col := some (v.setWidth 7) }
      else .unknown) ∧
    ∃ t, exec (.cmdPageRange v w) s = .next t ∧ t.peer.disp =
      if v.toNat < 8 ∧ w.toNat < 8 then { s.peer.disp with
        g0 := some (v.setWidth 3), g1 := some (w.setWidth 3), page := some (v.setWidth 3) }
      else .unknown

/-- R80: the configuration commands are appended to `P_CFG` of a listening peer, and change nothing else it holds. The
bytes `0xA5` and `0xA7` are none of its commands (R74, R82), so nothing is known of it after them (entry 19). That a
finite stretch of the clock changes nothing in this is the model's choice (entry 33). -/
def Obligations.ConfigurationItemsAreListed : Prop :=
  ∀ s v (f : BitVec 1), s.readyOpen → s.flows → s.listening → s.wire.isCommand = true →
    (∃ t, exec (.cmdMuxRatio v) s = .next t ∧ t.peer.disp = s.peer.disp.configure 0xA8 (some v)) ∧
    (∃ t, exec (.cmdDisplayOffset v) s = .next t ∧ t.peer.disp = s.peer.disp.configure 0xD3 (some v)) ∧
    (∃ t, exec (.cmdComPins v) s = .next t ∧ t.peer.disp = s.peer.disp.configure 0xDA (some v)) ∧
    (∃ t, exec (.cmdOscFreq v) s = .next t ∧ t.peer.disp = s.peer.disp.configure 0xD5 (some v)) ∧
    (∃ t, exec (.cmdChargePump v) s = .next t ∧ t.peer.disp = s.peer.disp.configure 0x8D (some v)) ∧
    (∃ t, exec .cmdStartLine s = .next t ∧ t.peer.disp = s.peer.disp.configure 0x40 none) ∧
    (∃ t, exec (.cmdSegmentRemap f) s = .next t ∧
      t.peer.disp = s.peer.disp.configure (if f = 1 then 0xA1 else 0xA0) none) ∧
    (∃ t, exec (.cmdComScanDir f) s = .next t ∧
      t.peer.disp = s.peer.disp.configure (if f = 1 then 0xC8 else 0xC0) none) ∧
    (∃ t, exec (.cmdDisplayOnOff f) s = .next t ∧
      t.peer.disp = s.peer.disp.configure (if f = 1 then 0xAF else 0xAE) none) ∧
    (∃ t, exec (.cmdEntireDisplayOn f) s = .next t ∧
      t.peer.disp = if f = 0 then s.peer.disp.configure 0xA4 none else .unknown) ∧
    ∃ t, exec (.cmdNormalInverted f) s = .next t ∧
      t.peer.disp = if f = 0 then s.peer.disp.configure 0xA6 none else .unknown

/-- R77, R290: the upper nibble leaves the column unknown and pending; a lower nibble right after it makes the column
whole; a lower nibble alone zeros the upper one. So the order lower, upper ends with the column unknown. That a finite
stretch of the clock changes nothing in this is the model's choice (entry 33). -/
def Obligations.NibbleOrderDecidesTheColumn : Prop :=
  ∀ s (hi : BitVec 3) (lo : BitVec 4), s.readyOpen → s.flows → s.listening →
    (∀ u, s.wire = .command u → ∃ t, exec (.cmdColumnUpper hi) s = .next t ∧ t.wire = .command true ∧
      t.peer.disp = { s.peer.disp with hi := some hi, col := none }) ∧
    (s.wire = .command true → s.peer.disp.hi = some hi → ∃ t, exec (.cmdColumnLower lo) s = .next t ∧
      t.wire = .command false ∧ ∃ c, t.peer.disp = { s.peer.disp with hi := none, col := some c } ∧
        c.toNat = 16 * hi.toNat + lo.toNat) ∧
    (s.wire = .command false → ∃ t, exec (.cmdColumnLower lo) s = .next t ∧ t.wire = .command false ∧
      ∃ c, t.peer.disp = { s.peer.disp with col := some c } ∧ c.toNat = lo.toNat)

/-! ### The whole machine -/

/-- R9, R29, R30, R34: no instruction's meaning writes the parameters or the host's requests (the step takes a request's
bytes off that list before, O4); `OFFSET` is written by MARQUEE and BUNGEE alone, `PHASE` by WOBBLE alone. That State
keeps these two at all, the values last returned, is the model's choice (entry 21). -/
def Obligations.OnlyRenderersWriteTheAnimationState : Prop :=
  ∀ i s t, exec i s = .next t →
    t.params = s.params ∧ t.requests = s.requests ∧
    (t.offset = s.offset ∨ (∃ x y w m o v, i = .marquee x y w m o v) ∨ ∃ x y w m o, i = .bungee x y w m o) ∧
    (t.phase = s.phase ∨ ∃ x y m p, i = .wobble x y m p)

/-- R69: line events and bytes happen in program order: an operation only adds to the traces, after all that was there
before it. -/
def Obligations.OperationsOnlyAddToTheTraces : Prop :=
  ∀ i s t, exec i s = .next t →
    (∃ es, t.lineTrace = s.lineTrace ++ es) ∧ ∃ bs, t.byteTrace = s.byteTrace ++ bs

/-- R57, R65: of the operations only WRITEBYTES, CLEAR, the renderers and SENDBYTE can store to the display; any other
leaves every byte of it as it was, or unknown. That a finite stretch of the clock changes nothing in this is the model's
choice (entry 33). -/
def Obligations.OnlyDataOperationsStore : Prop :=
  ∀ i s t, exec i s = .next t →
    (∀ bs, i ≠ .writeBytes bs) → i ≠ .clear → (∀ b, i ≠ .sendByte b) → (∀ x y w m o v, i ≠ .marquee x y w m o v) →
    (∀ x y w m o, i ≠ .bungee x y w m o) → (∀ x y m p, i ≠ .wobble x y m p) →
    ∀ a, Memory.read t.peer.disp.ram a = Memory.read s.peer.disp.ram a ∨ Memory.read t.peer.disp.ram a = none

/-- R245, R249: a block inside a wait that never ends stays as it is at every step and accepts no request (the mark
`hung` is the model's, entry 13). -/
def Obligations.HungBlockStaysAndAcceptsNothing : Prop :=
  ∀ s, s.hung = true → step s = .next s ∧ ∀ i, ∃ r, exec i s = .refused r

/-! ### Where the peer is not the reference peer, or its power comes or goes (20_memory.md R71; 40_bus.md R138, R142;
70_reset_and_hazards.md R298) -/

/-- What the environment's choices do to the peer. R71: an unpowered peer comes on with everything unknown, when is the
environment's choice, as a transaction begins (entry 9), and without power it answers nothing and holds no line (R33,
R72). R298, R251: a peer that loses power, or is reset, keeps nothing known (entry 34), and every Protocol and Animation
operation whose acknowledges are not checked goes on to peers without power: every byte sent, none acknowledged, status
OK and the state advanced, while the peer holds nothing and shows no frame. For a powered peer the rest is the model's
choice of no meaning, 93 §1 as the entries read it: nothing is known of the peer, and it is out of step, after a START
during whose beginning it holds a line low (R138, entry 31), after a STOP at which it holds the clock low (R142, U2,
entry 17) and after an acknowledge that is not the reference peer's (U14, entry 15), and so it stays through further
bytes (entry 14). The block's own trace, result and phase are as ever. That a finite stretch of the clock changes
nothing in this is the model's choice (entry 33). -/
def Obligations.PeerOutsideTheReference : Prop :=
  (∀ s (a : Byte) on, s.ready → s.flows → a.getLsbD 0 = false → on = s.env.powerNow.leaves s.peer.on →
    (on = true → s.env.acks = [] ∧ s.env.startHeld = []) →
    ∃ t, exec (.start a) s = .next t ∧ t.result = .acked (on && (a == s.params.devAddr)) ∧ t.peer.on = on ∧
      t.peer.addressed = (on && (a == s.params.devAddr)) ∧ t.env.power = s.env.power.tail ∧
      if (s.env.powerNow = .on ∧ s.peer.on = false) ∨ s.env.powerNow = .off ∨ (s.env.powerNow = .reset ∧ s.peer.on = true)
      then t.peer.synced = true ∧ t.peer.disp = .unknown
      else t.peer.synced = s.peer.synced ∧ t.peer.disp = s.peer.disp) ∧
  (∀ i s payloads, s.ready → s.params.stretchLimit ≠ .bounded 0 → opPayloads s.params i = some payloads →
    opChecks s.params.ackPolicy i = false → s.peer.wf → s.env.powerNow.leaves s.peer.on = false →
    (∀ c ∈ s.env.power.tail, c ≠ .on) →
    ∃ t, exec i s = .next t ∧ EndsWith i s t .ok ∧
      t.lineTrace = s.lineTrace ++ payloads.flatMap (fun p => txnFrame ((s.params.devAddr :: p).map fun b => (b, false))) ∧
      t.byteTrace = s.byteTrace ++ payloads.flatMap (fun p => txnBytes ((s.params.devAddr :: p).map fun b => (b, false))) ∧
      t.peer.on = false ∧ t.peer.disp = .unknown ∧ t.peer.disp.frame = none) ∧
  (∀ s (a : Byte), s.ready → s.flows → a.getLsbD 0 = false → s.env.powerNow.leaves s.peer.on = true →
    s.env.startHeld.head? = some true →
    ∃ t k, exec (.start a) s = .next t ∧ t.result = .acked k ∧ t.readyOpen ∧ t.wire = .control ∧
      t.lineTrace = s.lineTrace ++ startFrame ++ byteFrame a k ∧ t.peer.synced = false ∧ t.peer.disp = .unknown) ∧
  (∀ s, s.readyOpen → s.peer.on = true → s.env.stopHeld.head? = some true →
    ∃ t, exec .stop s = .next t ∧ t.result = .none ∧ t.ready ∧ t.wire = .idle ∧
      t.lineTrace = s.lineTrace ++ stopFrame ∧ t.peer.synced = false ∧ t.peer.disp = .unknown) ∧
  (∀ s (a : Byte) x, s.ready → s.flows → a.getLsbD 0 = false → s.env.powerNow.leaves s.peer.on = true →
    s.env.acks.head? = some x → x ≠ (a == s.params.devAddr) →
    ∃ t, exec (.start a) s = .next t ∧ t.result = .acked x ∧ t.readyOpen ∧ t.peer.addressed = x ∧
      t.peer.synced = false ∧ t.peer.disp = .unknown) ∧
  (∀ s (b : Byte) x, s.readyOpen → s.flows → s.wire ≠ .address → s.peer.on = true → s.env.acks.head? = some x →
    x ≠ s.peer.addressed →
    ∃ t, exec (.sendByte b) s = .next t ∧ t.result = .acked x ∧ t.readyOpen ∧ t.wire = s.wire.next b ∧
      t.peer.synced = false ∧ t.peer.disp = .unknown) ∧
  ∀ s (b : Byte), s.readyOpen → s.flows → s.peer.synced = false → s.peer.disp = .unknown →
    ∃ t, exec (.sendByte b) s = .next t ∧ t.peer.synced = false ∧ t.peer.disp = .unknown
end

