-- ==== Sys2Proof/Laws/Memory.lean ====
section
/-! SUPPORT. The display RAM: read after write, and the canonical form that every write keeps. -/

namespace Sys2Proof.Machine

/-- A read at the written address gives the byte written. -/
@[simp] theorem Memory.read_write_same (m : List Host.Cell) (a : Nat) (v : Byte) :
    Memory.read (Memory.write m a v) a = some v := by
  induction m with
  | nil => simp [Memory.write, Memory.read]
  | cons c m ih =>
    simp only [Memory.write]
    split
    · simp [Memory.read, ih, show c.1 ≠ a by omega]
    · split <;> simp [Memory.read]

/-- A read at any other address is unchanged. -/
theorem Memory.read_write_other (m : List Host.Cell) (a x : Nat) (v : Byte) (h : x ≠ a) :
    Memory.read (Memory.write m a v) x = Memory.read m x := by
  induction m with
  | nil => simp [Memory.write, Memory.read, h.symm]
  | cons c m ih =>
    simp only [Memory.write]
    split
    · simp [Memory.read, ih]
    · split
      · simp [Memory.read, h.symm, show c.1 ≠ x by omega]
      · simp [Memory.read, h.symm]

/-- The canonical form, said of a list with a head. -/
theorem Memory.wf_cons (c : Host.Cell) (m : List Host.Cell) :
    Memory.wf (c :: m) = true ↔ (∀ d, m.head? = some d → c.1 < d.1) ∧ Memory.wf m = true := by
  cases m with
  | nil => simp [Memory.wf]
  | cons d m => simp [Memory.wf]

/-- The first cell after a write: the old first one or the new one. -/
theorem Memory.head_write (m : List Host.Cell) (a : Nat) (v : Byte) (d : Host.Cell)
    (h : (Memory.write m a v).head? = some d) : m.head? = some d ∨ d.1 = a := by
  cases m with
  | nil => simp [Memory.write] at h; exact .inr (by rw [← h])
  | cons c m =>
    simp only [Memory.write] at h
    split at h
    · exact .inl (by simpa using h)
    · split at h <;> simp at h <;> exact .inr (by rw [← h])

/-- A write keeps the canonical form. -/
theorem Memory.write_wf (m : List Host.Cell) (a : Nat) (v : Byte) (h : Memory.wf m = true) :
    Memory.wf (Memory.write m a v) = true := by
  induction m with
  | nil => simp [Memory.write, Memory.wf]
  | cons c m ih =>
    obtain ⟨h1, h2⟩ := (Memory.wf_cons c m).mp h
    simp only [Memory.write]
    split
    · rename_i hlt
      refine (Memory.wf_cons _ _).mpr ⟨fun d hd => ?_, ih h2⟩
      rcases Memory.head_write m a v d hd with hd' | hd'
      · exact h1 d hd'
      · omega
    · split
      · rename_i heq
        exact (Memory.wf_cons _ _).mpr ⟨fun d hd => by have := h1 d hd; simp only; omega, h2⟩
      · rename_i hne hlt
        refine (Memory.wf_cons _ _).mpr ⟨fun d hd => ?_, h⟩
        simp only [List.head?_cons, Option.some.injEq] at hd
        subst hd
        simp only
        omega

/-- A write lists no address but the old ones and its own. -/
theorem Memory.mem_write (m : List Host.Cell) (a : Nat) (v : Byte) (c : Host.Cell)
    (h : c ∈ Memory.write m a v) : c ∈ m ∨ c.1 = a := by
  induction m with
  | nil => simp [Memory.write] at h; exact .inr (by rw [h])
  | cons d m ih =>
    simp only [Memory.write] at h
    split at h
    · rcases List.mem_cons.mp h with rfl | h'
      · exact .inl (by simp)
      · exact (ih h').imp (List.mem_cons_of_mem _) id
    · split at h <;> simp only [List.mem_cons] at h ⊢ <;> rcases h with h | h <;> simp_all

/-- An address below the first one listed is unknown. -/
theorem Memory.read_none_of_lt (m : List Host.Cell) (a : Nat) (hw : Memory.wf m = true)
    (h : ∀ d, m.head? = some d → a < d.1) : Memory.read m a = none := by
  induction m with
  | nil => rfl
  | cons c m ih =>
    obtain ⟨h1, h2⟩ := (Memory.wf_cons c m).mp hw
    have hc : a < c.1 := h c rfl
    simp only [Memory.read, if_neg (show ¬c.1 = a by omega)]
    exact ih h2 fun d hd => by have := h1 d hd; omega

end Sys2Proof.Machine
end

