-- ==== Sys2Proof/Laws/State.lean ====
section
/-! SUPPORT. One lemma per field and update of `State`, true by definition, so that no later proof unfolds a record
update. -/

namespace Sys2Proof.Machine

variable (s : State)

/-! ### `pullScl` -/

@[simp] theorem pullScl_params : (pullScl s).params = s.params := rfl
@[simp] theorem pullScl_requests : (pullScl s).requests = s.requests := rfl
@[simp] theorem pullScl_hung : (pullScl s).hung = s.hung := rfl
@[simp] theorem pullScl_sclPull : (pullScl s).sclPull = true := rfl
@[simp] theorem pullScl_sdaPull : (pullScl s).sdaPull = s.sdaPull := rfl
@[simp] theorem pullScl_ack : (pullScl s).ack = s.ack := rfl
@[simp] theorem pullScl_wire : (pullScl s).wire = s.wire := rfl
@[simp] theorem pullScl_result : (pullScl s).result = s.result := rfl
@[simp] theorem pullScl_offset : (pullScl s).offset = s.offset := rfl
@[simp] theorem pullScl_phase : (pullScl s).phase = s.phase := rfl
@[simp] theorem pullScl_peer : (pullScl s).peer = s.peer := rfl
@[simp] theorem pullScl_env : (pullScl s).env = s.env := rfl
@[simp] theorem pullScl_line : (pullScl s).line = .scl false :: s.line := rfl
@[simp] theorem pullScl_bytes : (pullScl s).bytes = s.bytes := rfl

/-! ### `releaseScl` -/

@[simp] theorem releaseScl_params : (releaseScl s).params = s.params := rfl
@[simp] theorem releaseScl_requests : (releaseScl s).requests = s.requests := rfl
@[simp] theorem releaseScl_hung : (releaseScl s).hung = s.hung := rfl
@[simp] theorem releaseScl_sclPull : (releaseScl s).sclPull = false := rfl
@[simp] theorem releaseScl_sdaPull : (releaseScl s).sdaPull = s.sdaPull := rfl
@[simp] theorem releaseScl_ack : (releaseScl s).ack = s.ack := rfl
@[simp] theorem releaseScl_wire : (releaseScl s).wire = s.wire := rfl
@[simp] theorem releaseScl_result : (releaseScl s).result = s.result := rfl
@[simp] theorem releaseScl_offset : (releaseScl s).offset = s.offset := rfl
@[simp] theorem releaseScl_phase : (releaseScl s).phase = s.phase := rfl
@[simp] theorem releaseScl_peer : (releaseScl s).peer = s.peer := rfl
@[simp] theorem releaseScl_env : (releaseScl s).env = s.env := rfl
@[simp] theorem releaseScl_line : (releaseScl s).line = .scl true :: s.line := rfl
@[simp] theorem releaseScl_bytes : (releaseScl s).bytes = s.bytes := rfl

/-! ### `driveSda` -/

@[simp] theorem driveSda_params (up : Bool) : (driveSda up s).params = s.params := rfl
@[simp] theorem driveSda_requests (up : Bool) : (driveSda up s).requests = s.requests := rfl
@[simp] theorem driveSda_hung (up : Bool) : (driveSda up s).hung = s.hung := rfl
@[simp] theorem driveSda_sclPull (up : Bool) : (driveSda up s).sclPull = s.sclPull := rfl
@[simp] theorem driveSda_sdaPull (up : Bool) : (driveSda up s).sdaPull = !up := rfl
@[simp] theorem driveSda_ack (up : Bool) : (driveSda up s).ack = s.ack := rfl
@[simp] theorem driveSda_wire (up : Bool) : (driveSda up s).wire = s.wire := rfl
@[simp] theorem driveSda_result (up : Bool) : (driveSda up s).result = s.result := rfl
@[simp] theorem driveSda_offset (up : Bool) : (driveSda up s).offset = s.offset := rfl
@[simp] theorem driveSda_phase (up : Bool) : (driveSda up s).phase = s.phase := rfl
@[simp] theorem driveSda_peer (up : Bool) : (driveSda up s).peer = s.peer := rfl
@[simp] theorem driveSda_env (up : Bool) : (driveSda up s).env = s.env := rfl
@[simp] theorem driveSda_line (up : Bool) : (driveSda up s).line = .sda up :: s.line := rfl
@[simp] theorem driveSda_bytes (up : Bool) : (driveSda up s).bytes = s.bytes := rfl

/-! ### `holdLine` -/

@[simp] theorem holdLine_params (h : Hold) : (holdLine h s).params = s.params := rfl
@[simp] theorem holdLine_requests (h : Hold) : (holdLine h s).requests = s.requests := rfl
@[simp] theorem holdLine_hung (h : Hold) : (holdLine h s).hung = s.hung := rfl
@[simp] theorem holdLine_sclPull (h : Hold) : (holdLine h s).sclPull = s.sclPull := rfl
@[simp] theorem holdLine_sdaPull (h : Hold) : (holdLine h s).sdaPull = s.sdaPull := rfl
@[simp] theorem holdLine_ack (h : Hold) : (holdLine h s).ack = s.ack := rfl
@[simp] theorem holdLine_wire (h : Hold) : (holdLine h s).wire = s.wire := rfl
@[simp] theorem holdLine_result (h : Hold) : (holdLine h s).result = s.result := rfl
@[simp] theorem holdLine_offset (h : Hold) : (holdLine h s).offset = s.offset := rfl
@[simp] theorem holdLine_phase (h : Hold) : (holdLine h s).phase = s.phase := rfl
@[simp] theorem holdLine_peer (h : Hold) : (holdLine h s).peer = s.peer := rfl
@[simp] theorem holdLine_env (h : Hold) : (holdLine h s).env = s.env := rfl
@[simp] theorem holdLine_line (h : Hold) : (holdLine h s).line = .hold h :: s.line := rfl
@[simp] theorem holdLine_bytes (h : Hold) : (holdLine h s).bytes = s.bytes := rfl

/-! ### `sampleAck` -/

@[simp] theorem sampleAck_params (p : Bool) : (sampleAck p s).params = s.params := rfl
@[simp] theorem sampleAck_requests (p : Bool) : (sampleAck p s).requests = s.requests := rfl
@[simp] theorem sampleAck_hung (p : Bool) : (sampleAck p s).hung = s.hung := rfl
@[simp] theorem sampleAck_sclPull (p : Bool) : (sampleAck p s).sclPull = s.sclPull := rfl
@[simp] theorem sampleAck_sdaPull (p : Bool) : (sampleAck p s).sdaPull = s.sdaPull := rfl
@[simp] theorem sampleAck_ack (p : Bool) : (sampleAck p s).ack = ackOf (lineHigh s.sdaPull p) := rfl
@[simp] theorem sampleAck_wire (p : Bool) : (sampleAck p s).wire = s.wire := rfl
@[simp] theorem sampleAck_result (p : Bool) : (sampleAck p s).result = s.result := rfl
@[simp] theorem sampleAck_offset (p : Bool) : (sampleAck p s).offset = s.offset := rfl
@[simp] theorem sampleAck_phase (p : Bool) : (sampleAck p s).phase = s.phase := rfl
@[simp] theorem sampleAck_peer (p : Bool) : (sampleAck p s).peer = s.peer := rfl
@[simp] theorem sampleAck_env (p : Bool) : (sampleAck p s).env = s.env := rfl
@[simp] theorem sampleAck_line (p : Bool) : (sampleAck p s).line = .sample (lineHigh s.sdaPull p) :: s.line := rfl
@[simp] theorem sampleAck_bytes (p : Bool) : (sampleAck p s).bytes = s.bytes := rfl

/-! ### `deliver` -/

@[simp] theorem deliver_params (b : Byte) : (deliver b s).params = s.params := rfl
@[simp] theorem deliver_requests (b : Byte) : (deliver b s).requests = s.requests := rfl
@[simp] theorem deliver_hung (b : Byte) : (deliver b s).hung = s.hung := rfl
@[simp] theorem deliver_sclPull (b : Byte) : (deliver b s).sclPull = s.sclPull := rfl
@[simp] theorem deliver_sdaPull (b : Byte) : (deliver b s).sdaPull = s.sdaPull := rfl
@[simp] theorem deliver_ack (b : Byte) : (deliver b s).ack = s.ack := rfl
@[simp] theorem deliver_wire (b : Byte) : (deliver b s).wire = s.wire.next b := rfl
@[simp] theorem deliver_result (b : Byte) : (deliver b s).result = s.result := rfl
@[simp] theorem deliver_offset (b : Byte) : (deliver b s).offset = s.offset := rfl
@[simp] theorem deliver_phase (b : Byte) : (deliver b s).phase = s.phase := rfl
@[simp] theorem deliver_peer (b : Byte) : (deliver b s).peer = s.peer.receive s.params.devAddr s.wire b (s.peerPulls b) := rfl
@[simp] theorem deliver_env (b : Byte) : (deliver b s).env = { s.env with acks := s.env.acks.tail } := rfl
@[simp] theorem deliver_line (b : Byte) : (deliver b s).line = s.line := rfl
@[simp] theorem deliver_bytes (b : Byte) : (deliver b s).bytes = s.bytes := rfl

/-! ### `recordByte` -/

@[simp] theorem recordByte_params (b : Byte) : (recordByte b s).params = s.params := rfl
@[simp] theorem recordByte_requests (b : Byte) : (recordByte b s).requests = s.requests := rfl
@[simp] theorem recordByte_hung (b : Byte) : (recordByte b s).hung = s.hung := rfl
@[simp] theorem recordByte_sclPull (b : Byte) : (recordByte b s).sclPull = s.sclPull := rfl
@[simp] theorem recordByte_sdaPull (b : Byte) : (recordByte b s).sdaPull = s.sdaPull := rfl
@[simp] theorem recordByte_ack (b : Byte) : (recordByte b s).ack = s.ack := rfl
@[simp] theorem recordByte_wire (b : Byte) : (recordByte b s).wire = s.wire := rfl
@[simp] theorem recordByte_result (b : Byte) : (recordByte b s).result = s.result := rfl
@[simp] theorem recordByte_offset (b : Byte) : (recordByte b s).offset = s.offset := rfl
@[simp] theorem recordByte_phase (b : Byte) : (recordByte b s).phase = s.phase := rfl
@[simp] theorem recordByte_peer (b : Byte) : (recordByte b s).peer = s.peer := rfl
@[simp] theorem recordByte_env (b : Byte) : (recordByte b s).env = s.env := rfl
@[simp] theorem recordByte_line (b : Byte) : (recordByte b s).line = s.line := rfl
@[simp] theorem recordByte_bytes (b : Byte) : (recordByte b s).bytes = .byte b s.ack :: s.bytes := rfl

/-! ### `beginTxn` -/

@[simp] theorem beginTxn_params : (beginTxn s).params = s.params := rfl
@[simp] theorem beginTxn_requests : (beginTxn s).requests = s.requests := rfl
@[simp] theorem beginTxn_hung : (beginTxn s).hung = s.hung := rfl
@[simp] theorem beginTxn_sclPull : (beginTxn s).sclPull = s.sclPull := rfl
@[simp] theorem beginTxn_sdaPull : (beginTxn s).sdaPull = s.sdaPull := rfl
@[simp] theorem beginTxn_ack : (beginTxn s).ack = s.ack := rfl
@[simp] theorem beginTxn_wire : (beginTxn s).wire = .address := rfl
@[simp] theorem beginTxn_result : (beginTxn s).result = s.result := rfl
@[simp] theorem beginTxn_offset : (beginTxn s).offset = s.offset := rfl
@[simp] theorem beginTxn_phase : (beginTxn s).phase = s.phase := rfl
@[simp] theorem beginTxn_peer : (beginTxn s).peer =
    (s.peer.powerChange s.env.powerNow).startSeen s.env.heldAtStart := rfl
@[simp] theorem beginTxn_env : (beginTxn s).env = s.env.beginTxn := rfl
@[simp] theorem beginTxn_line : (beginTxn s).line = s.line := rfl
@[simp] theorem beginTxn_bytes : (beginTxn s).bytes = .start :: s.bytes := rfl

/-! ### `endTxn` -/

@[simp] theorem endTxn_params : (endTxn s).params = s.params := rfl
@[simp] theorem endTxn_requests : (endTxn s).requests = s.requests := rfl
@[simp] theorem endTxn_hung : (endTxn s).hung = s.hung := rfl
@[simp] theorem endTxn_sclPull : (endTxn s).sclPull = s.sclPull := rfl
@[simp] theorem endTxn_sdaPull : (endTxn s).sdaPull = s.sdaPull := rfl
@[simp] theorem endTxn_ack : (endTxn s).ack = s.ack := rfl
@[simp] theorem endTxn_wire : (endTxn s).wire = .idle := rfl
@[simp] theorem endTxn_result : (endTxn s).result = s.result := rfl
@[simp] theorem endTxn_offset : (endTxn s).offset = s.offset := rfl
@[simp] theorem endTxn_phase : (endTxn s).phase = s.phase := rfl
@[simp] theorem endTxn_peer : (endTxn s).peer = s.peer.stopSeen s.env.held := rfl
@[simp] theorem endTxn_env : (endTxn s).env = { s.env with stopHeld := s.env.stopHeld.tail } := rfl
@[simp] theorem endTxn_line : (endTxn s).line = s.line := rfl
@[simp] theorem endTxn_bytes : (endTxn s).bytes = .stop :: s.bytes := rfl

/-! ### `takeTimeout` -/

@[simp] theorem takeTimeout_params : (takeTimeout s).params = s.params := rfl
@[simp] theorem takeTimeout_requests : (takeTimeout s).requests = s.requests := rfl
@[simp] theorem takeTimeout_hung : (takeTimeout s).hung = s.hung := rfl
@[simp] theorem takeTimeout_sclPull : (takeTimeout s).sclPull = s.sclPull := rfl
@[simp] theorem takeTimeout_sdaPull : (takeTimeout s).sdaPull = false := rfl
@[simp] theorem takeTimeout_ack : (takeTimeout s).ack = s.ack := rfl
@[simp] theorem takeTimeout_wire : (takeTimeout s).wire = .idle := rfl
@[simp] theorem takeTimeout_result : (takeTimeout s).result = s.result := rfl
@[simp] theorem takeTimeout_offset : (takeTimeout s).offset = s.offset := rfl
@[simp] theorem takeTimeout_phase : (takeTimeout s).phase = s.phase := rfl
@[simp] theorem takeTimeout_peer : (takeTimeout s).peer = s.peer.lost := rfl
@[simp] theorem takeTimeout_env : (takeTimeout s).env = s.env := rfl
@[simp] theorem takeTimeout_line : (takeTimeout s).line = .sda true :: s.line := rfl
@[simp] theorem takeTimeout_bytes : (takeTimeout s).bytes = s.bytes := rfl

/-! ### `leaveInSlot9` -/

@[simp] theorem leaveInSlot9_params : (leaveInSlot9 s).params = s.params := rfl
@[simp] theorem leaveInSlot9_requests : (leaveInSlot9 s).requests = s.requests := rfl
@[simp] theorem leaveInSlot9_hung : (leaveInSlot9 s).hung = s.hung := rfl
@[simp] theorem leaveInSlot9_sclPull : (leaveInSlot9 s).sclPull = s.sclPull := rfl
@[simp] theorem leaveInSlot9_sdaPull : (leaveInSlot9 s).sdaPull = s.sdaPull := rfl
@[simp] theorem leaveInSlot9_ack : (leaveInSlot9 s).ack = s.ack := rfl
@[simp] theorem leaveInSlot9_wire : (leaveInSlot9 s).wire = s.wire := rfl
@[simp] theorem leaveInSlot9_result : (leaveInSlot9 s).result = s.result := rfl
@[simp] theorem leaveInSlot9_offset : (leaveInSlot9 s).offset = s.offset := rfl
@[simp] theorem leaveInSlot9_phase : (leaveInSlot9 s).phase = s.phase := rfl
@[simp] theorem leaveInSlot9_peer : (leaveInSlot9 s).peer = s.peer.lost := rfl
@[simp] theorem leaveInSlot9_env : (leaveInSlot9 s).env = s.env := rfl
@[simp] theorem leaveInSlot9_line : (leaveInSlot9 s).line = s.line := rfl
@[simp] theorem leaveInSlot9_bytes : (leaveInSlot9 s).bytes = s.bytes := rfl

/-! ### `takeHang` -/

@[simp] theorem takeHang_params : (takeHang s).params = s.params := rfl
@[simp] theorem takeHang_requests : (takeHang s).requests = s.requests := rfl
@[simp] theorem takeHang_hung : (takeHang s).hung = true := rfl
@[simp] theorem takeHang_sclPull : (takeHang s).sclPull = s.sclPull := rfl
@[simp] theorem takeHang_sdaPull : (takeHang s).sdaPull = s.sdaPull := rfl
@[simp] theorem takeHang_ack : (takeHang s).ack = s.ack := rfl
@[simp] theorem takeHang_wire : (takeHang s).wire = s.wire := rfl
@[simp] theorem takeHang_result : (takeHang s).result = .none := rfl
@[simp] theorem takeHang_offset : (takeHang s).offset = s.offset := rfl
@[simp] theorem takeHang_phase : (takeHang s).phase = s.phase := rfl
@[simp] theorem takeHang_peer : (takeHang s).peer = s.peer := rfl
@[simp] theorem takeHang_env : (takeHang s).env = s.env := rfl
@[simp] theorem takeHang_line : (takeHang s).line = s.line := rfl
@[simp] theorem takeHang_bytes : (takeHang s).bytes = s.bytes := rfl

end Sys2Proof.Machine
end

