-- ==== Sys2Proof/Laws/Bus.lean ====
section
/-! SUPPORT. What each Bus operation can do, said once: the three ends of a wait, of the bit frames and of the byte
frame, start and stop. -/

namespace Sys2Proof.Machine

variable {s t : State} {b : Byte} {a : Bool} {bs : List Byte}

/-! ### Environments -/

/-- How the wait with number `j` to come ends, if the peer's power stays as it is. -/
def State.waitEndAt (s : State) (j : Nat) : WaitEnd :=
  waitEnd s.params.stretchLimit (if s.peer.on then (s.env.stretches.drop j).headD (.reads 0) else .reads 0)

/-- The state after a wait, however it ended. -/
def afterWait (s : State) : State :=
  { s with line := .wait :: s.line, env := { s.env with stretches := s.env.stretches.tail } }

theorem waitSclHigh_eq (s : State) : waitSclHigh s = (afterWait s, s.waitEndAt 0) := rfl

theorem waitEndAt_of (hp : t.params = s.params) (ho : t.peer.on = s.peer.on) {k : Nat}
    (he : t.env.stretches = s.env.stretches.drop k) (j : Nat) : t.waitEndAt j = s.waitEndAt (k + j) := by
  rw [State.waitEndAt, hp, ho, he, List.drop_drop]; rfl

/-- A wait whose stretch is not listed, or whose peer has no power, sees the clock high at once. -/
theorem waitEnd_reads_zero (h : s.params.stretchLimit ≠ .bounded 0) :
    waitEnd s.params.stretchLimit (.reads 0) = .high := by
  cases hl : s.params.stretchLimit with
  | unbounded => rfl
  | bounded n => simp [waitEnd, show 0 < n by rcases n with _ | n <;> simp_all]

/-- In a flowing environment every wait to come sees the clock high. -/
theorem waitEndAt_of_flows (h : s.flows) (k : Nat) : s.waitEndAt k = .high := by
  obtain ⟨hb, h⟩ := h
  have h0 := waitEnd_reads_zero hb
  unfold State.waitEndAt
  split
  · rename_i hon
    rcases h with h | h
    · exact absurd (hon.symm.trans h.1) (by simp)
    · cases hs : (s.env.stretches.drop k) with
      | nil => exact h0
      | cons st rest => exact h st (List.mem_of_mem_drop (i := k) (by simp [hs]))
  · exact h0

/-- Flowing depends only on the limit, on stretches that are still to come, and on power that stays away. -/
theorem flows_of (h : s.flows) (hp : t.params = s.params) (k : Nat)
    (he : t.env.stretches = s.env.stretches.drop k) (hq : s.silent → t.silent) : t.flows := by
  refine ⟨hp ▸ h.1, h.2.imp hq fun h st hst => hp ▸ h st ?_⟩
  exact List.mem_of_mem_drop (he ▸ hst)

/-- Peers that pull neither line let everything flow (20_memory.md R72). -/
theorem flows_of_silent (h : s.silent) (hb : s.params.stretchLimit ≠ .bounded 0) : s.flows := ⟨hb, .inl h⟩

/-! ### Only a change of power touches `P_ON` -/

theorem Peer.take_on_addressed (p : Peer) (w : StreamPos) (b : Byte) :
    (p.take w b).on = p.on ∧ (p.take w b).addressed = p.addressed := by
  unfold Peer.take
  (repeat' split) <;> exact ⟨rfl, rfl⟩

theorem Peer.receive_on (p : Peer) (a : Byte) (w : StreamPos) (b : Byte) (pulls : Bool) :
    (p.receive a w b pulls).on = p.on := by
  unfold Peer.receive
  simp only
  split <;> split <;> simp [Peer.lost, (Peer.take_on_addressed _ _ _).1]

theorem Peer.startSeen_on (p : Peer) (held : Bool) : (p.startSeen held).on = p.on := by
  unfold Peer.startSeen
  split <;> rfl

theorem Peer.stopSeen_on (p : Peer) (held : Bool) : (p.stopSeen held).on = p.on := by
  unfold Peer.stopSeen
  split <;> rfl

/-- All that a change of power can do: nothing, or a peer that nothing is known of. -/
theorem Peer.powerChange_cases (c : PowerChange) (p : Peer) :
    p.powerChange c = p ∧ c.leaves p.on = p.on ∨ p.powerChange c = .blank (c.leaves p.on) := by
  cases c <;> cases hp : p.on <;> simp [Peer.powerChange, PowerChange.leaves, hp]

theorem Peer.powerChange_on (c : PowerChange) (p : Peer) : (p.powerChange c).on = c.leaves p.on := by
  rcases p.powerChange_cases c with ⟨h, h'⟩ | h
  · rw [h, h']
  · rw [h]; rfl

theorem afterStart_on (s : State) : (afterStart s).peer.on = s.env.powerNow.leaves s.peer.on :=
  (Peer.startSeen_on _ _).trans (Peer.powerChange_on _ _)

@[simp] theorem afterByte_on (b : Byte) (s : State) : (afterByte b s).peer.on = s.peer.on := Peer.receive_on ..

@[simp] theorem afterStop_on (s : State) : (afterStop s).peer.on = s.peer.on := Peer.stopSeen_on ..

@[simp] theorem afterBytes_on (bs : List Byte) (s : State) : (afterBytes bs s).peer.on = s.peer.on := by
  induction bs generalizing s with
  | nil => rfl
  | cons b bs ih => exact (ih (afterByte b s)).trans (afterByte_on b s)

/-! ### Peers without power (10_state.md R33) -/

theorem PowerChange.leaves_false {c : PowerChange} (h : c ≠ .on) : c.leaves false = false := by
  cases c <;> simp_all [PowerChange.leaves]

theorem silent_powerNow (h : s.silent) : s.env.powerNow.leaves s.peer.on = false := by
  rw [h.1]
  refine PowerChange.leaves_false ?_
  rw [Env.powerNow]
  cases hp : s.env.power with
  | nil => simp
  | cons c cs => exact h.2 c (by simp [hp])

theorem silent_of (ho : s.env.powerNow.leaves s.peer.on = false) (ht : ∀ c ∈ s.env.power.tail, c ≠ .on) :
    (afterStart s).silent := ⟨(afterStart_on s).trans ho, ht⟩

theorem silent_afterStart (h : s.silent) : (afterStart s).silent :=
  silent_of (silent_powerNow h) fun c hc => h.2 c (List.mem_of_mem_tail hc)

theorem silent_afterByte (h : s.silent) (b : Byte) : (afterByte b s).silent := ⟨(afterByte_on b s).trans h.1, h.2⟩

theorem silent_afterStop (h : s.silent) : (afterStop s).silent := ⟨(afterStop_on s).trans h.1, h.2⟩

theorem peerPulls_of_off (h : s.peer.on = false) (b : Byte) : s.peerPulls b = false := by
  rw [State.peerPulls, h, Bool.false_and]

/-! ### Bit frames -/

/-- The state after whole bit frames. -/
def afterBits : List Bool → State → State
  | [], s => s
  | d :: ds, s => afterBits ds { s with
      sclPull := true
      sdaPull := !d
      line := (bitFrame d).reverse ++ s.line
      env := { s.env with stretches := s.env.stretches.tail } }

/-- The state inside a wait that did not end well, `d` on the data line. -/
def insideWait (d : Bool) (s : State) : State := { s with
  sclPull := false
  sdaPull := !d
  line := .wait :: .scl true :: .sda d :: s.line
  env := { s.env with stretches := s.env.stretches.tail } }

/-- One bit frame: whole, or stopped inside its wait. -/
theorem shiftBit_eq (d : Bool) (s : State) :
    shiftBit d s = match s.waitEndAt 0 with
      | .high => (afterBits [d] s, .high)
      | .timeout => (insideWait d s, .timeout)
      | .never => (insideWait d s, .never) := by
  rw [shiftBit, waitSclHigh_eq, show (releaseScl (driveSda d s)).waitEndAt 0 = s.waitEndAt 0 from rfl]
  cases s.waitEndAt 0 <;> rfl

/-- What the bit frames leave alone, wherever they end. -/
theorem afterBits_frame (ds : List Bool) (s : State) :
    ∃ scl sda line, afterBits ds s = { s with
      sclPull := scl, sdaPull := sda, line := line ++ s.line
      env := { s.env with stretches := s.env.stretches.drop ds.length } } := by
  induction ds generalizing s with
  | nil => exact ⟨_, _, [], rfl⟩
  | cons d ds ih =>
    obtain ⟨scl, sda, line, h⟩ := ih { s with
      sclPull := true
      sdaPull := !d
      line := (bitFrame d).reverse ++ s.line
      env := { s.env with stretches := s.env.stretches.tail } }
    refine ⟨scl, sda, line ++ (bitFrame d).reverse, ?_⟩
    rw [afterBits, h]
    simp

/-- Where the bit frames stop: past the last, or inside the wait of bit `k`, as the environment's `k`th stretch says. -/
theorem shiftBits_cases (ds : List Bool) (s : State) :
    shiftBits ds s = (afterBits ds s, .high) ∨
    ∃ k d e, k < ds.length ∧ e ≠ .high ∧
      e = s.waitEndAt k ∧
      shiftBits ds s = (insideWait d (afterBits (ds.take k) s), e) := by
  induction ds generalizing s with
  | nil => exact .inl rfl
  | cons d ds ih =>
    rw [shiftBits, shiftBit_eq]
    generalize hw : s.waitEndAt 0 = w
    cases w with
    | high =>
      rcases ih (afterBits [d] s) with h | ⟨k, d', e, hk, he, hw', h⟩
      · exact .inl h
      · refine .inr ⟨k + 1, d', e, by simpa using hk, he, ?_, h⟩
        rw [hw', waitEndAt_of (t := afterBits [d] s) (s := s) (k := 1) rfl rfl (by simp [afterBits]), Nat.add_comm]
    | timeout => exact .inr ⟨0, d, .timeout, by simp, by simp, hw.symm, rfl⟩
    | never => exact .inr ⟨0, d, .never, by simp, by simp, hw.symm, rfl⟩

/-- In a flowing environment every bit frame is whole. -/
theorem shiftBits_of_flows (ds : List Bool) (h : s.flows) : shiftBits ds s = (afterBits ds s, .high) := by
  rcases shiftBits_cases ds s with h' | ⟨k, d, e, _, he, hw, _⟩
  · exact h'
  · refine absurd ?_ he
    rw [hw]
    exact waitEndAt_of_flows h k

/-! ### The byte frame -/

/-- A byte frame stopped inside one of its waits: nothing but the lines, the line trace and the stretches has changed, and
the peer may be one of which nothing is known. -/
def MidByte (s u : State) : Prop := ∃ sda evs k p, k ≤ 9 ∧ (p = s.peer ∨ p = s.peer.lost) ∧ u = { s with
  sclPull := false, sdaPull := sda, line := evs ++ s.line, peer := p
  env := { s.env with stretches := s.env.stretches.drop k } }

theorem midByte_insideWait (d : Bool) (ds : List Bool) (h : ds.length < 9) :
    MidByte s (insideWait d (afterBits ds s)) := by
  obtain ⟨scl, sda, evs, h'⟩ := afterBits_frame ds s
  refine ⟨!d, .wait :: .scl true :: .sda d :: evs, ds.length + 1, _, by omega, .inl rfl, ?_⟩
  rw [h', insideWait]
  simp

theorem midByte_leaveInSlot9 {u : State} (h : MidByte s u) : MidByte s (leaveInSlot9 u) := by
  obtain ⟨sda, evs, k, p, hk, hp, rfl⟩ := h
  refine ⟨sda, evs, k, _, hk, .inr rfl, ?_⟩
  rcases hp with rfl | rfl <;> rfl

theorem msbFirst_length (b : Byte) : (msbFirst b).length = 8 := rfl

/-- The acknowledge slot of a byte whose bits are whole. -/
theorem shift9_of_bits (h : shiftBits (msbFirst b) s = (afterBits (msbFirst b) s, .high)) :
    shift9 b s = match s.waitEndAt 8 with
      | .high => (afterByte b s, .acked (s.peerPulls b))
      | .timeout => (takeTimeout (insideWait true (afterBits (msbFirst b) s)), .timeout)
      | .never => (leaveInSlot9 (insideWait true (afterBits (msbFirst b) s)), .never) := by
  rw [shift9, h]
  have hs : (afterBits (msbFirst b) s).env.stretches = s.env.stretches.drop 8 := by
    simp [afterBits, msbFirst, ← List.drop_one]
  have hw : (afterBits (msbFirst b) s).waitEndAt 0 = s.waitEndAt 8 :=
    waitEndAt_of (t := afterBits (msbFirst b) s) (s := s) rfl rfl hs 0
  simp only [waitSclHigh_eq]
  rw [show (releaseScl (driveSda true (afterBits (msbFirst b) s))).waitEndAt 0 = s.waitEndAt 8 from hw]
  generalize s.waitEndAt 8 = w
  cases w with
  | timeout => rfl
  | never => rfl
  | high =>
    refine Prod.ext ?_ ?_
    · simp [afterWait, ackSample, pullScl, recordByte, sampleAck, deliver, afterByte, afterBits, msbFirst, State.peerPulls,
        byteFrame, ackFrame, bitFrame, driveSda, releaseScl, ackOf, lineHigh, Env.pull, ← List.drop_one]
    · simp [afterWait, ackSample, pullScl, recordByte, sampleAck, deliver, afterBits, msbFirst, State.peerPulls,
        driveSda, releaseScl, ackOf, lineHigh, Env.pull]

/-- The three ends of a byte frame (60_exceptions.md R247): whole, with the peer's answer; Timeout; never. -/
theorem shift9_cases (b : Byte) (s : State) :
    shift9 b s = (afterByte b s, .acked (s.peerPulls b)) ∨
    (∃ u, MidByte s u ∧ shift9 b s = (takeTimeout u, .timeout)) ∨
    (∃ u, MidByte s u ∧ shift9 b s = (u, .never)) := by
  rcases shiftBits_cases (msbFirst b) s with h | ⟨k, d, e, hk, he, _, h⟩
  · rw [shift9_of_bits h]
    generalize s.waitEndAt 8 = w
    have hm := midByte_insideWait (s := s) true (msbFirst b) (by simp [msbFirst_length])
    cases w with
    | high => exact .inl rfl
    | timeout => exact .inr (.inl ⟨_, hm, rfl⟩)
    | never => exact .inr (.inr ⟨_, midByte_leaveInSlot9 hm, rfl⟩)
  · have hm := midByte_insideWait (s := s) d ((msbFirst b).take k)
      (by rw [List.length_take, msbFirst_length]; omega)
    rw [shift9, h]
    cases e with
    | high => exact absurd rfl he
    | timeout => exact .inr (.inl ⟨_, hm, rfl⟩)
    | never => exact .inr (.inr ⟨_, hm, rfl⟩)

/-- In a flowing environment a byte frame is whole (R304). -/
theorem shift9_of_flows (b : Byte) (h : s.flows) : shift9 b s = (afterByte b s, .acked (s.peerPulls b)) := by
  rw [shift9_of_bits (shiftBits_of_flows _ h), waitEndAt_of_flows h 8]

theorem afterByte_flows (h : s.flows) : (afterByte b s).flows :=
  flows_of h rfl 9 rfl (silent_afterByte · b)

/-! ### Where a byte frame stops -/

/-- Bit frames none of whose waits fails are whole. -/
theorem shiftBits_of_high (ds : List Bool) (s : State)
    (h : ∀ j < ds.length, s.waitEndAt j = .high) :
    shiftBits ds s = (afterBits ds s, .high) := by
  rcases shiftBits_cases ds s with h' | ⟨k, d, e, hk, he, hw, -⟩
  · exact h'
  · exact absurd (hw.trans (h k hk)) he

/-- Bit frames whose first failing wait is that of bit `k` stop inside it, that bit on the data line. -/
theorem shiftBits_stops (ds : List Bool) (s : State) (k : Nat) (e : WaitEnd) (hk : k < ds.length) (hne : e ≠ .high)
    (h : ∀ j < k, s.waitEndAt j = .high)
    (he : s.waitEndAt k = e) :
    shiftBits ds s = (insideWait ds[k] (afterBits (ds.take k) s), e) := by
  induction ds generalizing s k with
  | nil => simp at hk
  | cons d ds ih =>
    rw [shiftBits, shiftBit_eq]
    cases k with
    | zero =>
      rw [he]
      cases e <;> simp_all [afterBits]
    | succ k =>
      have hs : ∀ j, (afterBits [d] s).waitEndAt j = s.waitEndAt (j + 1) := fun j => by
        rw [waitEndAt_of (t := afterBits [d] s) (s := s) (k := 1) rfl rfl (by simp [afterBits]), Nat.add_comm]
      rw [h 0 (by omega)]
      simp only
      rw [ih _ k (by simpa using hk) (fun j hjk => (hs j).trans (h (j + 1) (by omega))) ((hs k).trans he)]
      simp [afterBits]

/-- The state inside the wait of slot `k` of byte `b` (0 to 7 the bits, 8 the acknowledge). -/
def insideByte (b : Byte) (k : Nat) (s : State) : State := { s with
  sclPull := false
  sdaPull := slotPull b k
  line := (cutFrame b k).reverse ++ s.line
  env := { s.env with stretches := s.env.stretches.drop (k + 1) } }

/-- The state in which the block stays when that wait never ends. -/
def stuckByte (b : Byte) (k : Nat) (s : State) : State :=
  if k < 8 then insideByte b k s else leaveInSlot9 (insideByte b k s)

/-- The two ends of a byte whose wait in slot `k` fails (60_exceptions.md R245, R246). -/
def byteFails (b : Byte) (k : Nat) (e : WaitEnd) (s : State) : State × ByteEnd :=
  if e = .timeout then (takeTimeout (insideByte b k s), .timeout) else (stuckByte b k s, .never)

/-- A byte frame whose first failing wait is that of slot `k` stops inside it. -/
theorem shift9_stops (b : Byte) (s : State) (k : Nat) (e : WaitEnd) (hk : k < 9) (hne : e ≠ .high)
    (h : ∀ j < k, s.waitEndAt j = .high)
    (he : s.waitEndAt k = e) :
    shift9 b s = byteFails b k e s := by
  by_cases h8 : k < 8
  · have hl : k < (msbFirst b).length := by rw [msbFirst_length]; exact h8
    have hs := shiftBits_stops (msbFirst b) s k e hl hne h he
    have hi : insideWait ((msbFirst b)[k]'hl) (afterBits ((msbFirst b).take k) s) = insideByte b k s := by
      have : k = 0 ∨ k = 1 ∨ k = 2 ∨ k = 3 ∨ k = 4 ∨ k = 5 ∨ k = 6 ∨ k = 7 := by omega
      rcases this with rfl | rfl | rfl | rfl | rfl | rfl | rfl | rfl <;>
        simp [insideWait, insideByte, afterBits, msbFirst, cutFrame, byteFrame, bitFrame, slotPull, ← List.drop_one]
    rw [shift9, hs, hi, byteFails, stuckByte, if_pos h8]
    cases e <;> first | rfl | exact absurd rfl hne
  · have hk8 : k = 8 := by omega
    subst hk8
    have hi : insideWait true (afterBits (msbFirst b) s) = insideByte b 8 s := by
      simp [insideWait, insideByte, afterBits, msbFirst, cutFrame, byteFrame, bitFrame, ackFrame, slotPull,
        ← List.drop_one]
    rw [shift9_of_bits (shiftBits_of_high _ s fun j hj => h j (by simpa [msbFirst_length] using hj)), he, hi, byteFails,
      stuckByte, if_neg h8]
    cases e <;> first | rfl | exact absurd rfl hne

/-- A byte frame none of whose nine waits fails is whole. -/
theorem shift9_of_high (b : Byte) (s : State)
    (h : ∀ j < 9, s.waitEndAt j = .high) :
    shift9 b s = (afterByte b s, .acked (s.peerPulls b)) := by
  rw [shift9_of_bits (shiftBits_of_high _ s fun j hj => h j (by rw [msbFirst_length] at hj; omega)), h 8 (by omega)]

/-- The wait of slot `k`, where the environment's list says what it is. -/
theorem stretch_at {l : List Stretch} {k : Nat} {st : Stretch} (h : l[k]? = some st) :
    (l.drop k).headD (.reads 0) = st := by
  rw [List.headD_eq_head?_getD, List.head?_drop, h]; rfl

/-! ### Start and stop -/

theorem startCondition_eq (s : State) : startCondition s = afterStart s := rfl

theorem stopOp_eq (s : State) : stopOp s = afterStop s := rfl

theorem beginTxn_stretches (s : State) : (beginTxn s).env.stretches = s.env.stretches := rfl

theorem afterStart_flows (h : s.flows) : (afterStart s).flows :=
  flows_of h rfl 0 (by simp only [List.drop_zero]; exact beginTxn_stretches s) silent_afterStart

theorem afterStop_flows (h : s.flows) : (afterStop s).flows := flows_of h rfl 0 rfl silent_afterStop

/-- START in a flowing environment. -/
theorem startOp_of_flows (a : Byte) (h : s.flows) :
    startOp a s = (afterByte a (afterStart s), .acked ((afterStart s).peerPulls a)) :=
  shift9_of_flows a (afterStart_flows h)

/-- Bytes in a row keep the environment flowing. -/
theorem afterBytes_flows (h : s.flows) : (afterBytes bs s).flows := by
  induction bs generalizing s with
  | nil => exact h
  | cons b bs ih => exact ih (afterByte_flows h)

/-- An item sent in a flowing environment: each of its bytes whole, the last acknowledge its own. -/
theorem sendItem_of_flows (h : s.flows) :
    sendItem bs s = (afterBytes bs s, .acked (afterBytes bs s).ack) := by
  induction bs generalizing s with
  | nil => rfl
  | cons b bs ih =>
    rw [sendItem, shift9_of_flows b h]
    exact ih (afterByte_flows h)

end Sys2Proof.Machine
end

