-- ==== Sys2Proof/Laws/Transaction.lean ====
section
/-! SUPPORT. What a transaction can do, said once: what it preserves on every path, where it ends, and what it is in
an environment whose stretches end. -/

namespace Sys2Proof.Machine

variable {s t u : State} {b : Byte} {bs : List Byte} {P : State → Prop}

/-! ### What holds along every path -/

/-- A property that every piece of bus activity preserves. -/
structure BusClosed (P : State → Prop) : Prop where
  byte : ∀ b s, P s → P (afterByte b s)
  mid : ∀ s u, P s → MidByte s u → P u
  timeout : ∀ s, P s → P (takeTimeout s)
  start : ∀ s, P s → P (afterStart s)
  stop : ∀ s, P s → P (afterStop s)

theorem shift9_closed (hP : BusClosed P) (h : P s) : P (shift9 b s).1 := by
  rcases shift9_cases b s with h' | ⟨u, hm, h'⟩ | ⟨u, hm, h'⟩ <;> rw [h']
  · exact hP.byte b s h
  · exact hP.timeout u (hP.mid s u h hm)
  · exact hP.mid s u h hm

theorem startOp_closed (hP : BusClosed P) (h : P s) : P (startOp b s).1 :=
  shift9_closed hP (hP.start s h)

theorem sendItem_closed (hP : BusClosed P) (h : P s) : P (sendItem bs s).1 := by
  induction bs generalizing s with
  | nil => exact h
  | cons b bs ih =>
    have hb := shift9_closed (b := b) hP h
    rw [sendItem]
    split <;> simp_all

theorem sendPayload_closed (hP : BusClosed P) (check : Bool) (h : P s) : P (sendPayload check bs s).1 := by
  induction bs generalizing s with
  | nil => exact hP.stop s h
  | cons b bs ih =>
    have hb := shift9_closed (b := b) hP h
    rw [sendPayload]
    split
    · rename_i t a he
      rw [he] at hb
      split
      · exact hP.stop t hb
      · exact ih hb
    all_goals simp_all

theorem txn_closed (hP : BusClosed P) (check : Bool) (h : P s) : P (txn check bs s).1 := by
  have hb := startOp_closed (b := s.params.devAddr) hP h
  rw [txn]
  split
  · rename_i t a he
    rw [he] at hb
    split
    · exact hP.stop t hb
    · exact sendPayload_closed hP check hb
  all_goals simp_all

theorem andThen_closed {r : State × OpEnd} {k : State → State × OpEnd} (hr : P r.1) (hk : ∀ t, P t → P (k t).1) :
    P (andThen r k).1 := by
  obtain ⟨t, e⟩ := r
  cases e with
  | status st => cases st <;> simp_all [andThen]
  | never => exact hr

/-! ### Where a transaction ends -/

/-- Idle, with the wire idle, after a status; inside a wait, with the wire inside a transaction, if it never ends
(41_protocol.md R160, 60_exceptions.md R245). -/
def EndsWell (r : State × OpEnd) : Prop :=
  match r.2 with
  | .status _ => r.1.sclPull = false ∧ r.1.sdaPull = false ∧ r.1.wire = .idle
  | .never => r.1.sclPull = false ∧ r.1.wire ≠ .idle

/-- The ends of a byte frame inside a transaction: Open and still inside it; Idle after a Timeout; inside a wait. -/
def ByteEndsWell (r : State × ByteEnd) : Prop :=
  match r.2 with
  | .acked _ => r.1.sclPull = true ∧ r.1.sdaPull = false ∧ r.1.wire ≠ .idle ∧ r.1.wire ≠ .address
  | .timeout => r.1.sclPull = false ∧ r.1.sdaPull = false ∧ r.1.wire = .idle
  | .never => r.1.sclPull = false ∧ r.1.wire ≠ .idle

/-- A byte never leads out of a transaction, nor back to its address. -/
theorem StreamPos.next_inside (p : StreamPos) (b : Byte) (h : p ≠ .idle) : p.next b ≠ .idle ∧ p.next b ≠ .address := by
  cases p <;> simp only [StreamPos.next] <;> (repeat' split) <;> simp_all

theorem midByte_lines (h : MidByte s u) : u.sclPull = false ∧ u.wire = s.wire ∧ u.params = s.params := by
  obtain ⟨sda, evs, k, p, -, -, rfl⟩ := h
  exact ⟨rfl, rfl, rfl⟩

theorem shift9_endsWell (b : Byte) (h : s.wire ≠ .idle) : ByteEndsWell (shift9 b s) := by
  rcases shift9_cases b s with h' | ⟨u, hm, h'⟩ | ⟨u, hm, h'⟩ <;> rw [h', ByteEndsWell]
  · exact ⟨rfl, rfl, StreamPos.next_inside _ _ h⟩
  · exact ⟨(midByte_lines hm).1, rfl, rfl⟩
  · exact ⟨(midByte_lines hm).1, (midByte_lines hm).2.1 ▸ h⟩

theorem startOp_endsWell (b : Byte) (s : State) : ByteEndsWell (startOp b s) :=
  shift9_endsWell (s := afterStart s) b (by simp [afterStart])

theorem sendItem_endsWell (h : s.wire ≠ .idle) (b : Byte) (bs : List Byte) : ByteEndsWell (sendItem (b :: bs) s) := by
  induction bs generalizing s b with
  | nil =>
    have hb := shift9_endsWell b h
    rw [sendItem]
    split <;> simp_all [ByteEndsWell, sendItem]
  | cons c cs ih =>
    have hb := shift9_endsWell b h
    rw [sendItem]
    split
    · rename_i t a he
      rw [he] at hb
      exact ih hb.2.2.1 c
    all_goals simp_all [ByteEndsWell]

theorem sendPayload_endsWell (check : Bool) (bs : List Byte) (h : s.wire ≠ .idle) :
    EndsWell (sendPayload check bs s) := by
  induction bs generalizing s with
  | nil => exact ⟨rfl, rfl, rfl⟩
  | cons b bs ih =>
    have hb := shift9_endsWell b h
    rw [sendPayload]
    split
    · rename_i t a he
      rw [he] at hb
      split
      · exact ⟨rfl, rfl, rfl⟩
      · exact ih hb.2.2.1
    all_goals simp_all [ByteEndsWell, EndsWell]

theorem txn_endsWell (check : Bool) (bs : List Byte) (s : State) : EndsWell (txn check bs s) := by
  have hb := startOp_endsWell s.params.devAddr s
  rw [txn]
  split
  · rename_i t a he
    rw [he] at hb
    split
    · exact ⟨rfl, rfl, rfl⟩
    · exact sendPayload_endsWell check bs hb.2.2.1
  all_goals simp_all [ByteEndsWell, EndsWell]

theorem andThen_endsWell {r : State × OpEnd} {k : State → State × OpEnd} (hr : EndsWell r) (hk : ∀ t, EndsWell (k t)) :
    EndsWell (andThen r k) := by
  obtain ⟨t, e⟩ := r
  cases e with
  | status st => cases st <;> simp_all [andThen]
  | never => exact hr

/-! ### Transactions in a flowing environment -/

theorem afterBytes_cons (b : Byte) (bs : List Byte) (s : State) :
    afterBytes (b :: bs) s = afterBytes bs (afterByte b s) := rfl

/-- An unchecked payload is sent whole (60_exceptions.md R251). -/
theorem sendPayload_unchecked (bs : List Byte) (h : s.flows) :
    sendPayload false bs s = (afterStop (afterBytes bs s), .status .ok) := by
  induction bs generalizing s with
  | nil => rfl
  | cons b bs ih =>
    rw [sendPayload, shift9_of_flows b h]
    exact ih (afterByte_flows h)

/-- An unchecked transaction is sent whole and its status is OK (R251). -/
theorem txn_unchecked (bs : List Byte) (h : s.flows) : txn false bs s = (afterTxn bs s, .status .ok) := by
  rw [txn, startOp_of_flows _ h]
  exact sendPayload_unchecked bs (afterByte_flows (afterStart_flows h))

theorem afterTxn_flows (h : s.flows) : (afterTxn bs s).flows :=
  afterStop_flows (afterBytes_flows (afterStart_flows h))

/-- Every byte to come is acknowledged: the environment leaves the answers to a powered peer that is addressed. -/
def Answering (s : State) : Prop :=
  s.env.acks = [] ∧ s.peer.on = true ∧ s.peer.addressed = true ∧ s.wire ≠ .address ∧ s.wire ≠ .idle

theorem Peer.answer_payload {p : Peer} {w : StreamPos} {d b : Byte} (h : w ≠ .address) :
    p.answer d w b = (p.on && p.addressed) := by
  cases w <;> simp_all [Peer.answer]

theorem answering_pulls (h : Answering s) (b : Byte) : s.peerPulls b = true := by
  obtain ⟨ha, hon, had, hw, -⟩ := h
  simp [State.peerPulls, Env.pull, ha, Peer.answer_payload hw, hon, had]

theorem Peer.receive_payload {p : Peer} {w : StreamPos} {d b : Byte} {pulls : Bool} (h : w ≠ .address) :
    p.receive d w b pulls = if pulls = p.answer d w b then p.take w b else p.lost := by
  cases w <;> simp_all [Peer.receive]

theorem answering_afterByte (h : Answering s) (b : Byte) : Answering (afterByte b s) := by
  have hp := answering_pulls h b
  obtain ⟨ha, hon, had, hw, hi⟩ := h
  have hr : (afterByte b s).peer = s.peer.take s.wire b := by
    simp [afterByte, Peer.receive_payload hw, hp, Peer.answer_payload hw, hon, had]
  have hn := StreamPos.next_inside s.wire b hi
  refine ⟨by simp [afterByte, ha], ?_, ?_, hn.2, hn.1⟩
  · rw [hr, (Peer.take_on_addressed _ _ _).1, hon]
  · rw [hr, (Peer.take_on_addressed _ _ _).2, had]

/-- A checked payload to an answering peer is sent whole. -/
theorem sendPayload_answering (check : Bool) (bs : List Byte) (h : s.flows) (ha : Answering s) :
    sendPayload check bs s = (afterStop (afterBytes bs s), .status .ok) := by
  induction bs generalizing s with
  | nil => rfl
  | cons b bs ih =>
    rw [sendPayload, shift9_of_flows b h, answering_pulls ha b]
    simpa [nackTaken, afterBytes_cons] using ih (afterByte_flows h) (answering_afterByte ha b)

theorem reference_afterStart (h : s.reference) : (afterStart s).peer = s.peer ∧ (afterStart s).env = s.env := by
  obtain ⟨-, hs, -, hp⟩ := h
  have he : s.env.beginTxn = s.env := by
    rw [Env.beginTxn, hs, hp, List.tail_nil, List.tail_nil, ← hs, ← hp]
  simp [afterStart, beginTxn, he, Env.powerNow, hp, Peer.powerChange, Env.heldAtStart, hs, Peer.startSeen]

theorem hearing_address (h : s.reference) (hon : s.peer.on = true) :
    (afterStart s).peerPulls s.params.devAddr = true ∧ Answering (afterByte s.params.devAddr (afterStart s)) := by
  obtain ⟨hp, he⟩ := reference_afterStart h
  obtain ⟨ha, hst, hs, hpw⟩ := h
  have hw : (afterStart s).wire = .address := rfl
  have hd : (afterStart s).params = s.params := rfl
  have h1 : (afterStart s).peerPulls s.params.devAddr = true := by
    simp [State.peerPulls, Env.pull, he, ha, hw, Peer.answer, hp, hon, hd]
  refine ⟨h1, ?_, ?_, ?_, ?_, ?_⟩
  · simp [afterByte, he, ha]
  · simp [afterByte, Peer.receive, h1, hw, hp, hd, Peer.answer, hon, Peer.take_on_addressed]
  · simp [afterByte, Peer.receive, h1, hw]
  · simp [afterByte, StreamPos.next, hw]
  · simp [afterByte, StreamPos.next, hw]

/-- A transaction to a hearing peer is acknowledged and sent whole, checked or not. -/
theorem txn_hearing (check : Bool) (bs : List Byte) (h : s.flows) (hr : s.reference) (hon : s.peer.on = true) :
    txn check bs s = (afterTxn bs s, .status .ok) := by
  obtain ⟨h1, h2⟩ := hearing_address hr hon
  rw [txn, startOp_of_flows _ h, h1]
  simpa [nackTaken, afterTxn, afterBytes_cons] using
    sendPayload_answering check bs (afterByte_flows (afterStart_flows h)) h2

end Sys2Proof.Machine
end

