-- ==== Sys2Proof/Laws/Peer.lean ====
section
/-! SUPPORT. What a byte can do to the reference peer, said once, and what a run of bytes does to its display. -/

namespace Sys2Proof.Machine

variable {d d' : Display} {p : Peer} {s : State} {b : Byte} {bs : List Byte} {pos : StreamPos}

/-! ### The RAM is written by data bytes only (20_memory.md R57, R65) -/

theorem operands0_some {α : Type} {ops : List Byte} {k : Option α} {x : α} (h : operands0 ops k = some x) :
    k = some x := by
  unfold operands0 at h
  split at h <;> simp_all

theorem operands1_some {α : Type} {ops : List Byte} {k : Byte → Option α} {x : α} (h : operands1 ops k = some x) :
    ∃ v, k v = some x := by
  unfold operands1 at h
  split at h
  · exact ⟨_, h⟩
  all_goals simp at h

theorem operands2_some {α : Type} {ops : List Byte} {k : Byte → Byte → Option α} {x : α}
    (h : operands2 ops k = some x) : ∃ v w, k v w = some x := by
  unfold operands2 at h
  split at h
  · exact ⟨_, _, h⟩
  all_goals simp at h

/-- No command writes the RAM (R65). -/
theorem Display.obey_ram {k : CmdKind} {c : Byte} {ops : List Byte} {u : Bool}
    (h : d.obey k c ops u = some d') : d'.ram = d.ram := by
  have hcfg : ∀ c o, (d.configure c o).ram = d.ram := fun _ _ => rfl
  cases k <;> simp only [Display.obey] at h
  case columnRange =>
    obtain ⟨a, b, h⟩ := operands2_some h
    unfold Display.columnRange at h
    split at h <;> simp at h
    subst h; rfl
  case pageRange =>
    obtain ⟨a, b, h⟩ := operands2_some h
    unfold Display.pageRange at h
    split at h <;> simp at h
    subst h; rfl
  case columnLower =>
    have h := Option.some.inj (operands0_some h)
    subst h
    unfold Display.lowerNibble
    split <;> rfl
  case entireDisplayOn | normalInverted =>
    have h := operands0_some h
    split at h <;> simp at h
    subst h; rfl
  case pageStart | columnUpper | startLine | segmentRemap | comScanDir | displayOnOff =>
    have h := Option.some.inj (operands0_some h)
    subst h; rfl
  all_goals
    obtain ⟨v, h⟩ := operands1_some h
    have h := Option.some.inj h
    subst h; rfl

/-- A data byte writes one byte of the RAM, where the pointers point (R79). -/
theorem Display.data_ram (h : d.data b = some d') :
    ∃ pg c, d.page = some pg ∧ d.col = some c ∧ d'.ram = Memory.write d.ram (dispAddr pg c) b := by
  unfold Display.data at h
  split at h
  · rename_i pg c hp hc hm
    refine ⟨pg, c, hp, hc, ?_⟩
    simp only [Option.some.injEq] at h
    subst h
    unfold stepPageMode
    split <;> rfl
  · rename_i pg c hp hc hm
    refine ⟨pg, c, hp, hc, ?_⟩
    split at h <;> simp at h
    subst h
    unfold stepRangeMode
    (repeat' split) <;> rfl
  · simp at h

/-- What a payload byte can do to the RAM: nothing, or one write in data position. -/
theorem Display.take_ram (h : d.take pos b = some d') :
    d'.ram = d.ram ∨ (pos = .data ∧ ∃ pg c, d.page = some pg ∧ d.col = some c ∧
      d'.ram = Memory.write d.ram (dispAddr pg c) b) := by
  cases pos with
  | idle => simp [Display.take] at h; exact .inl (h ▸ rfl)
  | address => simp [Display.take] at h; exact .inl (h ▸ rfl)
  | control => simp [Display.take] at h; exact .inl (h.2 ▸ rfl)
  | command u =>
    simp only [Display.take] at h
    split at h
    · simp at h
    · split at h
      · exact .inl (Display.obey_ram h)
      · simp at h; exact .inl (h ▸ rfl)
  | operand k f g l =>
    simp only [Display.take] at h
    split at h
    · exact .inl (Display.obey_ram h)
    · simp at h; exact .inl (h ▸ rfl)
  | data => exact .inr ⟨rfl, Display.data_ram h⟩
  | noMeaning => simp [Display.take] at h

/-- Every (page, column) is an address of `DISP` (R50). -/
theorem dispAddr_lt (pg : BitVec 3) (c : BitVec 7) : dispAddr pg c < Config.nCols * Config.nPages := by
  have h1 := pg.isLt
  have h2 := c.isLt
  simp only [dispAddr, Config.nCols, Config.nPages]
  omega

theorem Display.take_wf (h : d.take pos b = some d') (hw : d.wf) : d'.wf := by
  rcases Display.take_ram h with hr | ⟨-, pg, c, -, -, hr⟩
  · rw [Display.wf, hr]; exact hw
  · refine ⟨hr ▸ Memory.write_wf _ _ _ hw.1, fun x hx => ?_⟩
    rcases Memory.mem_write _ _ _ _ (hr ▸ hx) with hx | hx
    · exact hw.2 x hx
    · exact hx ▸ dispAddr_lt pg c

theorem Display.unknown_wf : Display.unknown.wf := by
  refine ⟨rfl, fun c hc => ?_⟩
  simp [Display.unknown] at hc

/-! ### The peer's own invariant -/

theorem Peer.lost_wf : p.lost.wf :=
  ⟨Display.unknown_wf, fun _ => rfl, fun _ => rfl, fun _ h => by simp [Peer.lost] at h⟩

theorem Peer.take_wf (hp : p.wf) : (p.take pos b).wf := by
  unfold Peer.take
  split
  · rename_i hc
    simp only [Bool.and_eq_true] at hc
    split
    · rename_i d' hd
      refine ⟨Display.take_wf hd hp.1, fun h => ?_, fun h => ?_, fun _ _ => hp.2.2.2 hc.1 hc.2⟩
      · simp_all
      · have := hp.2.2.2 hc.1 hc.2
        simp_all
    · exact Peer.lost_wf
  · exact hp

theorem Peer.receive_wf {a : Byte} {pulls : Bool} (hp : p.wf) : (p.receive a pos b pulls).wf := by
  have hq : (if pulls = p.answer a pos b then p.take pos b else p.lost).wf := by
    split
    · exact Peer.take_wf hp
    · exact Peer.lost_wf
  by_cases hpos : pos = .address
  · subst hpos
    simp only [Peer.receive] at hq ⊢
    refine ⟨hq.1, hq.2.1, hq.2.2.1, fun h1 h2 => ?_⟩
    simp only at h1 h2 ⊢
    by_cases hc : pulls = p.answer a .address b
    · rw [if_pos hc] at h2 ⊢
      rw [(Peer.take_on_addressed _ _ _).1]
      rw [hc, Peer.answer, Bool.and_eq_true] at h1
      exact h1.1
    · rw [if_neg hc] at h2
      simp [Peer.lost] at h2
  · rw [Peer.receive_payload hpos]
    exact hq

theorem Peer.stopSeen_wf {held : Bool} (hp : p.wf) : (p.stopSeen held).wf := by
  unfold Peer.stopSeen
  split
  · exact Peer.lost_wf
  · exact ⟨hp.1, fun h => by simp at h, hp.2.2.1, fun h => by simp at h⟩

theorem Peer.startSeen_wf {held : Bool} (hp : p.wf) : (p.startSeen held).wf := by
  unfold Peer.startSeen
  split
  · exact Peer.lost_wf
  · exact hp

theorem Peer.blank_wf (on : Bool) : (Peer.blank on).wf :=
  ⟨Display.unknown_wf, fun _ => rfl, fun _ => rfl, fun h => by simp [Peer.blank] at h⟩

theorem Peer.powerChange_wf (hp : p.wf) (c : PowerChange) : (p.powerChange c).wf := by
  rcases p.powerChange_cases c with ⟨h, -⟩ | h <;> rw [h]
  exacts [hp, Peer.blank_wf _]

/-- The peer's invariant is kept by all bus activity. -/
theorem peerWf_closed : BusClosed fun s => s.peer.wf where
  byte _ _ h := Peer.receive_wf h
  mid s u h hm := by
    obtain ⟨sda, evs, k, p, -, rfl | rfl, rfl⟩ := hm
    · exact h
    · exact Peer.lost_wf
  timeout _ _ := Peer.lost_wf
  start s h := by
    show (beginTxn s).peer.wf
    rw [beginTxn_peer]
    exact Peer.startSeen_wf (Peer.powerChange_wf h _)
  stop _ h := Peer.stopSeen_wf h

/-! ### Runs of bytes -/

/-- What a run of payload bytes does to the display, `none` once one has no meaning. -/
def Display.run : StreamPos → List Byte → Display → Option Display
  | _, [], d => some d
  | pos, b :: bs, d => (d.take pos b).bind fun d' => Display.run (pos.next b) bs d'

/-- A peer that answers and is in step takes a run of bytes that all have a meaning. -/
theorem afterBytes_run (ha : Answering s) (hs : s.peer.synced = true)
    (hr : Display.run s.wire bs s.peer.disp = some d) :
    (afterBytes bs s).peer = { s.peer with disp := d } ∧ Answering (afterBytes bs s) := by
  induction bs generalizing s with
  | nil =>
    simp only [Display.run, Option.some.injEq] at hr
    subst hr
    exact ⟨rfl, ha⟩
  | cons b bs ih =>
    have hp := answering_pulls ha b
    have ha' := answering_afterByte ha b
    obtain ⟨hacks, hon, had, hw, hi⟩ := ha
    simp only [Display.run, Option.bind_eq_some_iff] at hr
    obtain ⟨d1, hd1, hr⟩ := hr
    have hpe : (afterByte b s).peer = { s.peer with disp := d1 } := by
      show s.peer.receive s.params.devAddr s.wire b (s.peerPulls b) = _
      rw [Peer.receive_payload hw, hp, Peer.answer_payload hw]
      simp [Peer.take, hon, had, hs, hd1]
    have hwi : (afterByte b s).wire = s.wire.next b := rfl
    obtain ⟨h1, h2⟩ := ih (s := afterByte b s) ha' (by rw [hpe]; exact hs) (by rw [hpe, hwi]; exact hr)
    refine ⟨?_, h2⟩
    rw [afterBytes_cons, h1, hpe]

theorem afterBytes_env (bs : List Byte) (s : State) : (afterBytes bs s).env =
    { s.env with acks := s.env.acks.drop bs.length, stretches := s.env.stretches.drop (9 * bs.length) } := by
  induction bs generalizing s with
  | nil => rfl
  | cons b bs ih =>
    rw [afterBytes_cons, ih]
    simp [afterByte, Nat.mul_add, ← List.drop_one, Nat.add_comm]

/-- A whole transaction to a hearing peer whose payload has a meaning: the display has run, the peer is in step and
still leaves its answers to itself. -/
theorem afterTxn_run (hh : s.hearing) (hr : Display.run .control bs s.peer.disp = some d) :
    (afterTxn bs s).peer = { on := true, addressed := false, synced := true, disp := d } ∧
    (afterTxn bs s).hearing := by
  obtain ⟨href, hon, hsy⟩ := hh
  obtain ⟨h1, h2⟩ := hearing_address href hon
  obtain ⟨hp, he⟩ := reference_afterStart href
  have hw : (afterStart s).wire = .address := rfl
  have hd : (afterStart s).params = s.params := rfl
  have hpe : (afterByte s.params.devAddr (afterStart s)).peer = { s.peer with addressed := true } := by
    show (afterStart s).peer.receive (afterStart s).params.devAddr (afterStart s).wire _ _ = _
    rw [h1, hw, hp, hd]
    have ht : s.peer.take .address s.params.devAddr = s.peer := by
      simp only [Peer.take, Display.take]
      split <;> rfl
    simp [Peer.receive, Peer.answer, hon, ht]
  obtain ⟨h3, h4⟩ := afterBytes_run (bs := bs) h2 (by rw [hpe]; exact hsy) (by
    have hwi : (afterByte s.params.devAddr (afterStart s)).wire = .control := rfl
    rw [hpe, hwi]
    exact hr)
  obtain ⟨hac, hst, hsh, hpw⟩ := href
  have hpeer : (afterTxn bs s).peer = { on := true, addressed := false, synced := true, disp := d } := by
    have hh : (afterBytes bs (afterByte s.params.devAddr (afterStart s))).env.held = false := by
      rw [afterBytes_env]
      simp [Env.held, afterByte, he, hsh]
    show (afterBytes bs (afterByte s.params.devAddr (afterStart s))).peer.stopSeen
      (afterBytes bs (afterByte s.params.devAddr (afterStart s))).env.held = _
    rw [h3, hpe, hh]
    simp [Peer.stopSeen, hon]
  refine ⟨hpeer, ⟨?_, ?_, ?_, ?_⟩, by rw [hpeer], by rw [hpeer]⟩
  · show ((afterBytes bs (afterByte s.params.devAddr (afterStart s))).env).acks = []
    rw [afterBytes_env]; simp [afterByte, he, hac]
  · show ((afterBytes bs (afterByte s.params.devAddr (afterStart s))).env).startHeld = []
    rw [afterBytes_env]; simp [afterByte, he, hst]
  · show ((afterBytes bs (afterByte s.params.devAddr (afterStart s))).env).stopHeld.tail = []
    rw [afterBytes_env]; simp [afterByte, he, hsh]
  · show ((afterBytes bs (afterByte s.params.devAddr (afterStart s))).env).power = []
    rw [afterBytes_env]; simp [afterByte, he, hpw]

end Sys2Proof.Machine
end

