-- ==== Sys2Proof/Laws/Trace.lean ====
section
/-! SUPPORT. What bytes, transactions and compositions add to the traces. -/

namespace Sys2Proof.Machine

variable {s t u : State} {b : Byte} {bs : List Byte} {ps qs : List (List Byte)}

/-! ### Bytes in a row -/

/-- The bytes of a run with the acknowledges the environment gives them. -/
def sentBytes : List Byte → State → List (Byte × Bool)
  | [], _ => []
  | b :: bs, s => (b, s.peerPulls b) :: sentBytes bs (afterByte b s)

@[simp] theorem sentBytes_fst (bs : List Byte) (s : State) : (sentBytes bs s).map Prod.fst = bs := by
  induction bs generalizing s with
  | nil => rfl
  | cons b bs ih => simp [sentBytes, ih]

theorem afterBytes_line (bs : List Byte) (s : State) :
    (afterBytes bs s).line = ((sentBytes bs s).flatMap fun x => byteFrame x.1 x.2).reverse ++ s.line := by
  induction bs generalizing s with
  | nil => rfl
  | cons b bs ih => rw [afterBytes_cons, ih]; simp [sentBytes, afterByte]

theorem afterBytes_bytes (bs : List Byte) (s : State) :
    (afterBytes bs s).bytes = ((sentBytes bs s).map fun x => ByteEvent.byte x.1 x.2).reverse ++ s.bytes := by
  induction bs generalizing s with
  | nil => rfl
  | cons b bs ih => rw [afterBytes_cons, ih]; simp [sentBytes, afterByte]

theorem afterBytes_ack (b : Byte) (bs : List Byte) (s : State) :
    ((sentBytes (b :: bs) s).getLast?).map Prod.snd = some (afterBytes (b :: bs) s).ack := by
  induction bs generalizing s b with
  | nil => rfl
  | cons c cs ih =>
    rw [afterBytes_cons, ← ih c (afterByte b s)]
    simp [sentBytes, List.getLast?_cons]

/-- What bytes in a row leave alone. -/
theorem afterBytes_frame (bs : List Byte) (s : State) :
    s.sameHost (afterBytes bs s) ∧ (afterBytes bs s).result = s.result := by
  induction bs generalizing s with
  | nil => exact ⟨⟨rfl, rfl, rfl, rfl, rfl⟩, rfl⟩
  | cons b bs ih => exact ih (afterByte b s)

theorem afterBytes_answered (ha : Answering s) : ∀ x ∈ sentBytes bs s, x.2 = true := by
  induction bs generalizing s with
  | nil => simp [sentBytes]
  | cons b bs ih =>
    intro x hx
    rcases List.mem_cons.mp hx with rfl | hx
    · exact answering_pulls ha b
    · exact ih (answering_afterByte ha b) x hx

/-! ### Transactions -/

/-- The bytes of a transaction with their acknowledges. -/
def sentTxn (payload : List Byte) (s : State) : List (Byte × Bool) :=
  sentBytes (s.params.devAddr :: payload) (afterStart s)

theorem afterTxn_frame (p : List Byte) (s : State) :
    s.sameHost (afterTxn p s) ∧ (afterTxn p s).result = s.result :=
  afterBytes_frame (s.params.devAddr :: p) (afterStart s)

theorem afterTxn_params (p : List Byte) (s : State) : (afterTxn p s).params = s.params := (afterTxn_frame p s).1.1

theorem afterTxn_line (p : List Byte) (s : State) :
    (afterTxn p s).line = (txnFrame (sentTxn p s)).reverse ++ s.line := by
  show stopFrame.reverse ++ (afterBytes (s.params.devAddr :: p) (afterStart s)).line = _
  rw [afterBytes_line]
  simp [txnFrame, sentTxn, afterStart]

theorem afterTxn_bytes (p : List Byte) (s : State) :
    (afterTxn p s).bytes = (txnBytes (sentTxn p s)).reverse ++ s.bytes := by
  show ByteEvent.stop :: (afterBytes (s.params.devAddr :: p) (afterStart s)).bytes = _
  rw [afterBytes_bytes]
  simp [txnBytes, sentTxn, afterStart]

/-- A whole transaction sends its payload. -/
theorem sends_afterTxn (p : List Byte) (s : State) : Sends s (afterTxn p s) [p] := by
  refine ⟨[sentTxn p s], by simp [sentTxn], ?_, ?_, ?_⟩
  · simp [State.lineTrace, afterTxn_line]
  · simp [State.byteTrace, afterTxn_bytes]
  · rw [List.flatten_singleton]
    exact afterBytes_ack s.params.devAddr p (afterStart s)

/-- Transactions in a row. -/
theorem sends_trans (h1 : Sends s t ps) (hp : t.params = s.params) (h2 : Sends t u qs) :
    Sends s u (ps ++ qs) := by
  obtain ⟨x, hx, hxl, hxb, -⟩ := h1
  obtain ⟨y, hy, hyl, hyb, hya⟩ := h2
  refine ⟨x ++ y, by simp [hx, hy, hp], by simp [hyl, hxl], by simp [hyb, hxb], ?_⟩
  have hne : y.flatten ≠ [] := by
    intro h
    rw [h] at hya
    simp at hya
  rw [List.flatten_append, List.getLast?_append_of_ne_nil _ hne, hya]

/-- In a transaction to a hearing peer every byte is acknowledged. -/
theorem sentTxn_acked (hr : s.reference) (hon : s.peer.on = true) (p : List Byte) :
    sentTxn p s = (s.params.devAddr :: p).map fun b => (b, true) := by
  obtain ⟨h1, h2⟩ := hearing_address hr hon
  have h3 := afterBytes_answered (bs := p) h2
  have h4 : ∀ x ∈ sentTxn p s, x.2 = true := by
    intro x hx
    rcases List.mem_cons.mp hx with rfl | hx
    · exact h1
    · exact h3 x hx
  have h5 : (sentTxn p s).map Prod.fst = s.params.devAddr :: p := by simp [sentTxn]
  rw [← h5, List.map_map]
  refine (List.map_id _).symm.trans (List.map_congr_left fun x hx => ?_)
  exact Prod.ext rfl (h4 x hx)

/-! ### Checked payloads (41_protocol.md R160) -/

/-- A checked payload in a flowing environment: sent whole with every byte acknowledged, or up to and with the first
byte that is not, and STOP in both cases. -/
theorem sendPayload_checked (bs : List Byte) (h : s.flows) :
    (sendPayload true bs s = (afterStop (afterBytes bs s), .status .ok) ∧ ∀ x ∈ sentBytes bs s, x.2 = true) ∨
    ∃ pre b post, bs = pre ++ b :: post ∧ (∀ x ∈ sentBytes pre s, x.2 = true) ∧
      (afterBytes pre s).peerPulls b = false ∧
      sendPayload true bs s = (afterStop (afterBytes (pre ++ [b]) s), .status .nack) := by
  induction bs generalizing s with
  | nil => exact .inl ⟨rfl, by simp [sentBytes]⟩
  | cons b bs ih =>
    rw [sendPayload, shift9_of_flows b h]
    cases hb : s.peerPulls b with
    | false => exact .inr ⟨[], b, bs, rfl, by simp [sentBytes], hb, by simp [nackTaken, takeNack, stopOp_eq]; rfl⟩
    | true =>
      simp only [nackTaken, Bool.not_true, Bool.and_false, Bool.false_eq_true, if_false]
      rcases ih (afterByte_flows h) with ⟨h1, h2⟩ | ⟨pre, c, post, h1, h2, h3, h4⟩
      · refine .inl ⟨h1, fun x hx => ?_⟩
        rcases List.mem_cons.mp hx with rfl | hx
        · exact hb
        · exact h2 x hx
      · refine .inr ⟨b :: pre, c, post, by simp [h1], fun x hx => ?_, h3, h4⟩
        rcases List.mem_cons.mp hx with rfl | hx
        · exact hb
        · exact h2 x hx

/-! ### Counts (40_bus.md R145) -/

/-- Line events, samples and releases of the clock in a row of byte frames. -/
theorem byteFrames_counts (l : List (Byte × Bool)) :
    (l.flatMap fun x => byteFrame x.1 x.2).length = 37 * l.length ∧
    samples (l.flatMap fun x => byteFrame x.1 x.2) = l.length ∧
    (l.flatMap fun x => byteFrame x.1 x.2).count (.scl true) = 9 * l.length := by
  induction l with
  | nil => exact ⟨rfl, rfl, rfl⟩
  | cons x l ih =>
    obtain ⟨h1, h2, h3⟩ := ih
    have e1 : (byteFrame x.1 x.2).length = 37 := rfl
    have e2 : samples (byteFrame x.1 x.2) = 1 := rfl
    have e3 : (byteFrame x.1 x.2).count (.scl true) = 9 := by
      simp [byteFrame, msbFirst, bitFrame, ackFrame]
    simp only [samples] at h2 e2 ⊢
    simp only [List.flatMap_cons, List.length_append, List.countP_append, List.count_append, List.length_cons]
    omega

/-- A byte frame is nine clock pulses, whatever follows it. -/
theorem clockPulses_byteFrame (b : Byte) (k : Bool) (es : List LineEvent) :
    clockPulses (byteFrame b k ++ es) = 9 + clockPulses es := by
  simp [byteFrame, msbFirst, bitFrame, ackFrame, clockPulses]
  omega

theorem clockPulses_byteFrames (l : List (Byte × Bool)) (es : List LineEvent) :
    clockPulses ((l.flatMap fun x => byteFrame x.1 x.2) ++ es) = 9 * l.length + clockPulses es := by
  induction l with
  | nil => simp
  | cons x l ih =>
    rw [List.flatMap_cons, List.append_assoc, clockPulses_byteFrame, ih, List.length_cons]
    omega

/-- A byte frame begun with the clock held low drives the data line only then, and ends that way. -/
theorem dataOnlyWhileClockLow_byteFrame (b : Byte) (k : Bool) (es : List LineEvent) :
    dataOnlyWhileClockLow true (byteFrame b k ++ es) = dataOnlyWhileClockLow true es := by
  simp [byteFrame, msbFirst, bitFrame, ackFrame, dataOnlyWhileClockLow]

theorem dataOnlyWhileClockLow_byteFrames (l : List (Byte × Bool)) :
    dataOnlyWhileClockLow true (l.flatMap fun x => byteFrame x.1 x.2) = true := by
  induction l with
  | nil => rfl
  | cons x l ih => rw [List.flatMap_cons, dataOnlyWhileClockLow_byteFrame, ih]

end Sys2Proof.Machine
end

