-- ==== Sys2Proof/Laws/Exec.lean ====
section
/-! SUPPORT. The guards of the meanings, and what the transactions of an operation are in the environments in which it
completes: the lemmas a proof about one instruction cites. -/

namespace Sys2Proof.Machine

variable {s t u : State} {a : Answer} {bs cs ds : List Byte}

/-! ### Guards -/

theorem whenFree_of_free (h : s.hung = false) : whenFree s a = a := by simp [whenFree, h]

theorem whenIdle_of_ready (h : s.ready) : whenIdle s a = a := by simp [whenIdle, whenFree, h.1, h.2]

theorem whenOpen_of_readyOpen (h : s.readyOpen) : whenOpen s a = a := by simp [whenOpen, whenFree, h.1, h.2]

/-- Idle is not Open. -/
theorem not_open_of_idle (h : s.isIdle = true) : s.isOpen = false := by
  simp [State.isIdle, State.isOpen] at *; simp [h.1]

theorem not_idle_of_open (h : s.isOpen = true) : s.isIdle = false := by
  simp [State.isIdle, State.isOpen] at *; simp [h.1]

theorem whenOpen_of_ready (h : s.ready) : whenOpen s a = .refused .notOpen := by
  simp [whenOpen, whenFree, h.1, not_open_of_idle h.2]

theorem whenIdle_of_readyOpen (h : s.readyOpen) : whenIdle s a = .refused .notIdle := by
  simp [whenIdle, whenFree, h.1, not_idle_of_open h.2]

theorem whenFree_of_hung (h : s.hung = true) : whenFree s a = .refused .busy := by simp [whenFree, h]

theorem whenIdle_of_hung (h : s.hung = true) : whenIdle s a = .refused .busy := whenFree_of_hung h

theorem whenOpen_of_hung (h : s.hung = true) : whenOpen s a = .refused .busy := whenFree_of_hung h

/-- What a guard can answer: a refusal, or what it guards, in a state that meets it. -/
theorem whenFree_next (h : whenFree s a = .next t) : s.hung = false ∧ a = .next t := by
  unfold whenFree at h
  split at h <;> simp_all

theorem whenIdle_next (h : whenIdle s a = .next t) : s.ready ∧ a = .next t := by
  obtain ⟨h1, h2⟩ := whenFree_next h
  split at h2
  · exact ⟨⟨h1, ‹_›⟩, h2⟩
  · simp at h2

theorem whenOpen_next (h : whenOpen s a = .next t) : s.readyOpen ∧ a = .next t := by
  obtain ⟨h1, h2⟩ := whenFree_next h
  split at h2
  · exact ⟨⟨h1, ‹_›⟩, h2⟩
  · simp at h2

theorem whenLegal_next {p : Option Refusal} (h : whenLegal p a = .next t) : p = none ∧ a = .next t := by
  cases p <;> simp_all [whenLegal]

/-! ### Legal operands -/

/-- MARQUEE's and BUNGEE's operands are legal exactly under R203's precondition. -/
theorem marqueeProblem_none {x : BitVec 7} {width : Byte} {msg : List Byte} {offset : BitVec 16} :
    marqueeProblem x width msg offset = none ↔
      1 ≤ width.toNat ∧ x.toNat + width.toNat ≤ 128 ∧ 1 ≤ msg.length ∧ msg.length < 256 ∧
        offset.toNat < 8 * msg.length := by
  have hN : Config.nCols = 128 := rfl
  unfold marqueeProblem
  constructor
  · intro h
    repeat' split at h
    all_goals simp only [reduceCtorEq] at h
    simp only [bitLength] at *
    omega
  · intro h
    rw [if_neg (by omega), if_neg (by omega), if_neg (by omega), if_neg (by simp only [bitLength]; omega)]

/-- WOBBLE's operands are legal exactly under R220's precondition. -/
theorem wobbleProblem_none {x : BitVec 7} {y : BitVec 3} {msg : List Byte} :
    wobbleProblem x y msg = none ↔ 1 ≤ msg.length ∧ x.toNat + 8 * msg.length ≤ 128 ∧ y ≠ 7 := by
  have hN : Config.nCols = 128 := rfl
  unfold wobbleProblem
  constructor
  · intro h
    repeat' split at h
    all_goals simp only [reduceCtorEq] at h
    simp only [bitLength] at *
    exact ⟨by omega, by omega, ‹_›⟩
  · intro h
    rw [if_neg (by omega), if_neg (by simp only [bitLength]; omega), if_neg h.2.2]

/-- WRITEBYTES's count fits 16 bits. -/
theorem writeProblem_none {src : List Byte} : writeProblem src = none ↔ src.length < 65536 := by
  unfold writeProblem
  split <;> simp <;> omega

/-! ### Transactions of an operation that runs to its end -/

/-- A transaction leaves a reference peer's answers and power as they are. -/
theorem afterTxn_reference (h : s.reference) (bs : List Byte) :
    (afterTxn bs s).reference ∧ (afterTxn bs s).peer.on = s.peer.on := by
  obtain ⟨hp, he⟩ := reference_afterStart h
  obtain ⟨hac, hst, hsh, hpw⟩ := h
  refine ⟨⟨?_, ?_, ?_, ?_⟩, ?_⟩
  · show ((afterBytes (s.params.devAddr :: bs) (afterStart s)).env).acks = []
    rw [afterBytes_env]; simp [he, hac]
  · show ((afterBytes (s.params.devAddr :: bs) (afterStart s)).env).startHeld = []
    rw [afterBytes_env]; simp [he, hst]
  · show ((afterBytes (s.params.devAddr :: bs) (afterStart s)).env).stopHeld.tail = []
    rw [afterBytes_env]; simp [he, hsh]
  · show ((afterBytes (s.params.devAddr :: bs) (afterStart s)).env).power = []
    rw [afterBytes_env]; simp [he, hpw]
  · show ((afterBytes (s.params.devAddr :: bs) (afterStart s)).peer.stopSeen _).on = _
    rw [Peer.stopSeen_on, afterBytes_on, hp]

/-- A transaction leaves the block Idle. -/
theorem afterTxn_idle (bs : List Byte) (s : State) :
    (afterTxn bs s).isIdle = true ∧ (afterTxn bs s).wire = .idle := ⟨rfl, rfl⟩

/-- A transaction keeps what the next one needs to be sent whole. -/
theorem afterTxn_unhindered (h : s.unhindered) (bs : List Byte) : (afterTxn bs s).unhindered := by
  obtain ⟨hr, hf, hp⟩ := h
  refine ⟨⟨?_, rfl⟩, afterTxn_flows hf, ?_⟩
  · rw [(afterTxn_frame bs s).1.2.2.2.2]; exact hr.1
  · rw [afterTxn_params]
    refine hp.imp id fun ha => ?_
    have := afterTxn_reference ha.1 bs
    exact ⟨this.1, this.2.trans ha.2⟩

/-- A transaction of an operation other than INIT is sent whole and its status is OK (60_exceptions.md R251). -/
theorem txn_of_unhindered (h : s.unhindered) (bs : List Byte) :
    txn (checks s.params.ackPolicy .otherOp) bs s = (afterTxn bs s, .status .ok) := by
  obtain ⟨-, hf, hp⟩ := h
  rcases hp with hp | ha
  · have hc : checks s.params.ackPolicy .otherOp = false := by
      cases hq : s.params.ackPolicy <;> simp_all [checks]
    rw [hc]
    exact txn_unchecked bs hf
  · exact txn_hearing _ bs hf ha.1 ha.2

theorem cmdTxn_of_unhindered (h : s.unhindered) (cs : List Byte) :
    cmdTxn .otherOp cs s = (afterTxn (cmdPayload cs) s, .status .ok) := txn_of_unhindered h _

theorem dataTxn_of_unhindered (h : s.unhindered) (ds : List Byte) :
    dataTxn .otherOp ds s = (afterTxn (dataPayload ds) s, .status .ok) := txn_of_unhindered h _

/-- Addressing and then data: the renderers' pair (43_animation.md R203), sent whole. -/
theorem window_write_of_unhindered (h : s.unhindered) (page : BitVec 3) (column : BitVec 7) (ds : List Byte) :
    andThen (windowOp page column s) (writeOp ds) =
      (afterTxn (dataPayload ds) (afterTxn (cmdPayload (windowCommands page column)) s), .status .ok) := by
  rw [windowOp, cmdTxn_of_unhindered h]
  exact dataTxn_of_unhindered (afterTxn_unhindered h _) ds

/-- CLEAR's two transactions, sent whole. -/
theorem clearOp_of_unhindered (h : s.unhindered) :
    clearOp s = (afterTxn (dataPayload clearData) (afterTxn (cmdPayload clearCommands) s), .status .ok) := by
  rw [clearOp, cmdTxn_of_unhindered h]
  exact dataTxn_of_unhindered (afterTxn_unhindered h _) _

/-- What a hearing peer gives: nothing hinders. -/
theorem unhindered_of_hearing (hr : s.ready) (hf : s.flows) (hh : s.hearing) : s.unhindered :=
  ⟨hr, hf, .inr ⟨hh.1, hh.2.1⟩⟩

/-- Two transactions in a row send both payloads. -/
theorem sends_two (p q : List Byte) (s : State) : Sends s (afterTxn q (afterTxn p s)) [p, q] :=
  sends_trans (sends_afterTxn p s) (afterTxn_params p s) (sends_afterTxn q _)

/-- `Sends` looks at the traces and the last acknowledge alone. -/
theorem sends_congr {ps : List (List Byte)} (h : Sends s t ps) (hl : u.line = t.line) (hb : u.bytes = t.bytes)
    (ha : u.ack = t.ack) : Sends s u ps := by
  simpa [Sends, State.lineTrace, State.byteTrace, hl, hb, ha] using h

theorem sameHost_trans (h1 : s.sameHost t) (h2 : t.sameHost u) : s.sameHost u := by
  obtain ⟨a1, a2, a3, a4, a5⟩ := h1
  obtain ⟨b1, b2, b3, b4, b5⟩ := h2
  exact ⟨b1.trans a1, b2.trans a2, b3.trans a3, b4.trans a4, b5.trans a5⟩

/-! ### Operations that run to their end, said once -/

/-- One transaction of an operation other than INIT: what it is and what it leaves. -/
theorem txn_sends (h : s.unhindered) (bs : List Byte) :
    ∃ t, txn (checks s.params.ackPolicy .otherOp) bs s = (t, .status .ok) ∧ Sends s t [bs] ∧ s.sameHost t ∧
      t.isIdle = true ∧ t.unhindered :=
  ⟨_, txn_of_unhindered h bs, sends_afterTxn bs s, (afterTxn_frame bs s).1, (afterTxn_idle bs s).1,
    afterTxn_unhindered h bs⟩

/-- A composition whose first part ends OK. -/
theorem andThen_sends {r : State × OpEnd} {k : State → State × OpEnd} {ps qs : List (List Byte)}
    (hr : ∃ t, r = (t, .status .ok) ∧ Sends s t ps ∧ s.sameHost t ∧ t.isIdle = true ∧ t.unhindered)
    (hk : ∀ t, t.unhindered → t.params = s.params →
      ∃ u, k t = (u, .status .ok) ∧ Sends t u qs ∧ t.sameHost u ∧ u.isIdle = true ∧ u.unhindered) :
    ∃ u, andThen r k = (u, .status .ok) ∧ Sends s u (ps ++ qs) ∧ s.sameHost u ∧ u.isIdle = true ∧ u.unhindered := by
  obtain ⟨t, rfl, h1, h2, -, h4⟩ := hr
  obtain ⟨u, hu, h5, h6, h7, h8⟩ := hk t h4 h2.1
  exact ⟨u, hu, sends_trans h1 h2.1 h5, sameHost_trans h2 h6, h7, h8⟩

/-- CLEAR (41_protocol.md R170). -/
theorem clearOp_sends (h : s.unhindered) :
    ∃ t, clearOp s = (t, .status .ok) ∧ Sends s t [cmdPayload clearCommands, dataPayload clearData] ∧
      s.sameHost t ∧ t.isIdle = true ∧ t.unhindered :=
  andThen_sends (txn_sends h _) fun _ ht _ => txn_sends ht _

/-- Addressing and then data (43_animation.md R203, R210). -/
theorem window_write_sends (h : s.unhindered) (page : BitVec 3) (column : BitVec 7) (ds : List Byte) :
    ∃ t, andThen (windowOp page column s) (writeOp ds) = (t, .status .ok) ∧
      Sends s t [cmdPayload (windowCommands page column), dataPayload ds] ∧ s.sameHost t ∧ t.isIdle = true ∧
      t.unhindered :=
  andThen_sends (txn_sends h _) fun _ ht _ => txn_sends ht _

/-- WOBBLE's four transactions (R220). -/
theorem wobble_sends (h : s.unhindered) (y y' : BitVec 3) (x : BitVec 7) (up lo : List Byte) :
    ∃ t, andThen (andThen (andThen (windowOp y x s) (writeOp up)) (windowOp y' x)) (writeOp lo) = (t, .status .ok) ∧
      Sends s t [cmdPayload (windowCommands y x), dataPayload up, cmdPayload (windowCommands y' x), dataPayload lo] ∧
      s.sameHost t ∧ t.isIdle = true ∧ t.unhindered :=
  andThen_sends (andThen_sends (window_write_sends h y x up) fun _ ht _ => txn_sends ht _) fun _ ht _ => txn_sends ht _

/-! ### Command sequences as bytes -/

/-- SETPAGEWINDOW's payload, its fields OR'd into their bases (30_encoding.md R98, R99). -/
theorem windowPayload_eq (page : BitVec 3) (column : BitVec 7) : cmdPayload (windowCommands page column) =
    [0x00, 0x20, 0x02, 0xB0 ||| page.setWidth 8, 0x10 ||| (column >>> 4).setWidth 8,
      0x00 ||| (column.setWidth 8 &&& 0x0F)] := by
  have h1 : (columnHi column).setWidth 8 = (column >>> 4).setWidth 8 := by
    apply BitVec.eq_of_toNat_eq
    have := column.isLt
    simp only [columnHi, BitVec.toNat_setWidth, BitVec.toNat_ushiftRight, Nat.shiftRight_eq_div_pow]
    omega
  have h2 : (columnLo column).setWidth 8 = column.setWidth 8 &&& 0x0F := by
    apply BitVec.eq_of_toNat_eq
    have := column.isLt
    simp only [columnLo, BitVec.toNat_setWidth, BitVec.toNat_and]
    rw [show (BitVec.toNat (0x0F : BitVec 8)) = 2 ^ 4 - 1 from rfl, Nat.and_two_pow_sub_one_eq_mod]
    omega
  rw [← h1, ← h2]
  rfl

/-- The two nibbles of a column, put together, are the column (30_encoding.md R99). -/
theorem columnHi_append_columnLo (column : BitVec 7) : columnHi column ++ columnLo column = column := by
  apply BitVec.eq_of_toNat_eq
  have := column.isLt
  rw [BitVec.toNat_append, ← Nat.shiftLeft_add_eq_or_of_lt (columnLo column).isLt, Nat.shiftLeft_eq]
  simp only [columnHi, columnLo, BitVec.toNat_setWidth, BitVec.toNat_ushiftRight, Nat.shiftRight_eq_div_pow]
  omega

/-! ### Checked transactions (41_protocol.md R160, R164) -/

theorem sentBytes_snoc (pre : List Byte) (b : Byte) (s : State) :
    sentBytes (pre ++ [b]) s = sentBytes pre s ++ [(b, (afterBytes pre s).peerPulls b)] := by
  induction pre generalizing s with
  | nil => rfl
  | cons c cs ih => simp [sentBytes, ih, afterBytes_cons]

/-- A checked transaction in a flowing environment: sent whole, every byte acknowledged; or up to and with the first byte
that is not, and STOP. -/
theorem txn_checked (bs : List Byte) (hf : s.flows) :
    (txn true bs s = (afterTxn bs s, .status .ok) ∧ ∀ x ∈ sentTxn bs s, x.2 = true) ∨
    ∃ t sent, txn true bs s = (t, .status .nack) ∧ t.line = (txnFrame sent).reverse ++ s.line ∧
      t.bytes = (txnBytes sent).reverse ++ s.bytes ∧ s.sameHost t ∧ t.isIdle = true ∧
      (∃ pre b, sent = pre ++ [(b, false)] ∧ ∀ x ∈ pre, x.2 = true) ∧
      sent.map Prod.fst <+: s.params.devAddr :: bs := by
  have h0 : txn true bs s = sendPayload true (s.params.devAddr :: bs) (afterStart s) := by
    rw [txn, startOp]; rfl
  rw [h0]
  rcases sendPayload_checked (s.params.devAddr :: bs) (afterStart_flows hf) with
    ⟨h1, h2⟩ | ⟨pre, b, post, h1, h2, h3, h4⟩
  · exact .inl ⟨h1, h2⟩
  · refine .inr ⟨_, sentBytes (pre ++ [b]) (afterStart s), h4, ?_, ?_, ?_, rfl,
      ⟨sentBytes pre (afterStart s), b, ?_, h2⟩, ?_⟩
    · show stopFrame.reverse ++ (afterBytes _ (afterStart s)).line = _
      rw [afterBytes_line]; simp [txnFrame, afterStart]
    · show ByteEvent.stop :: (afterBytes _ (afterStart s)).bytes = _
      rw [afterBytes_bytes]; simp [txnBytes, afterStart]
    · exact (afterBytes_frame _ (afterStart s)).1
    · rw [sentBytes_snoc, h3]
    · rw [sentBytes_fst, h1]
      exact ⟨post, by simp⟩

end Sys2Proof.Machine
end

