-- ==== Sys2Proof/Laws/Display.lean ====
section
/-! SUPPORT. What runs of payload bytes do to the reference peer's display: data in page mode and in range mode, the
operations' command sequences, and a run one of whose bytes has no meaning. -/

namespace Sys2Proof.Machine

variable {d d' : Display} {s : State} {b : Byte} {bs : List Byte} {pg last : BitVec 3} {c : BitVec 7}

/-! ### Stores -/

theorem stores_nil (h : d'.ram = d.ram) (a : Nat) : d.stores d' a [] := by
  intro x
  rw [h, if_neg (by simp)]

/-- One byte written, and the rest stored behind it. -/
theorem stores_cons {e : Display} {a : Nat} (h : e.ram = Memory.write d.ram a b) (hs : e.stores d' (a + 1) bs) :
    d.stores d' a (b :: bs) := by
  intro x
  rw [hs x, h]
  by_cases hx : x = a
  · subst hx
    rw [if_neg (by omega), if_pos (by simp)]
    simp
  · rw [Memory.read_write_other _ _ _ _ hx]
    by_cases h1 : a + 1 ≤ x ∧ x < a + 1 + bs.length
    · rw [if_pos h1, if_pos (by simp only [List.length_cons]; omega)]
      rw [show x - a = (x - (a + 1)) + 1 by omega]
      simp
    · rw [if_neg h1, if_neg (by simp only [List.length_cons]; omega)]

theorem stores_congr {a a' : Nat} {bs' : List Byte} {e : Display} (h : d.stores d' a bs) (he : e.ram = d.ram)
    (ha : a = a') (hb : bs = bs') : e.stores d' a' bs' := by
  subst ha hb
  intro x
  rw [h x, he]

/-! ### Data in page mode (20_memory.md R79) -/

/-- Data with room in the page. -/
theorem run_data_page (bs : List Byte) (d : Display) (c : BitVec 7) (hm : d.mode = some .pageMode)
    (hp : d.page = some pg) (hc : d.col = some c) (hl : c.toNat + bs.length ≤ 128) :
    ∃ d', Display.run .data bs d = some d' ∧ d.stores d' (dispAddr pg c) bs ∧
      d' = { d with
        ram := d'.ram
        col := if c.toNat + bs.length < 128 then some (BitVec.ofNat 7 (c.toNat + bs.length)) else none } := by
  induction bs generalizing d c with
  | nil =>
    refine ⟨d, rfl, stores_nil rfl _, ?_⟩
    have hcl : c.toNat < 128 := c.isLt
    rw [List.length_nil, Nat.add_zero, if_pos hcl, BitVec.ofNat_toNat, BitVec.setWidth_eq, ← hc]
  | cons b bs ih =>
    simp only [List.length_cons] at hl
    have hdata : d.data b = some (stepPageMode { d with ram := Memory.write d.ram (dispAddr pg c) b } c) := by
      simp [Display.data, hp, hc, hm]
    by_cases hlt : c.toNat < 127
    · have hstep : stepPageMode { d with ram := Memory.write d.ram (dispAddr pg c) b } c =
          { d with ram := Memory.write d.ram (dispAddr pg c) b, col := some (c + 1) } := by
        simp [stepPageMode, hlt]
      have hc1 : (c + 1).toNat = c.toNat + 1 := by
        rw [BitVec.toNat_add]; simp; omega
      obtain ⟨d', h1, h2, h3⟩ := ih { d with ram := Memory.write d.ram (dispAddr pg c) b, col := some (c + 1) } (c + 1)
        hm hp rfl (by rw [hc1]; omega)
      refine ⟨d', ?_, ?_, ?_⟩
      · simp only [Display.run, Display.take, hdata, hstep, Option.bind_some, StreamPos.next]
        exact h1
      · refine stores_cons (e := { d with ram := Memory.write d.ram (dispAddr pg c) b, col := some (c + 1) }) rfl ?_
        exact stores_congr h2 rfl (by simp only [dispAddr, hc1]; omega) rfl
      · rw [h3, hc1]
        simp only [List.length_cons]
        rw [show c.toNat + 1 + bs.length = c.toNat + (bs.length + 1) by omega]
    · have hb : bs = [] := List.length_eq_zero_iff.mp (by omega)
      subst hb
      have hstep : stepPageMode { d with ram := Memory.write d.ram (dispAddr pg c) b } c =
          { d with ram := Memory.write d.ram (dispAddr pg c) b, col := none } := by
        simp [stepPageMode, hlt]
      refine ⟨{ d with ram := Memory.write d.ram (dispAddr pg c) b, col := none }, ?_, ?_, ?_⟩
      · simp [Display.run, Display.take, hdata, hstep]
      · exact stores_cons (e := { d with ram := Memory.write d.ram (dispAddr pg c) b, col := none }) rfl
          (stores_nil rfl _)
      · have : ¬(c.toNat + 1 < 128) := by omega
        simp [this]

/-- Data that runs past column 127 has no meaning (93_implementation_defined.md U17). -/
theorem run_data_page_past (bs : List Byte) (d : Display) (c : BitVec 7) (hm : d.mode = some .pageMode)
    (hp : d.page = some pg) (hc : d.col = some c) (hl : 128 < c.toNat + bs.length) : Display.run .data bs d = none := by
  induction bs generalizing d c with
  | nil => have := c.isLt; simp at hl; omega
  | cons b bs ih =>
    have hdata : d.data b = some (stepPageMode { d with ram := Memory.write d.ram (dispAddr pg c) b } c) := by
      simp [Display.data, hp, hc, hm]
    simp only [Display.run, Display.take, hdata, Option.bind_some, StreamPos.next, stepPageMode]
    simp only [List.length_cons] at hl
    split
    · rename_i hlt
      have hc1 : (c + 1).toNat = c.toNat + 1 := by
        rw [BitVec.toNat_add]; simp; omega
      exact ih _ (c + 1) hm hp rfl (by omega)
    · cases bs with
      | nil => have := c.isLt; simp at hl; omega
      | cons b' bs => simp [Display.run, Display.take, Display.data]

/-- A data byte with a pointer or the mode unknown has no meaning (R79). -/
theorem run_data_unknown (h : d.page = none ∨ d.col = none ∨ d.mode = none) :
    Display.run .data (b :: bs) d = none := by
  have : d.data b = none := by
    unfold Display.data
    split <;> simp_all
  simp [Display.run, Display.take, this]

/-! ### Data in range mode with all columns (R79) -/

/-- Data with room in the window, begun inside it: stored in one row of addresses, page after page. -/
theorem run_data_range (bs : List Byte) (d : Display) (pg : BitVec 3) (c : BitVec 7) (hm : d.mode = some .rangeMode)
    (h0 : d.c0 = some 0) (h1 : d.c1 = some 127) (hg : d.g1 = some last) (hp : d.page = some pg) (hc : d.col = some c)
    (hle : pg.toNat ≤ last.toNat) (hl : dispAddr pg c + bs.length ≤ 128 * (last.toNat + 1)) :
    ∃ d', Display.run .data bs d = some d' ∧ d.stores d' (dispAddr pg c) bs ∧
      ∃ page col, d' = { d with ram := d'.ram, page := page, col := col } ∧
        (dispAddr pg c + bs.length = 128 * (last.toNat + 1) → page = none ∧ col = none) := by
  induction bs generalizing d pg c with
  | nil =>
    refine ⟨d, rfl, stores_nil rfl _, d.page, d.col, rfl, fun h => ?_⟩
    have := c.isLt
    simp only [dispAddr, Config.nCols, List.length_nil] at h hl
    omega
  | cons b bs ih =>
    simp only [List.length_cons] at hl
    have hlast := last.isLt
    have hcl := c.isLt
    have hdata : d.data b = some (stepRangeMode { d with ram := Memory.write d.ram (dispAddr pg c) b } pg c) := by
      simp [Display.data, hp, hc, hm, h0, h1]
    by_cases hlt : c.toNat < 127
    · have hstep : stepRangeMode { d with ram := Memory.write d.ram (dispAddr pg c) b } pg c =
          { d with ram := Memory.write d.ram (dispAddr pg c) b, col := some (c + 1) } := by
        simp [stepRangeMode, hlt]
      have hc1 : (c + 1).toNat = c.toNat + 1 := by
        rw [BitVec.toNat_add]; simp; omega
      have ha : dispAddr pg (c + 1) = dispAddr pg c + 1 := by simp only [dispAddr, hc1]; omega
      obtain ⟨d', g1, g2, page, col, g3, g4⟩ := ih
        { d with ram := Memory.write d.ram (dispAddr pg c) b, col := some (c + 1) } pg (c + 1) hm h0 h1 hg hp rfl hle
        (by rw [ha]; omega)
      refine ⟨d', ?_, ?_, page, col, g3, fun h => g4 ?_⟩
      · simp only [Display.run, Display.take, hdata, hstep, Option.bind_some, StreamPos.next]
        exact g1
      · exact stores_cons (e := { d with ram := Memory.write d.ram (dispAddr pg c) b, col := some (c + 1) }) rfl
          (stores_congr g2 rfl ha rfl)
      · rw [ha]; simp only [List.length_cons] at h; omega
    · by_cases hpl : pg < last
      · have hpl' : pg.toNat < last.toNat := hpl
        have hstep : stepRangeMode { d with ram := Memory.write d.ram (dispAddr pg c) b } pg c =
            { d with ram := Memory.write d.ram (dispAddr pg c) b, col := some 0, page := some (pg + 1) } := by
          simp [stepRangeMode, hlt, hg, hpl]
        have hp1 : (pg + 1).toNat = pg.toNat + 1 := by
          rw [BitVec.toNat_add]; simp; omega
        have ha : dispAddr (pg + 1) 0 = dispAddr pg c + 1 := by
          have h00 : (0 : BitVec 7).toNat = 0 := rfl
          simp only [dispAddr, hp1, Config.nCols, h00]; omega
        obtain ⟨d', g1, g2, page, col, g3, g4⟩ := ih
          { d with ram := Memory.write d.ram (dispAddr pg c) b, col := some 0, page := some (pg + 1) } (pg + 1) 0
          hm h0 h1 hg rfl rfl (by omega) (by rw [ha]; omega)
        refine ⟨d', ?_, ?_, page, col, g3, fun h => g4 ?_⟩
        · simp only [Display.run, Display.take, hdata, hstep, Option.bind_some, StreamPos.next]
          exact g1
        · exact stores_cons
            (e := { d with ram := Memory.write d.ram (dispAddr pg c) b, col := some 0, page := some (pg + 1) }) rfl
            (stores_congr g2 rfl ha rfl)
        · rw [ha]; simp only [List.length_cons] at h; omega
      · have hpl' : ¬pg.toNat < last.toNat := hpl
        have hstep : stepRangeMode { d with ram := Memory.write d.ram (dispAddr pg c) b } pg c =
            { d with ram := Memory.write d.ram (dispAddr pg c) b, col := none, page := none } := by
          simp [stepRangeMode, hlt, hg, hpl]
        have hb : bs = [] := List.length_eq_zero_iff.mp (by simp only [dispAddr, Config.nCols] at hl; omega)
        subst hb
        refine ⟨{ d with ram := Memory.write d.ram (dispAddr pg c) b, col := none, page := none }, ?_, ?_,
          none, none, rfl, fun _ => ⟨rfl, rfl⟩⟩
        · simp [Display.run, Display.take, hdata, hstep]
        · exact stores_cons (e := { d with ram := Memory.write d.ram (dispAddr pg c) b, col := none, page := none }) rfl
            (stores_nil rfl _)

/-! ### Payloads -/

theorem run_dataPayload (bs : List Byte) (d : Display) :
    Display.run .control (dataPayload bs) d = Display.run .data bs d := by
  simp [dataPayload, Display.run, Display.take, StreamPos.next, ctrlDataByte, ctrlCommandsByte]

theorem run_cmdPayload (cs : List Byte) (d : Display) :
    Display.run .control (cmdPayload cs) d = Display.run (.command false) cs d := by
  simp [cmdPayload, Display.run, Display.take, StreamPos.next, ctrlCommandsByte]

/-- A one-byte command. -/
theorem run_command0 {u : Bool} {row : CmdRow} (hr : commandRow b = some row) (ho : row.operands = 0) (d : Display) :
    Display.run (.command u) (b :: bs) d =
      (d.obey row.kind b [] u).bind fun d' => Display.run (.command (row.kind = .columnUpper)) bs d' := by
  simp [Display.run, Display.take, StreamPos.next, hr, ho]

/-- A command with one operand byte. -/
theorem run_command1 {u : Bool} {row : CmdRow} {v : Byte} (hr : commandRow b = some row) (ho : row.operands = 1)
    (d : Display) : Display.run (.command u) (b :: v :: bs) d =
      (d.obey row.kind b [v] false).bind fun d' => Display.run (.command false) bs d' := by
  simp [Display.run, Display.take, StreamPos.next, hr, ho]

/-- A command with two operand bytes. -/
theorem run_command2 {u : Bool} {row : CmdRow} {v w : Byte} (hr : commandRow b = some row) (ho : row.operands = 2)
    (d : Display) : Display.run (.command u) (b :: v :: w :: bs) d =
      (d.obey row.kind b [v, w] false).bind fun d' => Display.run (.command false) bs d' := by
  simp [Display.run, Display.take, StreamPos.next, hr, ho]

theorem commandRow_pageStart (page : BitVec 3) : commandRow (pageStartByte page) = some ⟨.pageStart, 0xB0, 0xF8, 0⟩ := by
  revert page; decide

theorem commandRow_columnUpper (hi : BitVec 3) :
    commandRow (columnUpperByte hi) = some ⟨.columnUpper, 0x10, 0xF8, 0⟩ := by
  revert hi; decide

theorem commandRow_columnLower (lo : BitVec 4) :
    commandRow (columnLowerByte lo) = some ⟨.columnLower, 0x00, 0xF0, 0⟩ := by
  revert lo; decide

theorem setWidth_pageStart (page : BitVec 3) : (pageStartByte page).setWidth 3 = page := by revert page; decide

theorem setWidth_columnUpper (hi : BitVec 3) : (columnUpperByte hi).setWidth 3 = hi := by revert hi; decide

theorem setWidth_columnLower (lo : BitVec 4) : (columnLowerByte lo).setWidth 4 = lo := by revert lo; decide

/-- SETPAGEWINDOW's payload points the display (R75 to R77). -/
theorem run_window (page : BitVec 3) (column : BitVec 7) (d : Display) :
    Display.run .control (cmdPayload (windowCommands page column)) d =
      some { d with mode := some .pageMode, page := some page, col := some column, hi := none } := by
  have hm : commandRow 0x20 = some ⟨.addressingMode, 0x20, 0xFF, 1⟩ := by decide
  rw [run_cmdPayload, windowCommands, run_command1 hm rfl]
  simp only [Display.obey, operands1, Option.bind_some, modeOf, if_true]
  rw [run_command0 (commandRow_pageStart page) rfl]
  simp only [Display.obey, operands0, Option.bind_some, setWidth_pageStart]
  rw [run_command0 (commandRow_columnUpper _) rfl]
  simp only [Display.obey, operands0, Option.bind_some, setWidth_columnUpper]
  rw [run_command0 (commandRow_columnLower _) rfl]
  simp only [Display.obey, operands0, Option.bind_some, setWidth_columnLower, Display.run, Display.lowerNibble, decide_true]
  rw [columnHi_append_columnLo]

/-- CLEAR's window: range mode, all columns, pages 0 to 3 (R75, R78). -/
theorem run_clearCommands (d : Display) : Display.run .control (cmdPayload clearCommands) d =
    some { d with mode := some .rangeMode, c0 := some 0, c1 := some 127, g0 := some 0, g1 := some 3
                  page := some 0, col := some 0 } := by
  rw [run_cmdPayload]
  rfl

theorem commandRow_segmentRemap (f : BitVec 1) :
    commandRow (segmentRemapByte f) = some ⟨.segmentRemap, 0xA0, 0xFE, 0⟩ := by
  revert f; decide

theorem commandRow_comScanDir (f : BitVec 1) : commandRow (comScanDirByte f) = some ⟨.comScanDir, 0xC0, 0xF7, 0⟩ := by
  revert f; decide

/-- A configuration command without an operand (R80). -/
theorem run_configure0 {u : Bool} {row : CmdRow} (hr : commandRow b = some row) (ho : row.operands = 0)
    (hk : decide (row.kind = .columnUpper) = false) (hd : ∀ u, d.obey row.kind b [] u = some (d.configure b none)) :
    Display.run (.command u) (b :: bs) d = Display.run (.command false) bs (d.configure b none) := by
  rw [run_command0 hr ho, hd, hk]; rfl

/-- A configuration command with its operand (R80). -/
theorem run_configure1 {u : Bool} {row : CmdRow} {v : Byte} (hr : commandRow b = some row) (ho : row.operands = 1)
    (hd : d.obey row.kind b [v] false = some (d.configure b (some v))) :
    Display.run (.command u) (b :: v :: bs) d = Display.run (.command false) bs (d.configure b (some v)) := by
  rw [run_command1 hr ho, hd]; rfl

theorem run_contrast {u : Bool} {v : Byte} :
    Display.run (.command u) (0x81 :: v :: bs) d = Display.run (.command false) bs { d with contrast := some v } := by
  rw [run_command1 (row := ⟨.contrast, 0x81, 0xFF, 1⟩) (by decide) rfl]; rfl

/-! ### The frame a viewer sees (20_memory.md R81) -/

/-- Right after the INIT sequence, orientation not flipped, the frame is the known bytes of pages 0 to 3. -/
theorem frame_of_init {old : List CfgCommand} (h : d.cfg = old ++ initConfig) :
    d.frame = some ((List.range (Config.nCols * Config.nActivePages)).map (Memory.read d.ram)) := by
  have : holdsInit d.cfg.reverse = true := by
    rw [h]
    simp [initConfig, holdsInit, List.isPrefixOf]
  rw [Display.frame, if_pos this]

/-- Right after an INIT with an orientation flipped, no frame is given. -/
theorem frame_of_flipped {old : List CfgCommand} {remap scan : Byte} (h : d.cfg = old ++ [⟨0xA8, some 0x1F⟩,
      ⟨0xD3, some 0x00⟩, ⟨0x40, none⟩, ⟨remap, none⟩, ⟨scan, none⟩, ⟨0xDA, some 0x02⟩, ⟨0xA4, none⟩, ⟨0xA6, none⟩,
      ⟨0xD5, some 0x80⟩, ⟨0x8D, some 0x14⟩, ⟨0xAF, none⟩])
    (hf : (remap = 0xA1 ∧ scan = 0xC0) ∨ (remap = 0xA0 ∧ scan = 0xC8) ∨ (remap = 0xA1 ∧ scan = 0xC8)) :
    d.frame = none := by
  have : holdsInit d.cfg.reverse = false := by
    rw [h]
    rcases hf with ⟨rfl, rfl⟩ | ⟨rfl, rfl⟩ | ⟨rfl, rfl⟩ <;> simp [initConfig, holdsInit, List.isPrefixOf]
  rw [Display.frame, this]
  rfl

/-- INIT's commands, one after the other (R80). -/
theorem run_initCommands_chain (p : Params) (d : Display) :
    Display.run (.command false) (initCommands p) d = some
      (({ ((((((d.configure 0xA8 (some 0x1F)).configure 0xD3 (some 0x00)).configure 0x40 none).configure
        (segmentRemapByte (BitVec.ofBool p.flipSeg)) none).configure
        (comScanDirByte (BitVec.ofBool p.flipCom)) none).configure 0xDA (some 0x02)) with
        contrast := some 0x7F }.configure 0xA4 none).configure 0xA6 none |>.configure 0xD5 (some 0x80)
        |>.configure 0x8D (some 0x14) |>.configure 0xAF none) := by
  rw [initCommands, run_configure1 (row := ⟨.muxRatio, 0xA8, 0xFF, 1⟩) (by decide) rfl rfl,
    run_configure1 (row := ⟨.displayOffset, 0xD3, 0xFF, 1⟩) (by decide) rfl rfl,
    run_configure0 (row := ⟨.startLine, 0x40, 0xFF, 0⟩) (by decide) rfl rfl fun _ => rfl,
    run_configure0 (commandRow_segmentRemap _) rfl rfl fun _ => rfl,
    run_configure0 (commandRow_comScanDir _) rfl rfl fun _ => rfl,
    run_configure1 (row := ⟨.comPins, 0xDA, 0xFF, 1⟩) (by decide) rfl rfl,
    run_contrast,
    run_configure0 (row := ⟨.entireDisplayOn, 0xA4, 0xFE, 0⟩) (by decide) rfl rfl fun _ => rfl,
    run_configure0 (row := ⟨.normalInverted, 0xA6, 0xFE, 0⟩) (by decide) rfl rfl fun _ => rfl,
    run_configure1 (row := ⟨.oscFreq, 0xD5, 0xFF, 1⟩) (by decide) rfl rfl,
    run_configure1 (row := ⟨.chargePump, 0x8D, 0xFF, 1⟩) (by decide) rfl rfl,
    run_configure0 (row := ⟨.displayOnOff, 0xAE, 0xFE, 0⟩) (by decide) rfl rfl fun _ => rfl]
  rfl

/-- INIT's payload sets the contrast and lists the other commands (R80). -/
theorem run_initCommands (p : Params) (d : Display) :
    Display.run .control (cmdPayload (initCommands p)) d = some { d with
      contrast := some 0x7F
      cfg := d.cfg ++ [⟨0xA8, some 0x1F⟩, ⟨0xD3, some 0x00⟩, ⟨0x40, none⟩,
        ⟨segmentRemapByte (BitVec.ofBool p.flipSeg), none⟩, ⟨comScanDirByte (BitVec.ofBool p.flipCom), none⟩,
        ⟨0xDA, some 0x02⟩, ⟨0xA4, none⟩, ⟨0xA6, none⟩, ⟨0xD5, some 0x80⟩, ⟨0x8D, some 0x14⟩, ⟨0xAF, none⟩] } := by
  rw [run_cmdPayload, run_initCommands_chain]
  simp only [Display.configure, List.append_assoc, List.cons_append, List.nil_append]

theorem clearData_length : clearData.length = 512 := by
  rw [clearData, List.length_replicate]; rfl

/-! ### Runs with a byte that has no meaning -/

/-- Once lost, a peer stays unknown until STOP. -/
theorem afterBytes_lost (bs : List Byte) (s : State) (hw : s.wire ≠ .address) (hi : s.wire ≠ .idle)
    (h : s.peer.synced = false ∧ s.peer.disp = .unknown) :
    (afterBytes bs s).peer.synced = false ∧ (afterBytes bs s).peer.disp = .unknown := by
  induction bs generalizing s with
  | nil => exact h
  | cons b bs ih =>
    have hn := StreamPos.next_inside s.wire b hi
    refine ih (afterByte b s) hn.2 hn.1 ?_
    show (s.peer.receive _ _ _ _).synced = false ∧ (s.peer.receive _ _ _ _).disp = _
    rw [Peer.receive_payload hw]
    split
    · simp [Peer.take, h.1, h.2]
    · simp [Peer.lost]

/-- A run one of whose bytes has no meaning leaves nothing known. -/
theorem afterBytes_run_none (ha : Answering s) (hs : s.peer.synced = true)
    (hr : Display.run s.wire bs s.peer.disp = none) : (afterBytes bs s).peer.disp = .unknown := by
  induction bs generalizing s with
  | nil => simp [Display.run] at hr
  | cons b bs ih =>
    have hp := answering_pulls ha b
    have ha' := answering_afterByte ha b
    obtain ⟨hacks, hon, had, hw, hi⟩ := ha
    have hpe : (afterByte b s).peer = s.peer.take s.wire b := by
      show s.peer.receive s.params.devAddr s.wire b (s.peerPulls b) = _
      rw [Peer.receive_payload hw, hp, Peer.answer_payload hw]
      simp [hon, had]
    rw [afterBytes_cons]
    cases ht : s.peer.disp.take s.wire b with
    | none =>
      have hl : (afterByte b s).peer = s.peer.lost := by rw [hpe]; simp [Peer.take, had, hs, ht]
      exact (afterBytes_lost bs _ ha'.2.2.2.1 ha'.2.2.2.2 (by rw [hl]; exact ⟨rfl, rfl⟩)).2
    | some d1 =>
      have hd : (afterByte b s).peer = { s.peer with disp := d1 } := by rw [hpe]; simp [Peer.take, had, hs, ht]
      refine ih ha' (by rw [hd]; exact hs) ?_
      rw [hd, show (afterByte b s).wire = s.wire.next b from rfl]
      simpa [Display.run, ht] using hr

/-- A whole transaction to a hearing peer one of whose payload bytes has no meaning leaves nothing known. -/
theorem afterTxn_run_none (hh : s.hearing) (hr : Display.run .control bs s.peer.disp = none) :
    (afterTxn bs s).peer.disp = .unknown := by
  obtain ⟨href, hon, hsy⟩ := hh
  obtain ⟨h1, h2⟩ := hearing_address href hon
  obtain ⟨hp, he⟩ := reference_afterStart href
  have hpe : (afterByte s.params.devAddr (afterStart s)).peer = { s.peer with addressed := true } := by
    show (afterStart s).peer.receive (afterStart s).params.devAddr (afterStart s).wire _ _ = _
    rw [h1, show (afterStart s).wire = .address from rfl, hp, show (afterStart s).params = s.params from rfl]
    have ht : s.peer.take .address s.params.devAddr = s.peer := by
      simp only [Peer.take, Display.take]
      split <;> rfl
    simp [Peer.receive, Peer.answer, hon, ht]
  have h3 := afterBytes_run_none (bs := bs) h2 (by rw [hpe]; exact hsy) (by
    rw [hpe, show (afterByte s.params.devAddr (afterStart s)).wire = .control from rfl]
    exact hr)
  show ((afterBytes bs (afterByte s.params.devAddr (afterStart s))).peer.stopSeen _).disp = _
  rw [Peer.stopSeen]
  split
  · rfl
  · exact h3

end Sys2Proof.Machine
end

