-- ==== Sys2Proof/Laws/Animation.lean ====
section
/-! SUPPORT. The renderers' data and state: scrolling, the elastic runs, the wobble's shifts, each as a closed form. -/

namespace Sys2Proof.Machine

variable {msg : List Byte} {p : Params}

/-! ### Scrolling (43_animation.md R201 to R203) -/

/-- `NEXTPOS` is a step modulo the message bit-length. -/
theorem nextPos_eq {pos : Nat} (h : pos < 8 * msg.length) : nextPos msg pos = (pos + 1) % (8 * msg.length) := by
  unfold nextPos bitLength
  split
  · rw [Nat.mod_eq_of_lt ‹_›]
  · rw [show pos + 1 = 8 * msg.length by omega, Nat.mod_self]

/-- MARQUEE's data byte `k` is the column at `(OFFSET + k) mod 8*L` (R203). -/
theorem marqueeData_eq (p : Params) (hl : 1 ≤ msg.length) (n pos : Nat) (hp : pos < 8 * msg.length) :
    marqueeData p msg n pos = (List.range n).map fun k => colByte p msg ((pos + k) % (8 * msg.length)) := by
  induction n generalizing pos with
  | zero => rfl
  | succ n ih =>
    rw [marqueeData, ih _ (by rw [nextPos_eq hp]; exact Nat.mod_lt _ (by omega)), List.range_succ_eq_map, nextPos_eq hp]
    simp only [List.map_cons, Nat.add_zero, Nat.mod_eq_of_lt hp, List.map_map, List.cons.injEq, true_and]
    refine List.map_congr_left fun a _ => ?_
    simp only [Function.comp, Nat.mod_add_mod]
    congr 2
    omega

theorem marqueeData_length (p : Params) (msg : List Byte) (n pos : Nat) : (marqueeData p msg n pos).length = n := by
  induction n generalizing pos with
  | zero => rfl
  | succ n ih => simp [marqueeData, ih]

/-- `ADVANCE` fits 16 bits from a legal offset (R202: "at most 2294"). -/
theorem advance_toNat {off : BitVec 16} {step : Nat} (h : off.toNat < 8 * msg.length) (hl : msg.length < 256)
    (hs : step < 256) : (advance off step msg).toNat = advanceNat off.toNat step msg.length := by
  unfold advance
  rw [BitVec.toNat_ofNat, Nat.mod_eq_of_lt]
  unfold advanceNat
  simp only
  split <;> omega

/-! ### The elastic runs (R210 to R212) -/

theorem nextFactor_pos {mid rem f : Nat} (h : 1 ≤ f) : 1 ≤ nextFactor mid rem f := by
  unfold nextFactor
  split
  · omega
  · split <;> omega

/-- The runs fill the window. -/
theorem bungeeRunsFrom_sum (mid fuel f rem : Nat) (hf : 1 ≤ f) (hr : rem ≤ fuel) :
    ((bungeeRunsFrom mid fuel f rem).map Prod.snd).sum = rem := by
  induction fuel generalizing f rem with
  | zero => simp only [bungeeRunsFrom, List.map_nil, List.sum_nil]; omega
  | succ n ih =>
    rw [bungeeRunsFrom]
    split
    · simp_all
    · simp only [List.map_cons, List.sum_cons]
      rw [ih _ _ (nextFactor_pos hf) (by omega)]
      omega

theorem expandRuns_length (p : Params) (msg : List Byte) (runs : List (Nat × Nat)) (pos : Nat) :
    (expandRuns p msg runs pos).length = (runs.map Prod.snd).sum := by
  induction runs generalizing pos with
  | nil => rfl
  | cons r rs ih => obtain ⟨a, b⟩ := r; simp [expandRuns, ih]

theorem bungeeData_length (p : Params) (msg : List Byte) (width pos : Nat) :
    (bungeeData p msg width pos).length = width := by
  rw [bungeeData, expandRuns_length, bungeeRuns, bungeeRunsFrom_sum _ _ _ _ (by omega) (by omega)]

/-- BUNGEE's data, run after run. -/
theorem expandRuns_eq (p : Params) (hl : 1 ≤ msg.length) (runs : List (Nat × Nat)) (pos : Nat)
    (hp : pos < 8 * msg.length) : expandRuns p msg runs pos =
      runs.zipIdx.flatMap fun run => List.replicate run.1.2 (colByte p msg ((pos + run.2) % (8 * msg.length))) := by
  have gen : ∀ (runs : List (Nat × Nat)) (k : Nat), expandRuns p msg runs ((pos + k) % (8 * msg.length)) =
      (runs.zipIdx k).flatMap fun run =>
        List.replicate run.1.2 (colByte p msg ((pos + run.2) % (8 * msg.length))) := by
    intro runs
    induction runs with
    | nil => intro k; rfl
    | cons r rs ih =>
      intro k
      obtain ⟨a, b⟩ := r
      rw [expandRuns, nextPos_eq (Nat.mod_lt _ (by omega)), Nat.mod_add_mod, Nat.add_assoc, ih (k + 1)]
      simp [List.zipIdx_cons]
  have h := gen runs 0
  rwa [Nat.add_zero, Nat.mod_eq_of_lt hp] at h

/-! ### The wobble (R220, R221) -/

/-- Every shift is in [0,8] (20_memory.md R52). -/
theorem cosAt_le (p : Params) (i : Nat) : cosAt p i ≤ 8 := by
  unfold cosAt
  have := (p.cos.getD i (Config.cosEntry i)).isLt
  omega

theorem wobbleUpper_length (p : Params) (msg : List Byte) (phase : Byte) :
    (wobbleUpper p msg phase).length = 8 * msg.length := by simp [wobbleUpper, bitLength]

theorem wobbleLower_length (p : Params) (msg : List Byte) (phase : Byte) :
    (wobbleLower p msg phase).length = 8 * msg.length := by simp [wobbleLower, bitLength]

/-! ### Addressing and then data at a hearing peer -/

/-- SETPAGEWINDOW and a WRITEBYTES that fits store their bytes in the page (R203, 20_memory.md R79). -/
theorem window_write_stores {s : State} (hr : s.ready) (hf : s.flows) (hh : s.hearing) (page : BitVec 3)
    (column : BitVec 7) (ds : List Byte) (hl : column.toNat + ds.length ≤ 128) :
    ∃ t, andThen (windowOp page column s) (writeOp ds) = (t, .status .ok) ∧ t.ready ∧ t.flows ∧ t.hearing ∧
      s.peer.disp.stores t.peer.disp (dispAddr page column) ds := by
  have hu := unhindered_of_hearing hr hf hh
  obtain ⟨h1, h2⟩ := afterTxn_run hh (run_window page column s.peer.disp)
  have hu' := afterTxn_unhindered hu (cmdPayload (windowCommands page column))
  have ht := window_write_of_unhindered hu page column ds
  generalize hm : afterTxn (cmdPayload (windowCommands page column)) s = m at h1 h2 hu' ht
  obtain ⟨d', h3, h4, -⟩ := run_data_page (pg := page) ds m.peer.disp column (by rw [h1]) (by rw [h1]) (by rw [h1]) hl
  obtain ⟨h5, h6⟩ := afterTxn_run h2 (by rw [run_dataPayload]; exact h3)
  have hu2 := afterTxn_unhindered hu' (dataPayload ds)
  refine ⟨_, ht, hu2.1, hu2.2.1, h6, ?_⟩
  rw [h5]
  exact stores_congr h4 (by rw [h1]) rfl rfl

end Sys2Proof.Machine
end

