-- ==== Sys2Proof/Laws/Closed.lean ====
section
/-! SUPPORT. What every instruction preserves, said once: a property that the pieces of bus activity and of answering
preserve holds after `exec` if it held before; and where each instruction ends. -/

namespace Sys2Proof.Machine

variable {s t : State} {P : State → Prop}

/-- Whether an instruction writes `OFFSET` (10_state.md R34). -/
def writesOffset : Instr → Bool
  | .marquee _ _ _ _ _ _ => true
  | .bungee _ _ _ _ _ => true
  | _ => false

/-- Whether an instruction writes `PHASE` (10_state.md R34). -/
def writesPhase : Instr → Bool
  | .wobble _ _ _ _ => true
  | _ => false

/-- A property that bus activity and answering preserve, the host's animation state apart. -/
structure OpClosed (P : State → Prop) : Prop extends BusClosed P where
  result : ∀ s r, P s → P { s with result := r }
  hang : ∀ s, P s → P (takeHang s)
  release : ∀ s, P s → P (driveSda true (releaseScl s))

/-- The same with the animation state. -/
structure AllClosed (P : State → Prop) : Prop extends OpClosed P where
  offset : ∀ s v, P s → P { s with offset := v }
  phase : ∀ s v, P s → P { s with phase := v }

theorem answerByte_closed (hP : OpClosed P) {r : State × ByteEnd} (hr : P r.1) (h : answerByte r = .next t) : P t := by
  obtain ⟨u, e⟩ := r
  cases e <;> simp only [answerByte, Host.Outcome.next.injEq] at h <;> subst h
  · exact hP.result u _ hr
  · exact hP.result u _ hr
  · exact hP.hang u hr

theorem answerStatus_closed (hP : OpClosed P) {r : State × OpEnd} (hr : P r.1) (h : answerStatus r = .next t) :
    P t := by
  obtain ⟨u, e⟩ := r
  cases e <;> simp only [answerStatus, Host.Outcome.next.injEq] at h <;> subst h
  · exact hP.result u _ hr
  · exact hP.hang u hr

theorem answerInit_closed (hP : OpClosed P) {r : State × OpEnd} (hr : P r.1) (h : answerInit r = .next t) : P t := by
  obtain ⟨u, e⟩ := r
  cases e with
  | status st =>
    cases st <;> simp only [answerInit, Host.Outcome.next.injEq] at h <;> subst h <;> exact hP.result u _ hr
  | never =>
    simp only [answerInit, Host.Outcome.next.injEq] at h
    subst h
    exact hP.hang u hr

theorem answerOffset_closed (hP : OpClosed P) (ho : ∀ s v, P s → P { s with offset := v }) {a b : BitVec 16}
    {r : State × OpEnd} (hr : P r.1) (h : answerOffset a b r = .next t) : P t := by
  obtain ⟨u, e⟩ := r
  cases e with
  | status st =>
    simp only [answerOffset, Host.Outcome.next.injEq] at h
    subst h
    exact hP.result _ (.offset (returned a b st) st) (ho u (returned a b st) hr)
  | never =>
    simp only [answerOffset, Host.Outcome.next.injEq] at h
    subst h
    exact hP.hang u hr

theorem answerPhase_closed (hP : OpClosed P) (ho : ∀ s v, P s → P { s with phase := v }) {a b : Byte}
    {r : State × OpEnd} (hr : P r.1) (h : answerPhase a b r = .next t) : P t := by
  obtain ⟨u, e⟩ := r
  cases e with
  | status st =>
    simp only [answerPhase, Host.Outcome.next.injEq] at h
    subst h
    exact hP.result _ (.phase (returned a b st) st) (ho u (returned a b st) hr)
  | never =>
    simp only [answerPhase, Host.Outcome.next.injEq] at h
    subst h
    exact hP.hang u hr

theorem sendFraming_closed (hP : OpClosed P) {b : Byte} (hs : P s) (h : sendFraming b s = .next t) : P t := by
  obtain ⟨-, h⟩ := whenOpen_next h
  split at h
  · exact answerByte_closed hP (sendItem_closed hP.toBusClosed hs) h
  · simp at h

theorem sendCommand_closed (hP : OpClosed P) {bs : List Byte} (hs : P s) (h : sendCommand bs s = .next t) : P t := by
  obtain ⟨-, h⟩ := whenOpen_next h
  split at h
  · exact answerByte_closed hP (sendItem_closed hP.toBusClosed hs) h
  · simp at h

/-- What all bus activity and answering preserve holds after every instruction. -/
theorem exec_closed (hP : OpClosed P) (i : Instr) (ho : writesOffset i = true → ∀ s v, P s → P { s with offset := v })
    (hp : writesPhase i = true → ∀ s v, P s → P { s with phase := v }) (hs : P s) (h : exec i s = .next t) : P t := by
  have hx : ∀ c bs (u : State), P u → P (txn c bs u).1 := fun c bs u hu => txn_closed hP.toBusClosed c hu
  cases i with
  | busCfg =>
    have h := (whenIdle_next (s := s) h).2
    simp only [Host.Outcome.next.injEq] at h
    subst h
    exact hP.result _ _ (hP.release s hs)
  | start a =>
    have h := (whenIdle_next (s := s) h).2
    split at h
    · simp at h
    · exact answerByte_closed hP (startOp_closed hP.toBusClosed hs) h
  | sendByte b => exact answerByte_closed hP (shift9_closed hP.toBusClosed hs) (whenOpen_next (s := s) h).2
  | stop =>
    have h := (whenOpen_next (s := s) h).2
    simp only [Host.Outcome.next.injEq] at h
    subst h
    exact hP.result _ _ (hP.stop s hs)
  | init => exact answerInit_closed hP (hx _ _ s hs) (whenIdle_next (s := s) h).2
  | setPageWindow page column => exact answerStatus_closed hP (hx _ _ s hs) (whenIdle_next (s := s) h).2
  | writeBytes src => exact answerStatus_closed hP (hx _ _ s hs) (whenLegal_next (whenIdle_next (s := s) h).2).2
  | clear =>
    exact answerStatus_closed hP (andThen_closed (hx _ _ s hs) fun u => hx _ _ u) (whenIdle_next (s := s) h).2
  | setContrast level => exact answerStatus_closed hP (hx _ _ s hs) (whenIdle_next (s := s) h).2
  | glyphFor code =>
    have h := (whenFree_next (s := s) h).2
    simp only [Host.Outcome.next.injEq] at h
    subst h
    exact hP.result s _ hs
  | marquee x y width msg offset speed =>
    exact answerOffset_closed hP (ho rfl) (andThen_closed (hx _ _ s hs) fun u => hx _ _ u)
      (whenLegal_next (whenIdle_next (s := s) h).2).2
  | bungee x y width msg offset =>
    exact answerOffset_closed hP (ho rfl) (andThen_closed (hx _ _ s hs) fun u => hx _ _ u)
      (whenLegal_next (whenIdle_next (s := s) h).2).2
  | wobble x y msg phase =>
    exact answerPhase_closed hP (hp rfl) (andThen_closed (andThen_closed (andThen_closed (hx _ _ s hs) fun u => hx _ _ u)
      fun u => hx _ _ u) fun u => hx _ _ u) (whenLegal_next (whenIdle_next (s := s) h).2).2
  | reserved1101 => simp [exec, execReserved1101] at h
  | reserved1110 => simp [exec, execReserved1110] at h
  | reserved1111 => simp [exec, execReserved1111] at h
  | addrByte a => exact answerByte_closed hP (startOp_closed hP.toBusClosed hs) (whenIdle_next (s := s) h).2
  | ctrlCommands => exact sendFraming_closed hP hs h
  | ctrlData => exact sendFraming_closed hP hs h
  | cmdMuxRatio _ => exact sendCommand_closed hP hs h
  | cmdDisplayOffset _ => exact sendCommand_closed hP hs h
  | cmdStartLine => exact sendCommand_closed hP hs h
  | cmdSegmentRemap _ => exact sendCommand_closed hP hs h
  | cmdComScanDir _ => exact sendCommand_closed hP hs h
  | cmdComPins _ => exact sendCommand_closed hP hs h
  | cmdContrast _ => exact sendCommand_closed hP hs h
  | cmdEntireDisplayOn _ => exact sendCommand_closed hP hs h
  | cmdNormalInverted _ => exact sendCommand_closed hP hs h
  | cmdOscFreq _ => exact sendCommand_closed hP hs h
  | cmdChargePump _ => exact sendCommand_closed hP hs h
  | cmdDisplayOnOff _ => exact sendCommand_closed hP hs h
  | cmdAddressingMode _ => exact sendCommand_closed hP hs h
  | cmdColumnRange _ _ => exact sendCommand_closed hP hs h
  | cmdPageRange _ _ => exact sendCommand_closed hP hs h
  | cmdPageStart _ => exact sendCommand_closed hP hs h
  | cmdColumnUpper _ => exact sendCommand_closed hP hs h
  | cmdColumnLower _ => exact sendCommand_closed hP hs h

/-- What even the animation state's writes preserve holds after every instruction. -/
theorem exec_allClosed (hP : AllClosed P) (i : Instr) (hs : P s) (h : exec i s = .next t) : P t :=
  exec_closed hP.toOpClosed i (fun _ => hP.offset) (fun _ => hP.phase) hs h

/-! ### Examples every proof needs -/

/-- Nothing an instruction does changes the parameters or the host's requests. -/
theorem fixed_closed (p : Params) (rs : List Byte) : AllClosed fun s => s.params = p ∧ s.requests = rs where
  byte _ _ h := h
  mid s u h hm := by obtain ⟨_, _, _, _, -, -, rfl⟩ := hm; exact h
  timeout _ h := h
  start _ h := h
  stop _ h := h
  result _ _ h := h
  hang _ h := h
  release _ h := h
  offset _ _ h := h
  phase _ _ h := h

/-- The peer's invariant, along everything. -/
theorem peerWf_allClosed : AllClosed fun s => s.peer.wf where
  toBusClosed := peerWf_closed
  result _ _ h := h
  hang _ h := h
  release _ h := h
  offset _ _ h := h
  phase _ _ h := h

/-! ### Where instructions end -/

/-- Bus activity never sets the hang mark: only answering does. -/
theorem hung_closed (b : Bool) : BusClosed fun s => s.hung = b where
  byte _ _ h := h
  mid s u h hm := by obtain ⟨_, _, _, _, -, -, rfl⟩ := hm; exact h
  timeout _ h := h
  start _ h := h
  stop _ h := h

/-- The drive state and the wire between operations (10_state.md R23), as the answers leave them. -/
theorem busWf_idle (h1 : t.hung = false) (h2 : t.sclPull = false) (h3 : t.sdaPull = false) (h4 : t.wire = .idle) :
    t.busWf := by
  simp [State.busWf, h1, h2, h3, h4]

theorem busWf_open (h1 : t.hung = false) (h2 : t.sclPull = true) (h3 : t.sdaPull = false) (h4 : t.wire ≠ .idle)
    (h5 : t.wire ≠ .address) : t.busWf := by
  simp [State.busWf, h1, h2, h3, h4, h5]

/-- A byte's answer leaves a legal drive state. -/
theorem answerByte_busWf {r : State × ByteEnd} (hw : ByteEndsWell r) (hh : r.1.hung = false)
    (h : answerByte r = .next t) : t.busWf := by
  obtain ⟨u, e⟩ := r
  cases e <;> simp only [answerByte, Host.Outcome.next.injEq] at h <;> subst h
  · exact busWf_open hh hw.1 hw.2.1 hw.2.2.1 hw.2.2.2
  · exact busWf_idle hh hw.1 hw.2.1 hw.2.2
  · exact ⟨hw.1, hw.2⟩

/-- An operation's answer leaves the block Idle, or inside a wait that never ends. -/
theorem answer_idle_or_hang {r : State × OpEnd} (hw : EndsWell r) (hh : r.1.hung = false) {f : State × OpEnd → Answer}
    (hf : ∀ u st v, f (u, .status st) = .next v →
      v.hung = u.hung ∧ v.sclPull = u.sclPull ∧ v.sdaPull = u.sdaPull ∧ v.wire = u.wire)
    (hn : ∀ u, f (u, .never) = .next (takeHang u)) (h : f r = .next t) :
    (t.hung = false ∧ t.sclPull = false ∧ t.sdaPull = false ∧ t.wire = .idle) ∨
      (t.hung = true ∧ t.result = .none ∧ t.sclPull = false ∧ t.wire ≠ .idle) := by
  obtain ⟨u, e⟩ := r
  cases e with
  | status st =>
    obtain ⟨h1, h2, h3, h4⟩ := hf u st t h
    exact .inl ⟨h1.trans hh, h2.trans hw.1, h3.trans hw.2.1, h4.trans hw.2.2⟩
  | never =>
    rw [hn] at h
    simp only [Host.Outcome.next.injEq] at h
    subst h
    exact .inr ⟨rfl, rfl, hw.1, hw.2⟩

theorem answerStatus_lines (u : State) (st : Status) (v : State) (h : answerStatus (u, .status st) = .next v) :
    v.hung = u.hung ∧ v.sclPull = u.sclPull ∧ v.sdaPull = u.sdaPull ∧ v.wire = u.wire := by
  simp only [answerStatus, Host.Outcome.next.injEq] at h
  subst h
  exact ⟨rfl, rfl, rfl, rfl⟩

theorem answerInit_lines (u : State) (st : Status) (v : State) (h : answerInit (u, .status st) = .next v) :
    v.hung = u.hung ∧ v.sclPull = u.sclPull ∧ v.sdaPull = u.sdaPull ∧ v.wire = u.wire := by
  cases st <;> simp only [answerInit, Host.Outcome.next.injEq] at h <;> subst h <;> exact ⟨rfl, rfl, rfl, rfl⟩

theorem answerOffset_lines (a b : BitVec 16) (u : State) (st : Status) (v : State)
    (h : answerOffset a b (u, .status st) = .next v) :
    v.hung = u.hung ∧ v.sclPull = u.sclPull ∧ v.sdaPull = u.sdaPull ∧ v.wire = u.wire := by
  simp only [answerOffset, Host.Outcome.next.injEq] at h
  subst h
  exact ⟨rfl, rfl, rfl, rfl⟩

theorem answerPhase_lines (a b : Byte) (u : State) (st : Status) (v : State)
    (h : answerPhase a b (u, .status st) = .next v) :
    v.hung = u.hung ∧ v.sclPull = u.sclPull ∧ v.sdaPull = u.sdaPull ∧ v.wire = u.wire := by
  simp only [answerPhase, Host.Outcome.next.injEq] at h
  subst h
  exact ⟨rfl, rfl, rfl, rfl⟩

end Sys2Proof.Machine
end

