-- ==== Sys2Proof/Laws/Decode.lean ====
section
/-! SUPPORT. Reading back what the encoder writes, operand by operand and command by command, and the other way round:
what bytes an operand or a command that was read must have been. -/

namespace Sys2Proof

variable {bs rest : List Byte} {r : Instr × List Byte}

/-! ### Operands, encoded and read back -/

@[simp] theorem withByte_cons (b : Byte) (rest : List Byte) (k : Byte → List Byte → Decoded) :
    withByte (b :: rest) k = k b rest := rfl

/-- A field in the low bits of its byte. -/
theorem withField_setWidth {w : Nat} (hw : w ≤ 8) (v : BitVec w) (rest : List Byte)
    (k : BitVec w → List Byte → Decoded) : withField w (v.setWidth 8 :: rest) k = k v rest := by
  have hv : (v.setWidth 8).toNat = v.toNat := by
    rw [BitVec.toNat_setWidth]
    exact Nat.mod_eq_of_lt (Nat.lt_of_lt_of_le v.isLt (Nat.pow_le_pow_right (by omega) hw))
  rw [withField, withByte_cons, if_pos (by rw [hv]; exact v.isLt)]
  congr 1
  apply BitVec.eq_of_toNat_eq
  rw [BitVec.toNat_setWidth, hv]
  exact Nat.mod_eq_of_lt v.isLt

/-- A 16-bit operand. -/
theorem withHalf_halfBytes (v : BitVec 16) (rest : List Byte) (k : BitVec 16 → List Byte → Decoded) :
    withHalf (halfBytes v ++ rest) k = k v rest := by
  have h : ((v >>> 8).setWidth 8 ++ v.setWidth 8 : BitVec 16) = v := by
    apply BitVec.eq_of_toNat_eq
    have := v.isLt
    rw [BitVec.toNat_append, ← Nat.shiftLeft_add_eq_or_of_lt (v.setWidth 8).isLt, Nat.shiftLeft_eq]
    simp only [BitVec.toNat_setWidth, BitVec.toNat_ushiftRight, Nat.shiftRight_eq_div_pow]
    omega
  show k ((v >>> 8).setWidth 8 ++ v.setWidth 8) rest = k v rest
  rw [h]

/-- Bytes in a row. -/
theorem withBytes_append (l rest : List Byte) (k : List Byte → List Byte → Decoded) :
    withBytes l.length (l ++ rest) k = k l rest := by
  simp [withBytes]

/-- A message. -/
theorem withMessage_messageBytes {msg : List Byte} (h : msg.length < 256) (rest : List Byte)
    (k : List Byte → List Byte → Decoded) : withMessage (messageBytes msg ++ rest) k = k msg rest := by
  rw [messageBytes, List.cons_append, withMessage, withByte_cons, BitVec.toNat_ofNat, Nat.mod_eq_of_lt h,
    withBytes_append]

/-! ### Operands read, and the bytes they were -/

theorem withByte_ok {k : Byte → List Byte → Decoded} (h : withByte bs k = .ok r) :
    ∃ b rest, bs = b :: rest ∧ k b rest = .ok r := by
  cases bs with
  | nil => simp [withByte] at h
  | cons b rest => exact ⟨b, rest, rfl, h⟩

theorem withField_ok {w : Nat} {k : BitVec w → List Byte → Decoded} (h : withField w bs k = .ok r) :
    ∃ v rest, bs = v.setWidth 8 :: rest ∧ k v rest = .ok r := by
  obtain ⟨b, rest, rfl, h'⟩ := withByte_ok h
  split at h'
  · rename_i hb
    refine ⟨b.setWidth w, rest, ?_, h'⟩
    congr 1
    apply BitVec.eq_of_toNat_eq
    rw [BitVec.toNat_setWidth, BitVec.toNat_setWidth, Nat.mod_eq_of_lt hb, Nat.mod_eq_of_lt b.isLt]
  · simp at h'

theorem withHalf_ok {k : BitVec 16 → List Byte → Decoded} (h : withHalf bs k = .ok r) :
    ∃ v rest, bs = halfBytes v ++ rest ∧ k v rest = .ok r := by
  obtain ⟨hi, t, rfl, h'⟩ := withByte_ok h
  obtain ⟨lo, rest, rfl, h''⟩ := withByte_ok h'
  refine ⟨hi ++ lo, rest, ?_, h''⟩
  have h1 : ((hi ++ lo : BitVec 16) >>> 8).setWidth 8 = hi := by
    apply BitVec.eq_of_toNat_eq
    have h1 := hi.isLt
    have h2 := lo.isLt
    simp only [BitVec.toNat_setWidth, BitVec.toNat_ushiftRight, Nat.shiftRight_eq_div_pow, BitVec.toNat_append]
    rw [← Nat.shiftLeft_add_eq_or_of_lt h2, Nat.shiftLeft_eq]
    omega
  have h2 : (hi ++ lo : BitVec 16).setWidth 8 = lo := by
    apply BitVec.eq_of_toNat_eq
    have h2 := lo.isLt
    simp only [BitVec.toNat_setWidth, BitVec.toNat_append]
    rw [← Nat.shiftLeft_add_eq_or_of_lt h2, Nat.shiftLeft_eq]
    omega
  rw [halfBytes, h1, h2]
  rfl

theorem withBytes_ok {n : Nat} {k : List Byte → List Byte → Decoded} (h : withBytes n bs k = .ok r) :
    ∃ l rest, bs = l ++ rest ∧ l.length = n ∧ k l rest = .ok r := by
  unfold withBytes at h
  split at h
  · rename_i hn
    exact ⟨bs.take n, bs.drop n, (List.take_append_drop n bs).symm, by simp [hn], h⟩
  · simp at h

theorem withMessage_ok {k : List Byte → List Byte → Decoded} (h : withMessage bs k = .ok r) :
    ∃ msg rest, bs = messageBytes msg ++ rest ∧ msg.length < 256 ∧ k msg rest = .ok r := by
  obtain ⟨len, t, rfl, h'⟩ := withByte_ok h
  obtain ⟨msg, rest, rfl, hl, h''⟩ := withBytes_ok h'
  refine ⟨msg, rest, ?_, hl ▸ len.isLt, h''⟩
  rw [messageBytes, hl, BitVec.ofNat_toNat, BitVec.setWidth_eq]
  rfl

/-! ### Requests with operands (30_encoding.md R110) -/

/-- A first byte below 16 is a selector. -/
theorem decode_selector {n : Nat} (hn : n < 16) (bs : List Byte) :
    decode (BitVec.ofNat 8 n :: bs) = decodeRequest n bs := by
  have h : (BitVec.ofNat 8 n).toNat = n := by rw [BitVec.toNat_ofNat]; omega
  rw [decode, h, if_pos hn]

theorem decodeRequest_window (bs : List Byte) : decodeRequest 0x5 bs =
    withField 3 bs fun page rest => withField 7 rest fun column rest => .ok (.setPageWindow page column, rest) := rfl

theorem decodeRequest_write (bs : List Byte) : decodeRequest 0x6 bs =
    withHalf bs fun n rest => withBytes n.toNat rest fun src rest => .ok (.writeBytes src, rest) := rfl

theorem decodeRequest_marquee (bs : List Byte) : decodeRequest 0xA bs =
    withField 7 bs fun x rest => withField 3 rest fun y rest => withByte rest fun width rest =>
      withMessage rest fun msg rest => withHalf rest fun offset rest => withByte rest fun speed rest =>
        .ok (.marquee x y width msg offset speed, rest) := rfl

theorem decodeRequest_bungee (bs : List Byte) : decodeRequest 0xB bs =
    withField 7 bs fun x rest => withField 3 rest fun y rest => withByte rest fun width rest =>
      withMessage rest fun msg rest => withHalf rest fun offset rest =>
        .ok (.bungee x y width msg offset, rest) := rfl

theorem decodeRequest_wobble (bs : List Byte) : decodeRequest 0xC bs =
    withField 7 bs fun x rest => withField 3 rest fun y rest => withMessage rest fun msg rest =>
      withByte rest fun phase rest => .ok (.wobble x y msg phase, rest) := rfl

/-! ### Commands (30_encoding.md R98, R100) -/

/-- A byte in command position is one row of the table. -/
theorem commandRow_mem {b : Byte} {row : CmdRow} (h : commandRow b = some row) :
    row ∈ commandTable ∧ b &&& row.mask = row.base := by
  exact ⟨List.mem_of_find?_eq_some h, by simpa using List.find?_some h⟩

/-- A command that decodes, by its first byte and its operands. -/
theorem decodeCommand_cons {b : Byte} {row : CmdRow} {ops : List Byte} {i : Instr} (hr : commandRow b = some row)
    (ho : ops.length = row.operands) (hi : commandInstr row.kind b ops = some i) :
    decodeCommand (b :: (ops ++ rest)) = .ok (i, rest) := by
  simp only [decodeCommand, withByte_cons, hr, ← ho, withBytes_append, hi]

theorem decode_command (bs : List Byte) : decode (commandMarker :: bs) = decodeCommand bs := rfl

theorem decode_address (bs : List Byte) : decode (addressMarker :: bs) = decodeAddress bs := rfl

theorem decode_framing (bs : List Byte) : decode (framingMarker :: bs) = decodeFraming bs := rfl

theorem operands0_ok {α : Type} {ops : List Byte} {k : Option α} {x : α} (h : operands0 ops k = some x) :
    ops = [] ∧ k = some x := by
  cases ops <;> simp_all [operands0]

theorem operands1_ok {α : Type} {ops : List Byte} {k : Byte → Option α} {x : α} (h : operands1 ops k = some x) :
    ∃ v, ops = [v] ∧ k v = some x := by
  rcases ops with _ | ⟨v, _ | ⟨w, ops⟩⟩ <;> simp_all [operands1]

theorem operands2_ok {α : Type} {ops : List Byte} {k : Byte → Byte → Option α} {x : α}
    (h : operands2 ops k = some x) : ∃ v w, ops = [v, w] ∧ k v w = some x := by
  rcases ops with _ | ⟨v, _ | ⟨w, _ | ⟨u, ops⟩⟩⟩ <;> simp_all [operands2]

end Sys2Proof
end

