-- ==== Sys2Proof/Laws/Failure.lean ====
section
/-! SUPPORT. The Protocol and Animation operations as rows of transactions, and what becomes of such a row when a wait
fails or an acknowledge that is checked is missing, said once for all of them. -/

namespace Sys2Proof.Machine

variable {s t u : State} {i : Instr} {check : Bool} {b : Byte} {bs cs : List Byte} {ps : List (List Byte)}
  {r : State × OpEnd} {k l : State → State × OpEnd}

/-! ### Rows of transactions (41_protocol.md R162) -/

/-- Transactions in a row, each begun only after OK. -/
def txns (check : Bool) : List (List Byte) → State → State × OpEnd
  | [], s => (s, .status .ok)
  | p :: ps, s => andThen (txn check p s) (txns check ps)

theorem andThen_ok (r : State × OpEnd) : andThen r (fun t => (t, .status .ok)) = r := by
  obtain ⟨t, e⟩ := r
  rcases e with (_ | _ | _) | _ <;> rfl

theorem andThen_assoc : andThen (andThen r k) l = andThen r fun t => andThen (k t) l := by
  obtain ⟨t, e⟩ := r
  rcases e with (_ | _ | _) | _ <;> rfl

theorem andThen_congr (h : k r.1 = l r.1) : andThen r k = andThen r l := by
  obtain ⟨t, e⟩ := r
  rcases e with (_ | _ | _) | _ <;> first | exact h | rfl

theorem txns_one (p : List Byte) (s : State) : txns check [p] s = txn check p s := andThen_ok _

theorem txns_snoc (p : List Byte) : txns check (ps ++ [p]) s = andThen (txns check ps s) (txn check p) := by
  induction ps generalizing s with
  | nil => exact txns_one p s
  | cons q qs ih =>
    simp only [List.cons_append, txns, andThen_assoc]
    exact andThen_congr ih

/-- Bus activity leaves the host's side alone. -/
theorem sameHost_closed (s : State) : BusClosed s.sameHost where
  byte _ _ h := h
  mid _ u h hm := by obtain ⟨_, _, _, _, -, -, rfl⟩ := hm; exact h
  timeout _ h := h
  start _ h := h
  stop _ h := h

theorem txns_sameHost (check : Bool) (ps : List (List Byte)) (s : State) : s.sameHost (txns check ps s).1 := by
  have gen : ∀ u, s.sameHost u → s.sameHost (txns check ps u).1 := by
    induction ps with
    | nil => exact fun u h => h
    | cons p ps ih => exact fun u h => andThen_closed (txn_closed (sameHost_closed s) check h) ih
  exact gen s ⟨rfl, rfl, rfl, rfl, rfl⟩

theorem txns_endsWell (check : Bool) (h : ps ≠ []) (s : State) : EndsWell (txns check ps s) := by
  induction ps generalizing s with
  | nil => exact absurd rfl h
  | cons p ps ih =>
    cases ps with
    | nil => rw [txns_one]; exact txn_endsWell check p s
    | cons q qs => exact andThen_endsWell (txn_endsWell check p s) (ih (by simp))

/-! ### The operations are rows of transactions -/

/-- A further sub-operation of an operation other than INIT. -/
theorem txns_then (p : List Byte) :
    andThen (txns (checks s.params.ackPolicy .otherOp) ps s) (fun t => txn (checks t.params.ackPolicy .otherOp) p t) =
      txns (checks s.params.ackPolicy .otherOp) (ps ++ [p]) s := by
  rw [txns_snoc]
  exact andThen_congr (by rw [(txns_sameHost _ _ s).1])

/-- How an operation answers what its row of transactions came to. -/
def answerOp (i : Instr) (s : State) (r : State × OpEnd) : Answer :=
  match r with
  | (t, .status st) => .next { t with offset := opOffset i s st, phase := opPhase i s st, result := opResult i s st }
  | (t, .never) => .next (takeHang t)

theorem answerOp_status (h : s.sameHost r.1) (hi : opOffset i s = fun _ => s.offset) (hp : opPhase i s = fun _ => s.phase)
    (hr : opResult i s = .status) : answerStatus r = answerOp i s r := by
  obtain ⟨t, e⟩ := r
  obtain ⟨-, -, ho, hph, -⟩ := h
  cases e with
  | never => rfl
  | status st => simp only [answerStatus, answerOp, hi, hp, hr, ← ho, ← hph]

theorem answerOp_offset {a b : BitVec 16} (h : s.sameHost r.1) (hi : opOffset i s = returned a b)
    (hp : opPhase i s = fun _ => s.phase) (hr : opResult i s = fun st => .offset (returned a b st) st) :
    answerOffset a b r = answerOp i s r := by
  obtain ⟨t, e⟩ := r
  obtain ⟨-, -, -, hph, -⟩ := h
  cases e with
  | never => rfl
  | status st => simp only [answerOffset, answerOp, hi, hp, hr, ← hph]

/-- A Protocol or Animation operation, requested where it may be, is its row of transactions and the answer to it. -/
theorem exec_operation (h : s.ready) (hp : opPayloads s.params i = some ps) :
    exec i s = answerOp i s (txns (opChecks s.params.ackPolicy i) ps s) := by
  have hh := txns_sameHost (opChecks s.params.ackPolicy i) ps s
  cases i
  case init =>
    cases hp
    rw [txns_one] at hh ⊢
    show whenIdle s (answerInit (txn (checks s.params.ackPolicy .initOp) _ s)) = _
    rw [whenIdle_of_ready h]
    change s.sameHost (txn (checks s.params.ackPolicy .initOp) _ s).1 at hh
    show _ = answerOp .init s (txn (checks s.params.ackPolicy .initOp) _ s)
    generalize txn (checks s.params.ackPolicy .initOp) _ s = r at hh ⊢
    obtain ⟨t, e⟩ := r
    obtain ⟨-, -, ho, hph, -⟩ := hh
    rcases e with (_ | _ | _) | _ <;>
      simp only [answerInit, answerOp, opOffset, opPhase, opResult, ← ho, ← hph]
  case setPageWindow page column =>
    cases hp
    rw [txns_one] at hh ⊢
    show whenIdle s _ = _
    rw [whenIdle_of_ready h]
    exact answerOp_status hh rfl rfl rfl
  case setContrast level =>
    cases hp
    rw [txns_one] at hh ⊢
    show whenIdle s _ = _
    rw [whenIdle_of_ready h]
    exact answerOp_status hh rfl rfl rfl
  case writeBytes src =>
    simp only [opPayloads] at hp
    split at hp <;> cases hp
    rw [txns_one] at hh ⊢
    show whenIdle s _ = _
    rw [whenIdle_of_ready h, writeProblem_none.mpr ‹_›]
    exact answerOp_status hh rfl rfl rfl
  case clear =>
    cases hp
    show whenIdle s (answerStatus (andThen (txn (checks s.params.ackPolicy .otherOp) _ s)
      fun t => txn (checks t.params.ackPolicy .otherOp) _ t)) = _
    rw [whenIdle_of_ready h, ← txns_one, txns_then]
    exact answerOp_status hh rfl rfl rfl
  case marquee x y width msg offset speed =>
    simp only [opPayloads] at hp
    split at hp <;> cases hp
    rename_i hl
    show whenIdle s (whenLegal _ (answerOffset _ _ (andThen (txn (checks s.params.ackPolicy .otherOp) _ s)
      fun t => txn (checks t.params.ackPolicy .otherOp) _ t))) = _
    rw [whenIdle_of_ready h, hl, ← txns_one, txns_then]
    exact answerOp_offset hh rfl rfl rfl
  case bungee x y width msg offset =>
    simp only [opPayloads] at hp
    split at hp <;> cases hp
    rename_i hl
    show whenIdle s (whenLegal _ (answerOffset _ _ (andThen (txn (checks s.params.ackPolicy .otherOp) _ s)
      fun t => txn (checks t.params.ackPolicy .otherOp) _ t))) = _
    rw [whenIdle_of_ready h, hl, ← txns_one, txns_then]
    exact answerOp_offset hh rfl rfl rfl
  case wobble x y msg phase =>
    simp only [opPayloads] at hp
    split at hp <;> cases hp
    rename_i hl
    show whenIdle s (whenLegal _ (answerPhase _ _ (andThen (andThen (andThen
      (txn (checks s.params.ackPolicy .otherOp) _ s)
      fun t => txn (checks t.params.ackPolicy .otherOp) _ t)
      fun t => txn (checks t.params.ackPolicy .otherOp) _ t)
      fun t => txn (checks t.params.ackPolicy .otherOp) _ t))) = _
    rw [whenIdle_of_ready h, hl, ← txns_one, txns_then, txns_then, txns_then]
    change s.sameHost (txns (checks s.params.ackPolicy .otherOp) _ s).1 at hh
    show _ = answerOp _ s (txns (checks s.params.ackPolicy .otherOp) _ s)
    simp only [List.cons_append, List.nil_append, whenLegal]
    generalize txns (checks s.params.ackPolicy .otherOp) _ s = r at hh ⊢
    obtain ⟨t, e⟩ := r
    obtain ⟨-, -, ho, -, -⟩ := hh
    cases e with
    | never => rfl
    | status st => cases st <;> simp only [answerPhase, answerOp, opOffset, opPhase, opResult, ← ho]
  all_goals exact absurd hp (by simp [opPayloads])

theorem opPayloads_ne_nil {p : Params} (h : opPayloads p i = some ps) : ps ≠ [] := by
  cases i <;> simp only [opPayloads, Option.some.injEq, reduceCtorEq] at h
  case writeBytes | marquee | bungee | wobble =>
    split at h <;> cases h
    simp
  all_goals subst h; simp

/-! ### Waits by their number -/

/-- How the wait with a number to come ends, as the environment's list says it of a powered peer. -/
def State.waitAt (s : State) (j : Nat) : WaitEnd :=
  waitEnd s.params.stretchLimit ((s.env.stretches.drop j).headD (.reads 0))

theorem waitEndAt_of_on (h : s.peer.on = true) (j : Nat) : s.waitEndAt j = s.waitAt j := by
  rw [State.waitEndAt, if_pos h, State.waitAt]

theorem afterByte_waitAt (b : Byte) (s : State) (j : Nat) : (afterByte b s).waitAt j = s.waitAt (9 + j) := by
  simp [State.waitAt, afterByte]

theorem afterBytes_waitAt (bs : List Byte) (s : State) (j : Nat) :
    (afterBytes bs s).waitAt j = s.waitAt (9 * bs.length + j) := by
  rw [State.waitAt, afterBytes_env, (afterBytes_frame bs s).1.1, List.drop_drop, State.waitAt]

theorem afterStart_waitAt (s : State) (j : Nat) : (afterStart s).waitAt j = s.waitAt j := rfl

theorem afterTxn_waitAt (p : List Byte) (s : State) (j : Nat) :
    (afterTxn p s).waitAt j = s.waitAt (9 * (p.length + 1) + j) :=
  afterBytes_waitAt (s.params.devAddr :: p) (afterStart s) j

/-- Power that stays from one transaction to the next. -/
theorem powered_afterTxn (h : s.powered) (p : List Byte) : (afterTxn p s).powered := by
  obtain ⟨ho, ht⟩ := h
  have hon : (afterTxn p s).peer.on = true := by
    show (afterStop (afterBytes _ (afterStart s))).peer.on = true
    rw [afterStop_on, afterBytes_on, afterStart_on, ho]
  have hpw : (afterTxn p s).env.power = s.env.power.tail := by
    show (afterBytes _ (afterStart s)).env.power = _
    rw [afterBytes_env]; rfl
  refine ⟨?_, fun c hc => ht c (hpw ▸ List.mem_of_mem_tail hc)⟩
  rw [hon, Env.powerNow, hpw]
  cases hp : s.env.power.tail with
  | nil => rfl
  | cons c cs =>
    have : c ≠ .off := ht c (by simp [hp])
    cases c <;> simp_all [PowerChange.leaves]

theorem waitAt_of_hangs {w : Nat} (h : s.hangsAfter w) : (∀ j < w, s.waitAt j = .high) ∧ s.waitAt w = .never := by
  obtain ⟨hl, h1, h2⟩ := h
  refine ⟨fun j hj => ?_, ?_⟩
  · obtain ⟨m, hm⟩ := h1 j hj
    rw [State.waitAt, stretch_at hm, hl]; rfl
  · rw [State.waitAt, stretch_at h2, hl]; rfl

theorem waitAt_of_timesOut {w : Nat} (h : s.timesOutAfter w) : (∀ j < w, s.waitAt j = .high) ∧ s.waitAt w = .timeout := by
  obtain ⟨n, hl, h1, h2⟩ := h
  refine ⟨fun j hj => ?_, ?_⟩
  · obtain ⟨m, hm, hmn⟩ := h1 j hj
    rw [State.waitAt, stretch_at hm, hl]; simp [waitEnd, hmn]
  · rcases h2 with h2 | ⟨m, h2, hnm⟩
    · rw [State.waitAt, stretch_at h2, hl]; rfl
    · rw [State.waitAt, stretch_at h2, hl]; simp [waitEnd, hnm]

/-! ### A row of transactions up to a wait that fails -/

theorem sentBytes_append (bs cs : List Byte) (s : State) :
    sentBytes (bs ++ cs) s = sentBytes bs s ++ sentBytes cs (afterBytes bs s) := by
  induction bs generalizing s with
  | nil => rfl
  | cons b bs ih => simp [sentBytes, ih, afterBytes_cons]

/-- Bytes none of whose waits fails, and none of whose acknowledges is missing if they are checked, are sent whole. -/
theorem sendPayload_prefix (bs cs : List Byte) (hon : s.peer.on = true) (h : ∀ j < 9 * bs.length, s.waitAt j = .high)
    (ha : check = false ∨ ∀ x ∈ sentBytes bs s, x.2 = true) :
    sendPayload check (bs ++ cs) s = sendPayload check cs (afterBytes bs s) := by
  induction bs generalizing s with
  | nil => rfl
  | cons b bs ih =>
    simp only [List.length_cons] at h
    rw [List.cons_append, sendPayload, shift9_of_high b s fun j hj =>
      (waitEndAt_of_on hon j).trans (h j (by omega))]
    have hn : nackTaken check (s.peerPulls b) = false := by
      rcases ha with rfl | ha
      · rfl
      · simp [nackTaken, show s.peerPulls b = true from ha (b, s.peerPulls b) (by simp [sentBytes])]
    simp only [hn, Bool.false_eq_true, if_false]
    exact ih ((afterByte_on b s).trans hon) (fun j hj => by rw [afterByte_waitAt]; exact h _ (by omega))
      (ha.imp id fun ha x hx => ha x (by simp [sentBytes, hx]))

theorem txn_eq_sendPayload (p : List Byte) (s : State) :
    txn check p s = sendPayload check (s.params.devAddr :: p) (afterStart s) := by
  rw [txn, startOp]; rfl

/-- The states after whole transactions in a row. -/
def afterTxns (ps : List (List Byte)) (s : State) : State := ps.foldl (fun t p => afterTxn p t) s

theorem txn_whole (p : List Byte) (hp : s.powered) (h : ∀ j < 9 * (p.length + 1), s.waitAt j = .high)
    (ha : check = false ∨ s.answered) : txn check p s = (afterTxn p s, .status .ok) := by
  have hx := sendPayload_prefix (check := check) (s := afterStart s) (s.params.devAddr :: p) []
    ((afterStart_on s).trans hp.1) h
    (ha.imp id fun ha x hx => by
      have := sentTxn_acked ha.1 ha.2 p
      rw [sentTxn] at this
      rw [this] at hx
      obtain ⟨_, -, rfl⟩ := List.mem_map.mp hx
      rfl)
  rw [List.append_nil] at hx
  rw [txn_eq_sendPayload, hx]
  rfl

/-- The two ends of an operation whose wait in slot `j` of byte `b` fails. -/
def opFails (b : Byte) (j : Nat) (e : WaitEnd) (s : State) : State × OpEnd :=
  if e = .timeout then (takeTimeout (insideByte b j s), .status .timeout) else (stuckByte b j s, .never)

/-- A row of transactions whose first failing wait is that of slot `j` of byte `b`, the bytes `begun` of its transaction
sent before it, stops inside that wait. -/
theorem txns_stop (whole : List (List Byte)) (payload : List Byte) (after : List (List Byte)) (begun : List Byte)
    (b : Byte) (rest : List Byte) (j : Nat) (e : WaitEnd) (hb : s.params.devAddr :: payload = begun ++ b :: rest)
    (hj : j < 9) (hne : e ≠ .high) (hp : s.powered) (h : ∀ m < waitsBefore whole begun j, s.waitAt m = .high)
    (he : s.waitAt (waitsBefore whole begun j) = e) (ha : check = false ∨ s.answered) :
    txns check (whole ++ payload :: after) s = opFails b j e (afterBytes begun (afterStart (afterTxns whole s))) := by
  induction whole generalizing s with
  | nil =>
    simp only [waitsBefore, bytesBefore, List.map_nil, List.sum_nil, Nat.zero_add] at h he
    have hx := sendPayload_prefix (check := check) (s := afterStart s) begun (b :: rest)
      ((afterStart_on s).trans hp.1) (fun m hm => h m (by omega)) (ha.imp id fun ha x hx => by
        have hs := sentTxn_acked ha.1 ha.2 payload
        rw [sentTxn, hb, sentBytes_append] at hs
        have hm : x ∈ sentBytes begun (afterStart s) ++ sentBytes (b :: rest) (afterBytes begun (afterStart s)) := by
          simp [hx]
        rw [hs] at hm
        obtain ⟨_, -, rfl⟩ := List.mem_map.mp hm
        rfl)
    have hstop : shift9 b (afterBytes begun (afterStart s)) = byteFails b j e (afterBytes begun (afterStart s)) := by
      have hon : (afterBytes begun (afterStart s)).peer.on = true :=
        (afterBytes_on begun _).trans ((afterStart_on s).trans hp.1)
      refine shift9_stops b _ j e hj hne (fun m hm => ?_) ?_
      · have := afterBytes_waitAt begun (afterStart s) m
        exact (waitEndAt_of_on hon m).trans (this.trans (h _ (by omega)))
      · exact (waitEndAt_of_on hon j).trans ((afterBytes_waitAt begun (afterStart s) j).trans he)
    show txns check (payload :: after) s = _
    rw [txns, txn_eq_sendPayload, hb, hx, sendPayload, hstop, byteFails, opFails]
    show _ = ite _ _ _
    by_cases hc : e = .timeout
    · rw [if_pos hc, if_pos hc]; rfl
    · rw [if_neg hc, if_neg hc]; rfl
  | cons p ps ih =>
    have hw : waitsBefore (p :: ps) begun j = 9 * (p.length + 1) + waitsBefore ps begun j := by
      simp only [waitsBefore, bytesBefore, List.map_cons, List.sum_cons]; omega
    rw [hw] at h he
    rw [List.cons_append, txns, txn_whole p hp (fun m hm => h m (by omega)) ha]
    show txns check (ps ++ payload :: after) (afterTxn p s) = _
    rw [ih (by rw [afterTxn_params]; exact hb) (powered_afterTxn hp p) (fun m hm => by rw [afterTxn_waitAt]; exact h _ (by omega))
      (by rw [afterTxn_waitAt]; exact he) (ha.imp id fun ha => by
        have := afterTxn_reference ha.1 p
        exact ⟨this.1, this.2.trans ha.2⟩)]
    rfl

/-- What whole transactions in a row add to the traces. -/
theorem afterTxns_traces (ps : List (List Byte)) (s : State) : ∃ sent : List (List (Byte × Bool)),
    sent.map (List.map Prod.fst) = ps.map (s.params.devAddr :: ·) ∧
    (afterTxns ps s).line = (sent.flatMap txnFrame).reverse ++ s.line ∧
    (afterTxns ps s).bytes = (sent.flatMap txnBytes).reverse ++ s.bytes ∧ s.sameHost (afterTxns ps s) := by
  induction ps generalizing s with
  | nil => exact ⟨[], rfl, rfl, rfl, rfl, rfl, rfl, rfl, rfl⟩
  | cons p ps ih =>
    obtain ⟨sent, h1, h2, h3, h4⟩ := ih (afterTxn p s)
    rw [afterTxn_params] at h1
    refine ⟨sentTxn p s :: sent, ?_, ?_, ?_, sameHost_trans (afterTxn_frame p s).1 h4⟩
    · simp [sentTxn, h1]
    · show (afterTxns ps (afterTxn p s)).line = _
      rw [h2, afterTxn_line]; simp
    · show (afterTxns ps (afterTxn p s)).bytes = _
      rw [h3, afterTxn_bytes]; simp

/-! ### Transactions that nobody answers (70_reset_and_hazards.md R298) -/

theorem silent_afterBytes (h : s.silent) (bs : List Byte) :
    sentBytes bs s = bs.map (fun b => (b, false)) ∧ (afterBytes bs s).silent := by
  induction bs generalizing s with
  | nil => exact ⟨rfl, h⟩
  | cons b bs ih =>
    obtain ⟨h1, h2⟩ := ih (silent_afterByte h b)
    exact ⟨by rw [sentBytes, h1, peerPulls_of_off h.1 b]; rfl, h2⟩

/-- A transaction to a peer that has no power once it has begun. -/
theorem silent_afterTxn (h : (afterStart s).silent) (p : List Byte) :
    sentTxn p s = (s.params.devAddr :: p).map (fun b => (b, false)) ∧ (afterTxn p s).silent :=
  (silent_afterBytes h (s.params.devAddr :: p)).imp id silent_afterStop

/-- Unchecked transactions in a row to such a peer: every byte sent, none acknowledged. -/
theorem silent_txns (hb : s.params.stretchLimit ≠ .bounded 0) (h : (afterStart s).silent) (ps : List (List Byte))
    (hn : ps ≠ []) :
    txns false ps s = (afterTxns ps s, .status .ok) ∧ (afterTxns ps s).silent ∧
    (afterTxns ps s).line =
      (ps.flatMap fun p => txnFrame ((s.params.devAddr :: p).map fun b => (b, false))).reverse ++ s.line ∧
    (afterTxns ps s).bytes =
      (ps.flatMap fun p => txnBytes ((s.params.devAddr :: p).map fun b => (b, false))).reverse ++ s.bytes := by
  induction ps generalizing s with
  | nil => exact absurd rfl hn
  | cons p ps ih =>
    obtain ⟨h1, h2⟩ := silent_afterTxn h p
    have hs : txns false (p :: ps) s = txns false ps (afterTxn p s) := by
      rw [txns, txn_eq_sendPayload, sendPayload_unchecked _ (flows_of_silent h hb)]; rfl
    rw [hs]
    have hl' := afterTxn_line p s
    have hb' := afterTxn_bytes p s
    rw [h1] at hl' hb'
    show txns false ps (afterTxn p s) = (afterTxns ps (afterTxn p s), .status .ok) ∧
      (afterTxns ps (afterTxn p s)).silent ∧ (afterTxns ps (afterTxn p s)).line = _ ∧ (afterTxns ps (afterTxn p s)).bytes = _
    cases ps with
    | nil => exact ⟨rfl, h2, by simpa [afterTxns] using hl', by simpa [afterTxns] using hb'⟩
    | cons q qs =>
      obtain ⟨g1, g2, g3, g4⟩ := ih (s := afterTxn p s) (by rw [afterTxn_params]; exact hb) (silent_afterStart h2) (by simp)
      rw [afterTxn_params] at g3 g4
      exact ⟨g1, g2, by rw [g3, hl']; simp, by rw [g4, hb']; simp⟩

/-- A checked row of transactions to such a peer ends after its address byte. -/
theorem txns_unanswered (p : List Byte) (hb : s.params.stretchLimit ≠ .bounded 0) (h : (afterStart s).silent) :
    txns true (p :: ps) s = (afterStop (afterByte s.params.devAddr (afterStart s)), .status .nack) := by
  rw [txns, txn_eq_sendPayload, sendPayload, shift9_of_flows _ (flows_of_silent h hb), peerPulls_of_off h.1]
  rfl

/-! ### Inside a wait of a row of transactions -/

/-- A state whose traces go on from inside a wait of a row of transactions. -/
theorem breaksOff_of {whole : List (List Byte)} {begun : List Byte} {j : Nat} {after : List LineEvent}
    (hl : t.line = after.reverse ++ (cutFrame b j).reverse ++ (afterBytes begun (afterStart (afterTxns whole s))).line)
    (hb : t.bytes = (afterBytes begun (afterStart (afterTxns whole s))).bytes) :
    BreaksOff s t whole begun b j after := by
  obtain ⟨sent, h1, h2, h3, -⟩ := afterTxns_traces whole s
  refine ⟨sent, sentBytes begun (afterStart (afterTxns whole s)), h1, sentBytes_fst _ _, ?_, ?_⟩
  · rw [State.lineTrace, hl, afterBytes_line]
    show (_ ++ (_ ++ (startFrame.reverse ++ (afterTxns whole s).line))).reverse = _
    rw [h2]
    simp [State.lineTrace]
  · rw [State.byteTrace, hb, afterBytes_bytes]
    show (_ ++ (ByteEvent.start :: (afterTxns whole s).bytes)).reverse = _
    rw [h3]
    simp [State.byteTrace]

/-- What the bytes begun after whole transactions leave alone. -/
theorem begun_sameHost (whole : List (List Byte)) (begun : List Byte) (s : State) :
    s.sameHost (afterBytes begun (afterStart (afterTxns whole s))) := by
  obtain ⟨-, -, -, -, h⟩ := afterTxns_traces whole s
  exact sameHost_trans h (afterBytes_frame begun (afterStart (afterTxns whole s))).1

/-! ### A row of transactions whose acknowledges are checked (41_protocol.md R160 to R162) -/

/-- It is sent whole, every byte acknowledged, or stops at the first byte that is not. -/
theorem txns_checked (ps : List (List Byte)) (hf : s.flows) : ∃ t sent, s.sameHost t ∧
    t.line = (sent.flatMap txnFrame).reverse ++ s.line ∧ t.bytes = (sent.flatMap txnBytes).reverse ++ s.bytes ∧
    ((txns true ps s = (t, .status .ok) ∧ sent.map (List.map Prod.fst) = ps.map (s.params.devAddr :: ·) ∧
        ∀ x ∈ sent.flatten, x.2 = true) ∨
      (txns true ps s = (t, .status .nack) ∧ StopsAtNack s.params.devAddr ps sent)) := by
  induction ps generalizing s with
  | nil => exact ⟨s, [], ⟨rfl, rfl, rfl, rfl, rfl⟩, rfl, rfl, .inl ⟨rfl, rfl, by simp⟩⟩
  | cons p ps ih =>
    rw [txns]
    rcases txn_checked p hf with ⟨h1, h2⟩ | ⟨t, sent, h1, h2, h3, h4, -, ⟨pre, b, h5, h6⟩, h7⟩
    · obtain ⟨t, sent, h3, h4, h5, h6⟩ := ih (afterTxn_flows (bs := p) hf)
      rw [h1]
      rw [afterTxn_params] at h6
      refine ⟨t, sentTxn p s :: sent, sameHost_trans (afterTxn_frame p s).1 h3, ?_, ?_, ?_⟩
      · rw [h4, afterTxn_line]; simp
      · rw [h5, afterTxn_bytes]; simp
      · rcases h6 with ⟨h7, h8, h9⟩ | ⟨h7, whole, payload, after, done, pre, b, e1, e2, e3, e4, e5, e6⟩
        · refine .inl ⟨h7, by simp [sentTxn, h8], fun x hx => ?_⟩
          rw [List.flatten_cons, List.mem_append] at hx
          exact hx.elim (h2 x) (h9 x)
        · refine .inr ⟨h7, p :: whole, payload, after, sentTxn p s :: done, pre, b, by simp [e1], by simp [e2],
            by simp [sentTxn, e3], fun x hx => ?_, e5, e6⟩
          rw [List.flatten_cons, List.mem_append] at hx
          exact hx.elim (h2 x) (e4 x)
    · rw [h1]
      refine ⟨t, [sent], h4, by simpa using h2, by simpa using h3, .inr ⟨rfl, [], p, ps, [], pre, b, rfl, by simp [h5], rfl,
        by simp, h6, h5 ▸ h7⟩⟩

/-! ### A row of transactions whose environment says where the first acknowledge is missing -/

theorem peerPulls_of_acks {a : Bool} (hon : s.peer.on = true) (h : s.env.acks[0]? = some a) (b : Byte) :
    s.peerPulls b = a := by
  rw [State.peerPulls, hon, Bool.true_and, Env.pull, List.headD_eq_head?_getD, List.head?_eq_getElem?, h]; rfl

/-- Checked bytes that the environment acknowledges are sent. -/
theorem sendPayload_acked (bs cs : List Byte) (hf : s.flows) (hon : s.peer.on = true) (h : ∀ j < bs.length, s.env.acks[j]? = some true) :
    sendPayload check (bs ++ cs) s = sendPayload check cs (afterBytes bs s) ∧
      sentBytes bs s = bs.map fun b => (b, true) := by
  induction bs generalizing s with
  | nil => exact ⟨rfl, rfl⟩
  | cons b bs ih =>
    have hp := peerPulls_of_acks hon (h 0 (by simp)) b
    obtain ⟨h1, h2⟩ := ih (s := afterByte b s) (afterByte_flows hf) ((afterByte_on b s).trans hon) fun j hj => by
      show s.env.acks.tail[j]? = _
      rw [List.getElem?_tail]
      exact h (j + 1) (by simpa using hj)
    refine ⟨?_, by simp [sentBytes, hp, h2]⟩
    rw [List.cons_append, sendPayload, shift9_of_flows b hf, hp]
    simpa [nackTaken, afterBytes_cons] using h1

theorem afterTxn_acks (p : List Byte) (s : State) : (afterTxn p s).env.acks = s.env.acks.drop (p.length + 1) := by
  show (afterBytes (s.params.devAddr :: p) (afterStart s)).env.acks = _
  rw [afterBytes_env]
  rfl

/-- A checked row of transactions stops after the byte whose acknowledge the environment withholds first. -/
theorem txns_nack (whole : List (List Byte)) (payload : List Byte) (after : List (List Byte)) (begun : List Byte)
    (b : Byte) (rest : List Byte) (hb : s.params.devAddr :: payload = begun ++ b :: rest) (hf : s.flows)
    (hpw : s.powered) (h : ∀ j < bytesBefore whole begun, s.env.acks[j]? = some true)
    (he : s.env.acks[bytesBefore whole begun]? = some false) :
    ∃ t, txns true (whole ++ payload :: after) s = (t, .status .nack) ∧ s.sameHost t ∧
      t.line = ((whole.map (fun p => (s.params.devAddr :: p).map fun b => (b, true)) ++
        [begun.map (fun b => (b, true)) ++ [(b, false)]]).flatMap txnFrame).reverse ++ s.line ∧
      t.bytes = ((whole.map (fun p => (s.params.devAddr :: p).map fun b => (b, true)) ++
        [begun.map (fun b => (b, true)) ++ [(b, false)]]).flatMap txnBytes).reverse ++ s.bytes := by
  induction whole generalizing s with
  | nil =>
    simp only [bytesBefore, List.map_nil, List.sum_nil, Nat.zero_add] at h he
    have hf' := afterStart_flows hf
    have hon := (afterStart_on s).trans hpw.1
    obtain ⟨h1, h2⟩ := sendPayload_acked (check := true) (s := afterStart s) begun (b :: rest) hf' hon h
    have hp : (afterBytes begun (afterStart s)).peerPulls b = false := peerPulls_of_acks
      ((afterBytes_on begun _).trans hon) (by
      rw [afterBytes_env]
      show (s.env.acks.drop begun.length)[0]? = _
      rw [List.getElem?_drop]
      exact he) b
    refine ⟨afterStop (afterBytes (begun ++ [b]) (afterStart s)), ?_, (afterBytes_frame _ (afterStart s)).1, ?_, ?_⟩
    · rw [List.nil_append, txns, txn_eq_sendPayload, hb, h1, sendPayload,
        shift9_of_flows b (afterBytes_flows hf'), hp]
      simp [nackTaken, takeNack, andThen, stopOp_eq, afterBytes]
    · show stopFrame.reverse ++ (afterBytes _ (afterStart s)).line = _
      rw [afterBytes_line, sentBytes_snoc, h2, hp]; simp [txnFrame, afterStart]
    · show ByteEvent.stop :: (afterBytes _ (afterStart s)).bytes = _
      rw [afterBytes_bytes, sentBytes_snoc, h2, hp]; simp [txnBytes, afterStart]
  | cons p ps ih =>
    have hw : bytesBefore (p :: ps) begun = (p.length + 1) + bytesBefore ps begun := by
      simp only [bytesBefore, List.map_cons, List.sum_cons]; omega
    rw [hw] at h he
    obtain ⟨h1, h2⟩ := sendPayload_acked (check := true) (s := afterStart s) (s.params.devAddr :: p) []
      (afterStart_flows hf) ((afterStart_on s).trans hpw.1) fun j hj => h j (by simp only [List.length_cons] at hj; omega)
    have ht : txn true p s = (afterTxn p s, .status .ok) := by
      rw [List.append_nil] at h1
      rw [txn_eq_sendPayload, h1]; rfl
    obtain ⟨t, g1, g2, g3, g4⟩ := ih (s := afterTxn p s) (by rw [afterTxn_params]; exact hb) (afterTxn_flows hf)
      (powered_afterTxn hpw p)
      (fun j hj => by rw [afterTxn_acks, List.getElem?_drop]; exact h _ (by omega))
      (by rw [afterTxn_acks, List.getElem?_drop]; exact he)
    rw [afterTxn_params] at g3 g4
    refine ⟨t, ?_, sameHost_trans (afterTxn_frame p s).1 g2, ?_, ?_⟩
    · rw [List.cons_append, txns, ht]; exact g1
    · rw [g3, afterTxn_line, sentTxn, h2]; simp
    · rw [g4, afterTxn_bytes, sentTxn, h2]; simp

end Sys2Proof.Machine
end

