-- ==== Sys2Proof/Laws/Wire.lean ====
section
/-! SUPPORT. The items of a host-built transaction: what they send, what they do to a listening peer, and that no byte
outside data position stores anything. -/

namespace Sys2Proof.Machine

variable {s t : State} {b : Byte} {bs : List Byte} {d d' : Display} {pos : StreamPos} {m : List Host.Cell}

/-! ### Items in a flowing environment -/

/-- The position a run of bytes leads to (30_encoding.md R96, R119). -/
def StreamPos.after (pos : StreamPos) (bs : List Byte) : StreamPos := bs.foldl StreamPos.next pos

theorem afterBytes_wire (bs : List Byte) (s : State) : (afterBytes bs s).wire = s.wire.after bs := by
  induction bs generalizing s with
  | nil => rfl
  | cons b bs ih => exact ih (afterByte b s)

/-- The state an item leaves behind. -/
def afterItem (bs : List Byte) (s : State) : State :=
  { afterBytes bs s with result := .acked (afterBytes bs s).ack }

theorem sendCommand_of_flows (hr : s.readyOpen) (hf : s.flows) (hw : s.wire.isCommand = true) (bs : List Byte) :
    sendCommand bs s = .next (afterItem bs s) := by
  rw [sendCommand, whenOpen_of_readyOpen hr, if_pos hw, sendItem_of_flows hf]; rfl

theorem sendFraming_of_flows (hr : s.readyOpen) (hf : s.flows) (hw : s.wire = .control) (b : Byte) :
    sendFraming b s = .next (afterItem [b] s) := by
  rw [sendFraming, whenOpen_of_readyOpen hr, if_pos hw, sendItem_of_flows hf]; rfl

/-- After at least one byte the transaction is open. -/
theorem afterBytes_open (b : Byte) (bs : List Byte) (s : State) :
    (afterBytes (b :: bs) s).sclPull = true ∧ (afterBytes (b :: bs) s).sdaPull = false := by
  induction bs generalizing s b with
  | nil => exact ⟨rfl, rfl⟩
  | cons c cs ih => exact ih c (afterByte b s)

/-- An item sends its bytes and leaves the transaction open behind them. -/
theorem itemSends_of_next {i : Instr} (hr : s.readyOpen) (hpos : s.wire.after (b :: bs) = pos)
    (h : exec i s = .next (afterItem (b :: bs) s)) : ItemSends i s (b :: bs) pos := by
  obtain ⟨hsame, -⟩ := afterBytes_frame (b :: bs) s
  obtain ⟨h1, h2⟩ := afterBytes_open b bs s
  refine ⟨_, sentBytes (b :: bs) s, h, sentBytes_fst _ _, ?_, ?_, afterBytes_ack b bs s, rfl, ?_, ⟨?_, ?_⟩, hsame⟩
  · show (afterBytes (b :: bs) s).line.reverse = _
    rw [afterBytes_line]; simp [State.lineTrace]
  · show (afterBytes (b :: bs) s).bytes.reverse = _
    rw [afterBytes_bytes]; simp [State.byteTrace]
  · rw [← hpos]; exact afterBytes_wire _ _
  · exact hsame.2.2.2.2.trans hr.1
  · show (_ && !_) = true
    rw [show (afterItem (b :: bs) s).sclPull = true from h1, show (afterItem (b :: bs) s).sdaPull = false from h2]; rfl

/-- A one-byte command leaves the wire in command position. -/
theorem after_command0 {row : CmdRow} (hw : pos.isCommand = true) (hr : commandRow b = some row)
    (ho : row.operands = 0) : pos.after [b] = .command (row.kind = .columnUpper) := by
  cases pos <;> simp_all [StreamPos.isCommand, StreamPos.after, StreamPos.next]

theorem after_command1 {row : CmdRow} {v : Byte} (hw : pos.isCommand = true) (hr : commandRow b = some row)
    (ho : row.operands = 1) : pos.after [b, v] = .command false := by
  cases pos <;> simp_all [StreamPos.isCommand, StreamPos.after, StreamPos.next]

theorem after_command2 {row : CmdRow} {v w : Byte} (hw : pos.isCommand = true) (hr : commandRow b = some row)
    (ho : row.operands = 2) : pos.after [b, v, w] = .command false := by
  cases pos <;> simp_all [StreamPos.isCommand, StreamPos.after, StreamPos.next]

/-! ### Items at a listening peer (20_memory.md R72 to R80) -/

/-- A listening peer answers every byte of the transaction it is addressed in. -/
theorem answering_of_listening (h : s.listening) (hw : s.wire ≠ .address) (hi : s.wire ≠ .idle) : Answering s :=
  ⟨h.1.1.1, h.1.2.1, h.2, hw, hi⟩

theorem isCommand_inside (h : pos.isCommand = true) : pos ≠ .address ∧ pos ≠ .idle ∧ ∃ u, pos = .command u := by
  cases pos <;> simp_all [StreamPos.isCommand]

/-- An item whose bytes have a meaning runs the display. -/
theorem afterItem_run (h : s.listening) (hw : s.wire ≠ .address) (hi : s.wire ≠ .idle)
    (hd : Display.run s.wire bs s.peer.disp = some d) : (afterItem bs s).peer = { s.peer with disp := d } :=
  (afterBytes_run (answering_of_listening h hw hi) h.1.2.2 hd).1

/-- An item with a byte that has no meaning leaves nothing known. -/
theorem afterItem_run_none (h : s.listening) (hw : s.wire ≠ .address) (hi : s.wire ≠ .idle)
    (hd : Display.run s.wire bs s.peer.disp = none) : (afterItem bs s).peer.disp = .unknown :=
  afterBytes_run_none (answering_of_listening h hw hi) h.1.2.2 hd

/-- The two together, for a command: what the bytes do decides what is known afterwards. -/
theorem sendCommand_disp (hr : s.readyOpen) (hf : s.flows) (hl : s.listening) (hw : s.wire.isCommand = true)
    (hd : Display.run s.wire bs s.peer.disp = some d) :
    ∃ t, sendCommand bs s = .next t ∧ t.wire = s.wire.after bs ∧ t.peer.disp = d := by
  obtain ⟨h1, h2, -⟩ := isCommand_inside hw
  refine ⟨_, sendCommand_of_flows hr hf hw bs, afterBytes_wire bs s, ?_⟩
  rw [afterItem_run hl h1 h2 hd]

theorem sendCommand_disp_none (hr : s.readyOpen) (hf : s.flows) (hl : s.listening) (hw : s.wire.isCommand = true)
    (hd : Display.run s.wire bs s.peer.disp = none) :
    ∃ t, sendCommand bs s = .next t ∧ t.peer.disp = .unknown := by
  obtain ⟨h1, h2, -⟩ := isCommand_inside hw
  exact ⟨_, sendCommand_of_flows hr hf hw bs, afterItem_run_none hl h1 h2 hd⟩

/-- A column range (R78): its bounds are columns, or it has no meaning. -/
theorem run_columnRange (u : Bool) (v w : Byte) (d : Display) : Display.run (.command u) [0x21, v, w] d =
    if v.toNat < 128 ∧ w.toNat < 128 then some { d with
      c0 := some (v.setWidth 7), c1 := some (w.setWidth 7), col := some (v.setWidth 7) }
    else none := by
  rw [run_command2 (row := ⟨.columnRange, 0x21, 0xFF, 2⟩) (by decide) rfl]
  show (d.columnRange v w).bind some = _
  unfold Display.columnRange columnOf
  rw [show Config.nCols = 128 from rfl]
  by_cases hv : v.toNat < 128 <;> by_cases hw : w.toNat < 128 <;> simp only [hv, hw, if_true, if_false] <;> rfl

/-- A page range (R78): its bounds are pages, or it has no meaning. -/
theorem run_pageRange (u : Bool) (v w : Byte) (d : Display) : Display.run (.command u) [0x22, v, w] d =
    if v.toNat < 8 ∧ w.toNat < 8 then some { d with
      g0 := some (v.setWidth 3), g1 := some (w.setWidth 3), page := some (v.setWidth 3) }
    else none := by
  rw [run_command2 (row := ⟨.pageRange, 0x22, 0xFF, 2⟩) (by decide) rfl]
  show (d.pageRange v w).bind some = _
  unfold Display.pageRange pageOf
  rw [show Config.nPages = 8 from rfl]
  by_cases hv : v.toNat < 8 <;> by_cases hw : w.toNat < 8 <;> simp only [hv, hw, if_true, if_false] <;> rfl

/-! ### Outside data position nothing is stored (20_memory.md R57, R65) -/

/-- What was known of the memory `m` is as it was, or not known any more. -/
def KeepsRam (m : List Host.Cell) (s : State) : Prop :=
  ∀ a, Memory.read s.peer.disp.ram a = Memory.read m a ∨ Memory.read s.peer.disp.ram a = none

theorem keepsRam_of_unknown (h : s.peer.disp = .unknown) : KeepsRam m s := by
  intro a
  rw [h]
  exact .inr rfl

theorem keepsRam_of_eq (h : t.peer.disp.ram = s.peer.disp.ram) (hs : KeepsRam m s) : KeepsRam m t := by
  intro a
  rw [h]
  exact hs a

/-- What a byte outside data position can do to the RAM of a peer: nothing, or nothing is known any more. -/
theorem Peer.receive_ram {p : Peer} {a : Byte} {pulls : Bool} (hw : pos ≠ .data) :
    (p.receive a pos b pulls).disp.ram = p.disp.ram ∨ (p.receive a pos b pulls).disp = .unknown := by
  have ht : (p.take pos b).disp.ram = p.disp.ram ∨ (p.take pos b).disp = .unknown := by
    unfold Peer.take
    split
    · split
      · rename_i d' hd
        rcases Display.take_ram hd with h | ⟨h, -⟩
        · exact .inl h
        · exact absurd h hw
      · exact .inr rfl
    · exact .inl rfl
  have hq : ∀ q : Peer, q = (if pulls = p.answer a pos b then p.take pos b else p.lost) →
      q.disp.ram = p.disp.ram ∨ q.disp = .unknown := by
    intro q hq
    split at hq
    · exact hq ▸ ht
    · exact .inr (hq ▸ rfl)
  unfold Peer.receive
  cases pos
  case address =>
    simp only
    rcases hq _ rfl with h | h
    · exact .inl h
    · exact .inr h
  all_goals exact hq _ rfl

theorem keepsRam_afterByte (b : Byte) (hw : s.wire ≠ .data) (hs : KeepsRam m s) : KeepsRam m (afterByte b s) := by
  rcases Peer.receive_ram (p := s.peer) (b := b) (a := s.params.devAddr) (pulls := s.peerPulls b) hw with h | h
  · exact keepsRam_of_eq h hs
  · exact keepsRam_of_unknown h

theorem keepsRam_mid {u : State} (h : MidByte s u) (hs : KeepsRam m s) : KeepsRam m u := by
  obtain ⟨_, _, _, _, _, rfl | rfl, rfl⟩ := h
  · exact hs
  · exact keepsRam_of_unknown rfl

theorem keepsRam_timeout (s : State) : KeepsRam m (takeTimeout s) := keepsRam_of_unknown rfl

theorem keepsRam_stop (hs : KeepsRam m s) : KeepsRam m (stopOp s) := by
  have hp : (stopOp s).peer = s.peer.stopSeen s.env.held := rfl
  unfold Peer.stopSeen at hp
  split at hp
  · exact keepsRam_of_unknown (congrArg Peer.disp hp)
  · exact keepsRam_of_eq (congrArg (fun p => p.disp.ram) hp) hs

theorem keepsRam_start (hs : KeepsRam m s) : KeepsRam m (afterStart s) := by
  have hp : (afterStart s).peer = (s.peer.powerChange s.env.powerNow).startSeen s.env.heldAtStart := rfl
  unfold Peer.startSeen Peer.powerChange at hp
  repeat' split at hp
  all_goals first
    | exact keepsRam_of_unknown (congrArg Peer.disp hp)
    | exact keepsRam_of_eq (congrArg (fun p => p.disp.ram) hp) hs

/-- What a byte frame outside data position does. -/
theorem shift9_keepsRam (b : Byte) (hw : s.wire ≠ .data) (hs : KeepsRam m s) :
    KeepsRam m (shift9 b s).1 ∧ ∀ a, (shift9 b s).2 = .acked a → (shift9 b s).1 = afterByte b s := by
  rcases shift9_cases b s with h | ⟨u, hm, h⟩ | ⟨u, hm, h⟩ <;> rw [h]
  · exact ⟨keepsRam_afterByte b hw hs, fun _ _ => rfl⟩
  · exact ⟨keepsRam_timeout u, fun _ h => by simp at h⟩
  · exact ⟨keepsRam_mid hm hs, fun _ h => by simp at h⟩

/-- Positions from which no byte leads to data: those of a command transaction, after its framing byte. -/
def StreamPos.pastFraming : StreamPos → Bool
  | .command _ => true
  | .operand _ _ _ _ => true
  | .noMeaning => true
  | .idle => true
  | .address => false
  | .control => false
  | .data => false

theorem pastFraming_next (h : pos.pastFraming = true) (b : Byte) : (pos.next b).pastFraming = true := by
  cases pos <;> simp only [StreamPos.next] <;> (repeat' split) <;> simp_all [StreamPos.pastFraming]

theorem pastFraming_not_data (h : pos.pastFraming = true) : pos ≠ .data := by
  rintro rfl
  simp [StreamPos.pastFraming] at h

theorem sendItem_keepsRam (bs : List Byte) (hw : s.wire.pastFraming = true) (hs : KeepsRam m s) :
    KeepsRam m (sendItem bs s).1 := by
  induction bs generalizing s with
  | nil => exact hs
  | cons b bs ih =>
    obtain ⟨h1, h2⟩ := shift9_keepsRam b (pastFraming_not_data hw) hs
    rw [sendItem]
    split
    · rename_i t a he
      rw [he] at h1 h2
      have : t = afterByte b s := h2 a rfl
      exact ih (by rw [this]; exact pastFraming_next hw b) h1
    all_goals simp_all

theorem sendPayload_keepsRam (check : Bool) (bs : List Byte) (hw : s.wire.pastFraming = true) (hs : KeepsRam m s) :
    KeepsRam m (sendPayload check bs s).1 := by
  induction bs generalizing s with
  | nil => exact keepsRam_stop hs
  | cons b bs ih =>
    obtain ⟨h1, h2⟩ := shift9_keepsRam b (pastFraming_not_data hw) hs
    rw [sendPayload]
    split
    · rename_i t a he
      rw [he] at h1 h2
      have : t = afterByte b s := h2 a rfl
      split
      · exact keepsRam_stop h1
      · exact ih (by rw [this]; exact pastFraming_next hw b) h1
    all_goals simp_all

/-- START leaves the RAM as it was, and the first payload byte is next. -/
theorem startOp_keepsRam (b : Byte) (hs : KeepsRam m s) :
    KeepsRam m (startOp b s).1 ∧ ∀ a, (startOp b s).2 = .acked a → (startOp b s).1.wire = .control := by
  obtain ⟨h1, h2⟩ := shift9_keepsRam (s := afterStart s) b (by simp [afterStart]) (keepsRam_start hs)
  refine ⟨h1, fun a ha => ?_⟩
  rw [show (startOp b s).1 = afterByte b (afterStart s) from h2 a ha]
  rfl

/-- A command transaction stores nothing. -/
theorem cmdTxn_keepsRam (issuer : Issuer) (cs : List Byte) (hs : KeepsRam m s) : KeepsRam m (cmdTxn issuer cs s).1 := by
  obtain ⟨h1, h2⟩ := startOp_keepsRam s.params.devAddr hs
  unfold cmdTxn
  rw [txn]
  split
  · rename_i t a he
    rw [he] at h1 h2
    have hc : t.wire = .control := h2 a rfl
    split
    · exact keepsRam_stop h1
    · obtain ⟨h3, h4⟩ := shift9_keepsRam ctrlCommandsByte (by rw [hc]; simp) h1
      rw [cmdPayload, sendPayload]
      split
      · rename_i u k he'
        rw [he'] at h3 h4
        have hu : u = afterByte ctrlCommandsByte t := h4 k rfl
        split
        · exact keepsRam_stop h3
        · refine sendPayload_keepsRam _ cs ?_ h3
          rw [hu, show (afterByte ctrlCommandsByte t).wire = t.wire.next ctrlCommandsByte from rfl, hc]
          rfl
      all_goals simp_all
  all_goals simp_all

end Sys2Proof.Machine
end

