-- ==== Sys2Proof/Tests/Slice0.lean ====
section
/-! SUPPORT. Tests: ill-formed terms, words written out from the encoding tables, the spec's own vectors
(95_test_vectors.md), one step each, and for every statement with hypotheses a state and operands that meet them. -/

namespace Sys2Proof.Tests

open Sys2Proof.Machine

/-! ### Tables, states and readings (95_test_vectors.md §2) -/

/-- `TESTFONT`. -/
def testFont : List Byte := (List.range 768).map fun k => BitVec.ofNat 8 ((29 * k + 7) % 251)

/-- `COS_REF`, as the table of 95_test_vectors.md §2 lists it. -/
def cosRef : List (Fin 9) :=
  [8, 8, 8, 8, 8, 8, 7, 7, 7, 7, 6, 6, 6, 5, 5, 4] ++ [4, 4, 3, 3, 2, 2, 2, 1, 1, 1, 1, 0, 0, 0, 0, 0] ++
  [0, 0, 0, 0, 0, 0, 1, 1, 1, 1, 2, 2, 2, 3, 3, 4] ++ [4, 4, 5, 5, 6, 6, 6, 7, 7, 7, 7, 8, 8, 8, 8, 8]

/-- The default parameters with the test tables. -/
def testParams : Params :=
  { Params.default with glyphCount := 96, fallbackIndex := 95, font := testFont, cos := cosRef }

/-- The reset state with the test tables: Idle, the peer unpowered. -/
def dark : State := { State.reset with params := testParams }

/-- The same with a powered peer that nothing is known of. -/
def lit : State := { dark with peer := .blank true }

/-- An open transaction that is addressed to the peer, its first payload byte next. -/
def opened : State :=
  { lit with sclPull := true, wire := .control, peer := { lit.peer with addressed := true } }

/-- The same in command position. -/
def commanded (afterUpper : Bool) : State := { opened with wire := .command afterUpper }

/-- The same in data position, at a display that is known to some extent. -/
def streaming (d : Display) : State := { opened with wire := .data, peer := { opened.peer with disp := d } }

/-- A display in page mode at (page, column). -/
def paged (page : BitVec 3) (col : BitVec 7) : Display :=
  { Display.unknown with mode := some .pageMode, page := some page, col := some col }

/-- A display in range mode with all columns, at (page, column). -/
def ranged (last page : BitVec 3) (col : BitVec 7) : Display :=
  { Display.unknown with
    mode := some .rangeMode, c0 := some 0, c1 := some 127, g0 := some 0, g1 := some last
    page := some page, col := some col }

/-- A powered peer that has had INIT, points at page 3, column 5, and has one known byte there. -/
def known : State :=
  { lit with peer := { lit.peer with disp := { paged 3 5 with ram := [(389, 0xAA)], cfg := initConfig } } }

/-- What a parameter change makes of a state. -/
def withPolicy (p : AckPolicy) (s : State) : State := { s with params := { s.params with ackPolicy := p } }

def withLimit (l : StretchLimit) (s : State) : State := { s with params := { s.params with stretchLimit := l } }

def withStretches (l : List Stretch) (s : State) : State := { s with env := { s.env with stretches := l } }

def withStartHeld (l : List Bool) (s : State) : State := { s with env := { s.env with startHeld := l } }

def withStopHeld (l : List Bool) (s : State) : State := { s with env := { s.env with stopHeld := l } }

def withPower (l : List PowerChange) (s : State) : State := { s with env := { s.env with power := l } }

def withFlips (seg com : Bool) (s : State) : State := { s with params := { s.params with flipSeg := seg, flipCom := com } }

def withAcks (l : List Bool) (s : State) : State := { s with env := { s.env with acks := l } }

/-- An answer is a next state with this property. -/
def gives (a : Answer) (p : State → Bool) : Bool :=
  match a with
  | .next t => p t
  | .fault _ => false
  | .refused _ => false

/-- An answer is this refusal. -/
def refuses (a : Answer) (r : Refusal) : Bool :=
  match a with
  | .next _ => false
  | .fault _ => false
  | .refused q => q = r

/-- A whole transaction in the byte trace, every byte acknowledged or none. -/
def whole (acked : Bool) (bs : List Byte) : List ByteEvent := .start :: bs.map (ByteEvent.byte · acked) ++ [.stop]

/-- An answer is a next state, Idle, with this byte trace since a state whose traces were empty, and this result. -/
def ends (a : Answer) (trace : List ByteEvent) (r : Result) : Bool :=
  gives a fun t => t.byteTrace = trace && t.result = r && t.isIdle

/-! ### Ill-formed terms are refused by the check (00_scope.md R11) -/

theorem test_wf_marquee : (Instr.marquee 0 0 8 (List.replicate 256 0x41) 0 1).wellFormed = false := by decide +kernel

theorem test_wf_bungee : (Instr.bungee 0 0 8 (List.replicate 256 0x41) 0).wellFormed = false := by decide +kernel

theorem test_wf_wobble : (Instr.wobble 0 0 (List.replicate 256 0x41) 0).wellFormed = false := by decide +kernel

theorem test_wf_writeBytes : (Instr.writeBytes (List.replicate 65536 0x00)).wellFormed = false := by
  simp only [Instr.wellFormed, fitsN, List.length_replicate]; decide

/-! ### Decoding, from words written out (30_encoding.md R94 to R100, R110; 95_test_vectors.md §8) -/

theorem test_decode_bus :
    decode [0x0] = .ok (.busCfg, []) ∧ decode [0x1, 0x78] = .ok (.start 0x78, []) ∧
    decode [0x2, 0x81] = .ok (.sendByte 0x81, []) ∧ decode [0x3] = .ok (.stop, []) := by decide

theorem test_decode_protocol :
    decode [0x4] = .ok (.init, []) ∧ decode [0x5, 0x02, 0x5A] = .ok (.setPageWindow 2 90, []) ∧
    decode [0x6, 0x00, 0x03, 0x00, 0x40, 0x00] = .ok (.writeBytes [0x00, 0x40, 0x00], []) ∧
    decode [0x7] = .ok (.clear, []) ∧ decode [0x8, 0x20] = .ok (.setContrast 0x20, []) := by decide

theorem test_decode_glyph : decode [0x9, 0x41] = .ok (.glyphFor 65, []) := by decide

theorem test_decode_animation :
    decode [0xA, 0x08, 0x02, 0x10, 0x02, 0x41, 0x42, 0x01, 0x04, 0x02] = .ok (.marquee 8 2 16 [0x41, 0x42] 260 2, []) ∧
    decode [0xB, 0x04, 0x01, 0x08, 0x02, 0x41, 0x42, 0x00, 0x0F] = .ok (.bungee 4 1 8 [0x41, 0x42] 15, []) ∧
    decode [0xC, 0x00, 0x00, 0x01, 0x41, 0x01] = .ok (.wobble 0 0 [0x41] 1, []) := by decide

theorem test_decode_reserved :
    decode [0xD] = .ok (.reserved1101, []) ∧ decode [0xE] = .ok (.reserved1110, []) ∧
    decode [0xF] = .ok (.reserved1111, []) := by decide

theorem test_decode_wire :
    decode [0x10, 0x78] = .ok (.addrByte 0, []) ∧ decode [0x10, 0x7A] = .ok (.addrByte 1, []) ∧
    decode [0x11, 0x00] = .ok (.ctrlCommands, []) ∧ decode [0x11, 0x40] = .ok (.ctrlData, []) := by decide

theorem test_decode_commands :
    decode [0x12, 0xA8, 0x1F] = .ok (.cmdMuxRatio 0x1F, []) ∧
    decode [0x12, 0xD3, 0x00] = .ok (.cmdDisplayOffset 0x00, []) ∧ decode [0x12, 0x40] = .ok (.cmdStartLine, []) ∧
    decode [0x12, 0xA1] = .ok (.cmdSegmentRemap 1, []) ∧ decode [0x12, 0xC8] = .ok (.cmdComScanDir 1, []) ∧
    decode [0x12, 0xDA, 0x02] = .ok (.cmdComPins 0x02, []) ∧ decode [0x12, 0x81, 0x7F] = .ok (.cmdContrast 0x7F, []) := by decide

theorem test_decode_more_commands :
    decode [0x12, 0xA4] = .ok (.cmdEntireDisplayOn 0, []) ∧ decode [0x12, 0xA6] = .ok (.cmdNormalInverted 0, []) ∧
    decode [0x12, 0xD5, 0x80] = .ok (.cmdOscFreq 0x80, []) ∧ decode [0x12, 0x8D, 0x14] = .ok (.cmdChargePump 0x14, []) ∧
    decode [0x12, 0xAF] = .ok (.cmdDisplayOnOff 1, []) := by decide

theorem test_decode_addressing :
    decode [0x12, 0x20, 0x02] = .ok (.cmdAddressingMode 0x02, []) ∧
    decode [0x12, 0x21, 0x00, 0x7F] = .ok (.cmdColumnRange 0x00 0x7F, []) ∧
    decode [0x12, 0x22, 0x00, 0x03] = .ok (.cmdPageRange 0x00 0x03, []) ∧
    decode [0x12, 0xB3] = .ok (.cmdPageStart 3, []) ∧ decode [0x12, 0x17] = .ok (.cmdColumnUpper 7, []) ∧
    decode [0x12, 0x0F] = .ok (.cmdColumnLower 15, []) := by decide

/-- Page 8 and column 128 cannot be said (V22b); a command byte outside the closed set is no item (R100). -/
theorem test_decode_rejects :
    decode [] = .error .empty ∧ decode [0x5, 0x08, 0x00] = .error (.operandTooWide 0x08) ∧
    decode [0x5, 0x00, 0x80] = .error (.operandTooWide 0x80) ∧ decode [0x1] = .error .truncated ∧
    decode [0x6, 0x00, 0x02, 0x01] = .error .truncated ∧ decode [0x10, 0x79] = .error (.notAnAddress 0x79) ∧
    decode [0x11, 0x80] = .error (.notAFramingByte 0x80) ∧ decode [0x12, 0xE3] = .error (.notACommand 0xE3) ∧
    decode [0x13] = .error (.unknownMarker 0x13) := by decide

/-- No byte begins two commands (R119). -/
theorem test_commands_disjoint :
    ∀ b : Byte, (commandTable.filter fun row => b &&& row.mask == row.base).length ≤ 1 := by decide +kernel

theorem test_decodeTableWord :
    decodeTableWord 16 0x7801 = some (.start 0x78) ∧ decodeTableWord 8 0x05 = some (.setPageWindow 0 0) ∧
    decodeTableWord 8 0xB5 = some (.cmdPageStart 5) ∧ decodeTableWord 16 0x1FA8 = some (.cmdMuxRatio 0x1F) ∧
    decodeTableWord 8 0x7A = some (.addrByte 1) := by decide

/-! ### A word of the table runs as the next step (notes/assumptions/5.md) -/

theorem test_step_busCfg :
    gives (step (State.reset.withFetchWord 8 0x00)) (fun t => t.lineTrace = [.scl true, .sda true]) = true := by
  decide +kernel

theorem test_step_command :
    gives (step (State.reset.withFetchWord 16 0x1FA8))
      (fun t => t.byteTrace = [.byte 0xA8 false, .byte 0x1F false]) = true := by decide +kernel

/-! ### Bus (95_test_vectors.md §3) -/

/-- V1. -/
theorem test_busCfg :
    gives (exec .busCfg lit) (fun t => t.lineTrace = [.scl true, .sda true] && t.isIdle) = true := by decide +kernel

/-- V2's trace, a bit slot at a time: the bits of `0xA5` most significant first, and the acknowledge slot. -/
def slot (bit : Bool) : List LineEvent := [.sda bit, .scl true, .wait, .scl false]

def frameA5 : List LineEvent :=
  slot true ++ slot false ++ slot true ++ slot false ++ slot false ++ slot true ++ slot false ++ slot true ++
    [.sda true, .scl true, .wait, .sample false, .scl false]

/-- V2. -/
theorem test_sendByte :
    gives (exec (.sendByte 0xA5) opened) (fun t => t.result = .acked true && t.isOpen && t.lineTrace = frameA5) =
      true := by decide +kernel

/-- V2: with idempotent events removed, 34 are left. -/
theorem test_sendByte_waveform : (waveform false true (byteFrame 0xA5 true)).length = 34 := by decide

/-- V3: 41 events; V4: to an unpowered peer the same, not acknowledged, the transaction open. -/
theorem test_start :
    gives (exec (.start 0x78) lit) (fun t => t.result = .acked true && t.line.length = 41 &&
      t.lineTrace.take 8 = [.sda false, .hold .startHold, .scl false, .hold .startHold, .sda false, .scl true, .wait,
        .scl false]) = true ∧
    gives (exec (.start 0x78) dark) (fun t => t.result = .acked false && t.isOpen && t.ack = false) = true := by
  decide +kernel

/-- V5. -/
theorem test_stop :
    gives (exec .stop opened) (fun t => t.isIdle &&
      t.lineTrace = [.sda false, .scl true, .hold .stopHold, .sda true, .hold .idleHold]) = true := by decide +kernel

/-- V7: a finite stretch changes nothing but time. -/
theorem test_stretch :
    gives (exec (.sendByte 0x80) (withStretches [.reads 1000] opened))
      (fun t => t.lineTrace = byteFrame 0x80 true && t.result = .acked true) = true := by decide +kernel

/-- V7a: a clock held for ever. -/
theorem test_hang :
    gives (exec (.sendByte 0x80) (withStretches [.forever] opened)) (fun t => t.hung && t.result = .none &&
      !t.sclPull && !t.sdaPull && t.lineTrace = [.sda true, .scl true, .wait]) = true := by decide +kernel

/-- R69 (c), R245: in slot 8 the peer is inside the byte still; in the acknowledge slot it may have acted on it
(notes/assumptions/30.md). -/
theorem test_hang_peer :
    gives (exec (.sendByte 0x11) (withStretches (List.replicate 7 (.reads 0) ++ [.forever]) (streaming (paged 0 5))))
      (fun t => t.hung && t.peer.disp = paged 0 5) = true ∧
    gives (exec (.sendByte 0x11) (withStretches (List.replicate 8 (.reads 0) ++ [.forever]) (streaming (paged 0 5))))
      (fun t => t.hung && t.peer.disp = .unknown) = true := by decide +kernel

/-- R138: a line held low as START begins changes nothing for the block; the peer is out of step until STOP. -/
theorem test_start_held :
    gives (exec (.start 0x78) (withStartHeld [true] { lit with peer := { lit.peer with disp := paged 0 5 } }))
      (fun t => t.lineTrace.take 4 = startFrame && t.line.length = 41 && t.isOpen && t.peer.disp = .unknown &&
        !t.peer.synced && t.env.startHeld = []) = true := by decide +kernel

/-- R33, R72: a peer without power neither acknowledges nor holds the clock, whatever the environment's lists say. -/
theorem test_no_power :
    gives (exec (.start 0x78) (withAcks [true] (withStretches [.forever] (withStartHeld [true] dark))))
      (fun t => t.result = .acked false && !t.hung && t.isOpen && !t.peer.on && !t.peer.addressed && t.peer.synced &&
        t.line.length = 41) = true ∧
    ends (exec .init (withAcks [true, true] dark)) (whole false [0x78]) (.acked false) = true := by decide +kernel

/-- R298: the peer loses power after INIT, or is reset, as SETPAGEWINDOW begins. Without power it acknowledges nothing and
the status is OK all the same; after a reset it acknowledges. In both cases the frame it showed is gone. -/
theorem test_silent_loss :
    known.peer.disp.frame.isSome = true ∧
    ends (exec (.setPageWindow 2 90) (withPower [.off] known))
      (whole false [0x78, 0x00, 0x20, 0x02, 0xB2, 0x15, 0x0A]) (.status .ok) = true ∧
    gives (exec (.setPageWindow 2 90) (withPower [.off] known)) (fun t => t.peer = .blank false) = true ∧
    gives (exec (.setPageWindow 2 90) (withPower [.reset] known)) (fun t => t.ack && t.peer.on &&
      t.peer.disp = paged 2 90 && t.peer.disp.frame = none) = true := by decide +kernel

/-- R298, R71: INIT run again, once power is back, configures the peer anew; to one without power it fails. -/
theorem test_init_after_loss :
    gives (exec .init (withPower [.on] dark)) (fun t => t.result = .acked true && t.peer.disp.frame.isSome) = true ∧
    ends (exec .init (withPower [.off] known)) (whole false [0x78]) (.acked false) = true := by decide +kernel

/-- V7b: bound 3, three low reads. -/
theorem test_timeout :
    gives (exec (.sendByte 0x00) (withLimit (.bounded 3) (withStretches [.reads 3] opened))) (fun t =>
      !t.hung && t.isIdle && t.result = .timeout &&
      t.lineTrace = [.sda false, .scl true, .wait, .sda true]) = true := by decide +kernel

/-- V7c: the refusals. -/
theorem test_bus_refusals :
    refuses (exec (.start 0x78) opened) .notIdle = true ∧ refuses (exec (.start 0x79) lit) .readBit = true ∧
    refuses (exec (.sendByte 0x00) lit) .notOpen = true ∧ refuses (exec .stop lit) .notOpen = true ∧
    refuses (exec .busCfg opened) .notIdle = true ∧ refuses (exec .reserved1101 lit) (.reservedSelector 0xD) = true := by
  decide +kernel

/-! ### Protocol (95_test_vectors.md §4) -/

/-- V8. -/
theorem test_init : ends (exec .init lit)
    (whole true [0x78, 0x00, 0xA8, 0x1F, 0xD3, 0x00, 0x40, 0xA0, 0xC0, 0xDA, 0x02, 0x81, 0x7F, 0xA4, 0xA6, 0xD5, 0x80,
      0x8D, 0x14, 0xAF]) (.acked true) = true := by decide +kernel

/-- V9 and V10: the first missing acknowledge ends INIT. -/
theorem test_init_nack :
    ends (exec .init dark) (whole false [0x78]) (.acked false) = true ∧
    ends (exec .init (withAcks [true, true, true, false] lit))
      [.start, .byte 0x78 true, .byte 0x00 true, .byte 0xA8 true, .byte 0x1F false, .stop] (.acked false) = true := by
  decide +kernel

/-- V14 and V15. -/
theorem test_setPageWindow :
    ends (exec (.setPageWindow 3 127) lit) (whole true [0x78, 0x00, 0x20, 0x02, 0xB3, 0x17, 0x0F]) (.status .ok) = true ∧
    ends (exec (.setPageWindow 2 90) lit) (whole true [0x78, 0x00, 0x20, 0x02, 0xB2, 0x15, 0x0A]) (.status .ok) = true := by
  decide +kernel

/-- V22: to an unpowered peer, by policy. -/
theorem test_policies :
    ends (exec (.setPageWindow 2 90) dark) (whole false [0x78, 0x00, 0x20, 0x02, 0xB2, 0x15, 0x0A]) (.status .ok) = true ∧
    ends (exec (.setPageWindow 2 90) (withPolicy .all dark)) (whole false [0x78]) (.status .nack) = true := by
  decide +kernel

/-- V19 and V19a: framing bytes after the first are data. -/
theorem test_writeBytes :
    ends (exec (.writeBytes []) lit) (whole true [0x78, 0x40]) (.status .ok) = true ∧
    ends (exec (.writeBytes [0x00, 0x40, 0x00]) lit) (whole true [0x78, 0x40, 0x00, 0x40, 0x00]) (.status .ok) = true := by
  decide +kernel

/-- V22a: CLEAR under policy `All`, the peer silent from the second transaction on. -/
theorem test_clear :
    ends (exec .clear (withPolicy .all (withAcks (List.replicate 10 true ++ [false]) lit)))
      (whole true [0x78, 0x00, 0x20, 0x00, 0x21, 0x00, 0x7F, 0x22, 0x00, 0x03] ++ whole false [0x78])
      (.status .nack) = true := by decide +kernel

/-- V21, and Program 2's end state of the peer. -/
theorem test_setContrast :
    ends (exec (.setContrast 0xFF) lit) (whole true [0x78, 0x00, 0x81, 0xFF]) (.status .ok) = true ∧
    gives (exec (.setContrast 0xFF) lit) (fun t => t.peer.disp.contrast = some 0xFF) = true := by decide +kernel

/-! ### GlyphSource (95_test_vectors.md §5) -/

/-- V23 and V25. -/
theorem test_glyphFor :
    gives (exec (.glyphFor 65) lit)
      (fun t => t.result = .glyph [0x85, 0xA2, 0xBF, 0xDC, 0xF9, 0x1B, 0x38, 0x55]) = true ∧
    gives (exec (.glyphFor 126) opened)
      (fun t => t.result = .glyph [0xE5, 0x07, 0x24, 0x41, 0x5E, 0x7B, 0x98, 0xB5]) = true := by decide +kernel

/-- V26 to V28: the fallback on both sides of the printable range. -/
theorem test_glyphFor_fallback : ∀ c ∈ [(31 : Byte), 127, 200],
    gives (exec (.glyphFor c) lit)
      (fun t => t.result = .glyph [0xD2, 0xEF, 0x11, 0x2E, 0x4B, 0x68, 0x85, 0xA2]) = true := by decide +kernel

/-! ### AnimationEngine (95_test_vectors.md §6, §7) -/

/-- V32: a scrolled start, a control code and the wrap. -/
theorem test_marquee : ends (exec (.marquee 0 0 16 [0x41, 0x07] 4 1) lit)
    (whole true [0x78, 0x00, 0x20, 0x02, 0xB0, 0x10, 0x00] ++ whole true [0x78, 0x40, 0xF9, 0x1B, 0x38, 0x55, 0xD2, 0xEF,
      0x11, 0x2E, 0x4B, 0x68, 0x85, 0xA2, 0x85, 0xA2, 0xBF, 0xDC]) (.offset 5 .ok) = true := by decide +kernel

/-- V31: `ADVANCE` past the end. -/
theorem test_advance :
    advance 30 30 [0x41, 0x42] = 4 ∧ advance 15 255 [0x41, 0x42] = 6 ∧ advance 14 2 [0x41, 0x42] = 0 := by decide

/-- V35. -/
theorem test_marquee_refusals :
    refuses (exec (.marquee 121 0 8 [0x41] 0 1) lit) .pastLastColumn = true ∧
    refuses (exec (.marquee 0 0 0 [0x41] 0 1) lit) .badWidth = true ∧
    refuses (exec (.marquee 0 0 8 [] 0 1) lit) .badLength = true ∧
    refuses (exec (.marquee 0 0 8 [0x41, 0x42] 16 1) lit) .badOffset = true := by decide +kernel

/-- V38. -/
theorem test_bungee : ends (exec (.bungee 4 1 8 [0x41, 0x42] 15) lit)
    (whole true [0x78, 0x00, 0x20, 0x02, 0xB1, 0x10, 0x04] ++
      whole true [0x78, 0x40, 0x42, 0x85, 0x85, 0xA2, 0xA2, 0xA2, 0xBF, 0xBF]) (.offset 0 .ok) = true := by decide +kernel

/-- V36. -/
theorem test_bungee_runs :
    bungeeRuns 1 = [(1, 1)] ∧ bungeeRuns 5 = [(1, 1), (2, 2), (1, 1), (1, 1)] ∧
    bungeeRuns 32 = [(1, 1), (2, 2), (3, 3), (4, 4), (5, 5), (6, 6), (5, 5), (4, 4), (3, 2)] ∧
    (bungeeRuns 128).length = 28 := by decide +kernel

/-- V40. -/
theorem test_wobble : ends (exec (.wobble 8 1 [0x41, 0x42] 0) lit)
    (whole true [0x78, 0x00, 0x20, 0x02, 0xB1, 0x10, 0x08] ++ whole true [0x78, 0x40, 0x00, 0x00, 0x00, 0x00, 0x00, 0x00,
      0x00, 0x80, 0x00, 0x80, 0x00, 0x40, 0x80, 0x00, 0xA0, 0x20] ++
      whole true [0x78, 0x00, 0x20, 0x02, 0xB2, 0x10, 0x08] ++ whole true [0x78, 0x40, 0x85, 0xA2, 0xBF, 0xDC, 0xF9, 0x1B,
      0x1C, 0x2A, 0x39, 0x47, 0x2B, 0x32, 0x39, 0x01, 0x04, 0x04]) (.phase 1 .ok) = true := by decide +kernel

/-- V44. -/
theorem test_wobble_refusals :
    refuses (exec (.wobble 0 7 [0x41] 0) lit) .badPage = true ∧
    refuses (exec (.wobble 121 0 [0x41] 0) lit) .pastLastColumn = true ∧
    refuses (exec (.wobble 0 0 [] 0) lit) .badLength = true ∧
    gives (exec (.wobble 0 3 [0x41] 0) lit) (fun t => t.isIdle) = true := by decide +kernel

/-- V45: a failed renderer gives its state back unchanged. -/
theorem test_marquee_nack :
    ends (exec (.marquee 0 0 16 [0x41, 0x42] 6 2) (withPolicy .all dark)) (whole false [0x78]) (.offset 6 .nack) = true := by
  decide +kernel

/-- V46: 63 waits of the first transaction and the data transaction's first two bytes (18 waits) end; the wait after
them, in its third byte, does not. -/
theorem test_wobble_timeout :
    ends (exec (.wobble 0 0 [0x41] 5)
      (withLimit (.bounded 3) (withStretches (List.replicate 81 (.reads 0) ++ [.reads 3]) lit)))
      (whole true [0x78, 0x00, 0x20, 0x02, 0xB0, 0x10, 0x00] ++ [.start, .byte 0x78 true, .byte 0x40 true])
      (.phase 5 .timeout) = true := by decide +kernel

/-! ### Wire items and the reference peer (20_memory.md R72 to R80; 95_test_vectors.md §8, Program 5) -/

theorem test_addrByte :
    gives (exec (.addrByte 0) lit)
      (fun t => t.result = .acked true && t.byteTrace = [.start, .byte 0x78 true] && t.peer.addressed) = true ∧
    gives (exec (.addrByte 1) lit)
      (fun t => t.result = .acked false && t.byteTrace = [.start, .byte 0x7A false] && !t.peer.addressed) = true := by
  decide +kernel

theorem test_framing :
    gives (exec .ctrlCommands opened) (fun t => t.byteTrace = [.byte 0x00 true] && t.wire = .command false) = true ∧
    gives (exec .ctrlData opened) (fun t => t.byteTrace = [.byte 0x40 true] && t.wire = .data) = true ∧
    refuses (exec .ctrlData (commanded false)) .wrongPosition = true := by decide +kernel

/-- INIT's values, item by item (R80): what the peer lists. -/
theorem test_configuration_items :
    gives (exec (.cmdMuxRatio 0x1F) (commanded false)) (fun t => t.peer.disp.cfg = [⟨0xA8, some 0x1F⟩]) = true ∧
    gives (exec (.cmdDisplayOffset 0x00) (commanded false)) (fun t => t.peer.disp.cfg = [⟨0xD3, some 0x00⟩]) = true ∧
    gives (exec .cmdStartLine (commanded false)) (fun t => t.peer.disp.cfg = [⟨0x40, none⟩]) = true ∧
    gives (exec (.cmdSegmentRemap 1) (commanded false)) (fun t => t.peer.disp.cfg = [⟨0xA1, none⟩]) = true ∧
    gives (exec (.cmdComScanDir 1) (commanded false)) (fun t => t.peer.disp.cfg = [⟨0xC8, none⟩]) = true ∧
    gives (exec (.cmdComPins 0x02) (commanded false)) (fun t => t.peer.disp.cfg = [⟨0xDA, some 0x02⟩]) = true := by
  decide +kernel

theorem test_more_configuration_items :
    gives (exec (.cmdEntireDisplayOn 0) (commanded false)) (fun t => t.peer.disp.cfg = [⟨0xA4, none⟩]) = true ∧
    gives (exec (.cmdNormalInverted 0) (commanded false)) (fun t => t.peer.disp.cfg = [⟨0xA6, none⟩]) = true ∧
    gives (exec (.cmdOscFreq 0x80) (commanded false)) (fun t => t.peer.disp.cfg = [⟨0xD5, some 0x80⟩]) = true ∧
    gives (exec (.cmdChargePump 0x14) (commanded false)) (fun t => t.peer.disp.cfg = [⟨0x8D, some 0x14⟩]) = true ∧
    gives (exec (.cmdDisplayOnOff 1) (commanded false)) (fun t => t.peer.disp.cfg = [⟨0xAF, none⟩]) = true ∧
    gives (exec (.cmdContrast 0x7F) (commanded false)) (fun t => t.peer.disp.contrast = some 0x7F) = true := by
  decide +kernel

theorem test_addressing_items :
    gives (exec (.cmdAddressingMode 0x00) (commanded false)) (fun t => t.peer.disp.mode = some .rangeMode) = true ∧
    gives (exec (.cmdColumnRange 0x05 0x7F) (commanded false))
      (fun t => t.peer.disp.col = some 5 && t.peer.disp.c1 = some 127) = true ∧
    gives (exec (.cmdPageRange 0x01 0x03) (commanded false))
      (fun t => t.peer.disp.page = some 1 && t.peer.disp.g1 = some 3) = true ∧
    gives (exec (.cmdPageStart 1) (commanded false)) (fun t => t.peer.disp.page = some 1) = true := by decide +kernel

/-- Program 5: the lower nibble first leaves the column unknown, the upper one pending; the right order makes 37. -/
theorem test_nibbles :
    gives (exec (.cmdColumnUpper 2) { commanded false with peer := { opened.peer with disp := paged 1 5 } })
      (fun t => t.peer.disp.col = none && t.peer.disp.hi = some 2 && t.wire = .command true) = true ∧
    gives (exec (.cmdColumnLower 5)
      { commanded true with peer := { opened.peer with disp := { paged 1 5 with col := none, hi := some 2 } } })
      (fun t => t.peer.disp.col = some 37 && t.peer.disp.hi = none) = true := by decide +kernel

/-- Program 5: a data byte with the column unknown has no meaning; with it known it lands there. -/
theorem test_data :
    gives (exec (.writeBytes [0xAA]) { lit with peer := { lit.peer with disp := { paged 1 5 with col := none } } })
      (fun t => t.result = .status .ok && t.peer.disp = .unknown) = true ∧
    gives (exec (.writeBytes [0xAA]) { lit with peer := { lit.peer with disp := paged 1 37 } })
      (fun t => t.peer.disp.byteAt 1 37 = some 0xAA && t.peer.disp.col = some 38) = true := by decide +kernel

/-- R79: the column unknown after column 127 in page mode; page step and end of the window in range mode. -/
theorem test_data_edges :
    gives (exec (.sendByte 0x11) (streaming (paged 0 127))) (fun t => t.peer.disp.col = none) = true ∧
    gives (exec (.sendByte 0x11) (streaming (ranged 3 2 127)))
      (fun t => t.peer.disp.col = some 0 && t.peer.disp.page = some 3) = true ∧
    gives (exec (.sendByte 0x11) (streaming (ranged 3 3 127)))
      (fun t => t.peer.disp.col = none && t.peer.disp.page = none && t.peer.disp.byteAt 3 127 = some 0x11) = true := by
  decide +kernel

/-- R81: the frame of an INIT sequence received whole, of a part of it sent again, and none where a setting of it was
changed, the orientation was flipped, or it has not been received. -/
theorem test_frame :
    ({ Display.unknown with cfg := initConfig, ram := [(5, 0x08), (512, 0xFF)] }).frame =
      some (List.replicate 5 none ++ [some 0x08] ++ List.replicate 506 none) ∧
    ({ Display.unknown with cfg := initConfig ++ initConfig.take 4 }).frame ≠ none ∧
    ({ Display.unknown with cfg := initConfig ++ [(⟨0xC8, none⟩ : CfgCommand)] }).frame = none ∧
    ({ Display.unknown with cfg := initConfig ++ [(⟨0xAE, none⟩ : CfgCommand)] }).frame = none ∧
    Display.unknown.frame = none := by decide +kernel

/-- R163, R165, R81: INIT itself makes the frame visible, unless the orientation is flipped. -/
theorem test_init_frame :
    gives (exec .init lit) (fun t => t.peer.disp.cfg = initConfig && t.peer.disp.frame ≠ none) = true ∧
    gives (exec .init (withFlips false true lit)) (fun t => t.peer.disp.frame = none) = true := by decide +kernel

/-- R56: bit `r mod 8` of page `r div 8`. -/
theorem test_pixel :
    ({ Display.unknown with ram := [(128 * 2 + 5, 0x08)] }).pixel 5 19 = some true ∧
    ({ Display.unknown with ram := [(128 * 2 + 5, 0x08)] }).pixel 5 20 = some false := by decide

/-! ### Witnesses: for every statement with hypotheses a state and operands that meet them all

`witness_<Name>` belongs to the statement `Obligations.<Name>`. -/

/-- No stretch to come, or every one below the bound. -/
theorem lit_flows : lit.flows := ⟨by decide, by decide⟩

theorem dark_flows : dark.flows := ⟨by decide, by decide⟩

/-- Nothing a peer without power could do stops a wait. -/
theorem dark_flows_always : (withAcks [true] (withStretches [.forever] dark)).flows := ⟨by decide, .inl (by decide)⟩

theorem opened_flows : opened.flows := ⟨by decide, by decide⟩

theorem bounded_flows : (withLimit (.bounded 4) (withStretches [.reads 3, .reads 0] lit)).flows :=
  ⟨by decide, by decide⟩

/-- The parameters of the test states are legal. -/
theorem lit_inv : lit.Inv := by decide +kernel

theorem witness_StepKeepsTheInvariant :
    ({ lit with requests := [0x8, 0x20] }).Inv ∧
    gives (step { lit with requests := [0x8, 0x20] }) (fun t => t.requests = []) = true := by decide +kernel

theorem witness_StepRunsTheDecodedRequest :
    decode ({ lit with requests := [0x5, 0x07, 0x7F, 0x3] }).requests = .ok (.setPageWindow 7 127, [0x3]) ∧
    lit.hung = false := by decide +kernel

theorem witness_StepWithoutRequest :
    lit.hung = false ∧ lit.requests = [] ∧ [(0x13 : Byte)] ≠ [] ∧
    decode ({ lit with requests := [0x13] }).requests = .error (.unknownMarker 0x13) := by decide +kernel

theorem witness_EveryInstructionDecodesFromItsEncoding :
    (Instr.marquee 127 7 255 (List.replicate 255 0xFF) 0xFFFF 255).wellFormed = true ∧
    (Instr.writeBytes []).wellFormed = true := by decide +kernel

theorem witness_WhateverDecodesIsAnEncoding :
    decode [0xC, 0x7F, 0x07, 0x00, 0xFF, 0x99] = .ok (.wobble 127 7 [] 0xFF, [0x99]) := by decide

theorem witness_WrongPhaseIsRefused :
    lit.ready ∧ (0x79 : Byte).getLsbD 0 = true ∧ opened.readyOpen := by decide

/-- One illegal operand at a time, at the edge of its range. -/
theorem witness_RenderersRefuseIllegalOperands :
    lit.ready ∧ (0 : Byte).toNat = 0 ∧ 128 < (129 : Byte).toNat ∧ 128 < (121 : BitVec 7).toNat + (8 : Byte).toNat ∧
    ([] : List Byte).length = 0 ∧ 8 * [(0x41 : Byte)].length ≤ (8 : BitVec 16).toNat ∧
    128 < (121 : BitVec 7).toNat + 8 * [(0x41 : Byte)].length ∧ (7 : BitVec 3) = 7 := by decide

theorem witness_ItemsOutOfPositionAreRefused :
    (commanded false).readyOpen ∧ (commanded false).wire ≠ .control ∧ opened.readyOpen ∧
    opened.wire.isCommand = false := by decide

theorem witness_BusCfgReleasesBothLines : lit.ready ∧ opened.readyOpen := by decide

theorem witness_StartSendsConditionAndAddress : lit.ready ∧ lit.flows ∧ (0xFE : Byte).getLsbD 0 = false :=
  ⟨by decide, lit_flows, by decide⟩

theorem witness_SendByteSendsItsFrame : opened.readyOpen ∧ opened.flows := ⟨by decide, opened_flows⟩

theorem witness_StopSendsConditionAndIdles : opened.readyOpen := by decide

theorem witness_ReferencePeerAcknowledges :
    lit.ready ∧ lit.flows ∧ lit.reference ∧ (0x78 : Byte).getLsbD 0 = false ∧
    opened.readyOpen ∧ opened.flows ∧ opened.reference ∧ opened.wire ≠ .address ∧
    (withAcks [true] dark).silent ∧ gives (exec (.start 0x78) (withAcks [true] dark)) (fun _ => true) = true :=
  ⟨by decide, lit_flows, by decide, by decide, by decide, opened_flows, by decide, by decide, by decide,
    by decide +kernel⟩

/-- Each clause of R79: a pointer unknown; page mode at both ends; range mode inside the window, at its last cell, and
with another column window. -/
theorem witness_DataBytesStoreAtThePointers :
    (streaming (paged 7 127)).readyOpen ∧ (streaming (paged 7 127)).flows ∧ (streaming (paged 7 127)).listening ∧
    (streaming (paged 7 127)).wire = .data ∧ (Display.unknown).page = none ∧
    (paged 7 127).page = some 7 ∧ (paged 7 127).col = some 127 ∧ (paged 7 127).mode = some .pageMode ∧
    (ranged 3 3 127).mode = some .rangeMode ∧ (ranged 3 3 127).c0 = some 0 ∧ (ranged 3 3 127).c1 = some 127 ∧
    (ranged 3 3 127).g1 = some 3 ∧ ({ ranged 3 3 127 with g1 := none }).g1 = none ∧
    ({ ranged 3 3 127 with c0 := some 1 }).c0 ≠ some 0 :=
  ⟨by decide, ⟨by decide, by decide⟩, by decide, by decide, by decide, by decide, by decide, by decide, by decide,
    by decide, by decide, by decide, by decide, by decide⟩

theorem witness_OnlyDataBytesStore :
    (commanded true).readyOpen ∧ (commanded true).flows ∧ (commanded true).listening ∧
    (commanded true).wire ≠ .data ∧ (commanded true).wire ≠ .address :=
  ⟨by decide, ⟨by decide, by decide⟩, by decide, by decide, by decide⟩

theorem witness_BusOperationsKeepTheDisplay :
    lit.flows ∧ lit.reference ∧ opened.flows ∧ opened.reference ∧ opened.readyOpen ∧
    gives (exec (.start 0x78) lit) (fun _ => true) = true ∧ gives (exec (.addrByte 1) lit) (fun _ => true) = true ∧
    gives (exec .ctrlData opened) (fun _ => true) = true ∧ gives (exec .busCfg lit) (fun _ => true) = true :=
  ⟨lit_flows, by decide, opened_flows, by decide, by decide, by decide +kernel, by decide +kernel, by decide +kernel,
    by decide +kernel⟩

/-- `n` stretches that end, and one that does not. -/
def endless (n : Nat) : List Stretch := List.replicate n (.reads 2) ++ [.forever]

/-- `n` stretches below bound 3, and one that reaches it. -/
def tooLong (n : Nat) : List Stretch := List.replicate n (.reads 2) ++ [.reads 3]

theorem endless_hangs (n : Nat) (s : State) (h : s.params.stretchLimit = .unbounded) :
    (withStretches (endless n) s).hangsAfter n := by
  refine ⟨h, fun j hj => ⟨2, ?_⟩, ?_⟩
  · simp [withStretches, endless, List.getElem?_append, hj]
  · simp [withStretches, endless]

theorem tooLong_timesOut (n : Nat) (s : State) : (withLimit (.bounded 3) (withStretches (tooLong n) s)).timesOutAfter n := by
  refine ⟨3, rfl, fun j hj => ⟨2, ?_, by decide⟩, .inr ⟨3, ?_, by decide⟩⟩
  · simp [withLimit, withStretches, tooLong, List.getElem?_append, hj]
  · simp [withLimit, withStretches, tooLong]

/-- SENDBYTE in the first and in the acknowledge slot; START in its acknowledge slot; SETCONTRAST in the acknowledge slot
of the address byte (95_test_vectors.md, Program 6). -/
theorem witness_EndlessStretchHangs :
    ((withStretches (endless 0) opened).readyOpen ∧ opened.peer.on = true ∧ 0 < 9 ∧
      (withStretches (endless 0) opened).hangsAfter 0) ∧
    ((withStretches (endless 8) opened).readyOpen ∧ 8 < 9 ∧ (withStretches (endless 8) opened).hangsAfter 8) ∧
    ((withStretches (endless 8) lit).ready ∧ (withStretches (endless 8) lit).powered ∧ (0x78 : Byte).getLsbD 0 = false ∧
      (withStretches (endless 8) lit).hangsAfter 8) ∧
    opPayloads (withStretches (endless 8) lit).params (.setContrast 0x10) = some [[0x00, 0x81, 0x10]] ∧
    [[(0x00 : Byte), 0x81, 0x10]] = [] ++ [0x00, 0x81, 0x10] :: [] ∧
    (withStretches (endless 8) lit).params.devAddr :: [(0x00 : Byte), 0x81, 0x10] = [] ++ 0x78 :: [0x00, 0x81, 0x10] ∧
    (withStretches (endless 8) lit).hangsAfter (waitsBefore [] [] 8) ∧
    opChecks (withStretches (endless 8) lit).params.ackPolicy (.setContrast 0x10) = false :=
  ⟨⟨by decide, by decide, by decide, endless_hangs _ _ rfl⟩, ⟨by decide, by decide, endless_hangs _ _ rfl⟩,
    ⟨by decide, by decide, by decide, endless_hangs _ _ rfl⟩, by decide +kernel, rfl, by decide +kernel, endless_hangs _ _ rfl,
    by decide⟩

theorem witness_BoundedStretchTimesOut :
    ((withLimit (.bounded 3) (withStretches (tooLong 8) opened)).readyOpen ∧ opened.peer.on = true ∧ 8 < 9 ∧
      (withLimit (.bounded 3) (withStretches (tooLong 8) opened)).timesOutAfter 8) ∧
    (withLimit (.bounded 3) (withStretches (tooLong 0) lit)).ready ∧ (0x78 : Byte).getLsbD 0 = false ∧
    lit.env.powerNow.leaves lit.peer.on = true ∧
    (withLimit (.bounded 3) (withStretches (tooLong 0) lit)).timesOutAfter 0 :=
  ⟨⟨by decide, by decide, by decide, tooLong_timesOut _ _⟩, by decide, by decide, by decide, tooLong_timesOut _ _⟩

/-- V46: WOBBLE's data transaction, in the first slot of its third byte, unchecked; and INIT, checked, in the acknowledge
slot of its last byte, to an answering peer. -/
theorem witness_TimeoutEndsAnOperation :
    ((withLimit (.bounded 3) (withStretches (tooLong 81) lit)).ready ∧
      (withLimit (.bounded 3) (withStretches (tooLong 81) lit)).powered ∧
      opPayloads testParams (.wobble 0 0 [0x41] 5) =
        some ([[0x00, 0x20, 0x02, 0xB0, 0x10, 0x00]] ++ dataPayload (wobbleUpper testParams [0x41] 5) ::
          [[0x00, 0x20, 0x02, 0xB1, 0x10, 0x00], dataPayload (wobbleLower testParams [0x41] 5)]) ∧
      testParams.devAddr :: dataPayload (wobbleUpper testParams [0x41] 5) =
        [0x78, 0x40] ++ (wobbleUpper testParams [0x41] 5).headD 0 :: (wobbleUpper testParams [0x41] 5).tail ∧
      waitsBefore [[0x00, 0x20, 0x02, 0xB0, 0x10, 0x00]] [0x78, 0x40] 0 = 81 ∧
      (withLimit (.bounded 3) (withStretches (tooLong 81) lit)).timesOutAfter 81 ∧
      opChecks testParams.ackPolicy (.wobble 0 0 [0x41] 5) = false) ∧
    (withLimit (.bounded 3) (withStretches (tooLong 179) lit)).ready ∧
    (withLimit (.bounded 3) (withStretches (tooLong 179) lit)).powered ∧
    opPayloads testParams .init = some ([] ++ initPayload false false :: []) ∧
    testParams.devAddr :: initPayload false false = (0x78 :: (initPayload false false).take 18) ++ 0xAF :: [] ∧
    waitsBefore [] (0x78 :: (initPayload false false).take 18) 8 = 179 ∧
    (withLimit (.bounded 3) (withStretches (tooLong 179) lit)).timesOutAfter 179 ∧
    (withLimit (.bounded 3) (withStretches (tooLong 179) lit)).answered :=
  ⟨⟨by decide, by decide, by decide +kernel, by decide +kernel, by decide, tooLong_timesOut _ _, by decide⟩, by decide,
    by decide, by decide +kernel, by decide +kernel, by decide +kernel, tooLong_timesOut _ _, by decide⟩

theorem witness_InitSendsTheFixedSequence : lit.ready ∧ lit.flows ∧ lit.answered := ⟨by decide, lit_flows, by decide⟩

theorem witness_InitOnAMissingAcknowledge :
    dark.ready ∧ dark.flows ∧ dark.params.ackPolicy ≠ .off ∧
    (∀ s ∈ [dark, withPower [.off] known], s.ready ∧ s.params.stretchLimit ≠ .bounded 0 ∧
      s.env.powerNow.leaves s.peer.on = false ∧ (∀ c ∈ s.env.power.tail, c ≠ .on) ∧ s.params.ackPolicy ≠ .off) ∧
    (withPolicy .off dark).ready ∧ (withPolicy .off dark).flows ∧ (withPolicy .off dark).params.ackPolicy = .off :=
  ⟨by decide, dark_flows, by decide, by decide, by decide, ⟨by decide, by decide⟩, by decide⟩

/-- Unchecked with an unpowered peer, checked with an answering one, and with stretches below the bound. -/
theorem lit_unhindered : dark.unhindered ∧ (withPolicy .all lit).unhindered ∧
    (withLimit (.bounded 4) (withStretches [.reads 3, .reads 0] lit)).unhindered :=
  ⟨⟨by decide, dark_flows, .inl (by decide)⟩, ⟨by decide, ⟨by decide, by decide⟩, .inr (by decide)⟩,
    ⟨by decide, bounded_flows, .inl (by decide)⟩⟩

theorem witness_SetPageWindowSendsItsCommands : dark.unhindered := lit_unhindered.1

theorem witness_WriteBytesStreamsItsBytes : dark.unhindered ∧ ([] : List Byte).length < 65536 :=
  ⟨lit_unhindered.1, by decide⟩

theorem witness_ClearSendsWindowAndZeros : (withPolicy .all lit).unhindered := lit_unhindered.2.1

theorem witness_SetContrastSendsItsCommand : dark.unhindered := lit_unhindered.1

theorem witness_WriteBytesCounts : dark.unhindered ∧ (List.replicate 512 (0x00 : Byte)).length < 65536 :=
  ⟨lit_unhindered.1, by decide +kernel⟩

theorem witness_OperationsEndIdleOrHang :
    lit.ready ∧ gives (exec (.setContrast 0xFF) lit) (fun t => t.isIdle) = true ∧
    gives (exec .init (withStretches [.forever] lit)) (fun t => t.hung) = true := by decide +kernel

/-- CLEAR with the acknowledge withheld at the second address byte (V22a); MARQUEE to an unpowered peer (V45). -/
theorem witness_PolicyAllStopsAtTheFirstNack :
    ((withPolicy .all (withAcks (List.replicate 10 true ++ [false]) lit)).ready ∧
      (withPolicy .all (withAcks (List.replicate 10 true ++ [false]) lit)).flows ∧
      (withPolicy .all (withAcks (List.replicate 10 true ++ [false]) lit)).powered ∧
      opPayloads testParams .clear = some ([[0x00, 0x20, 0x00, 0x21, 0x00, 0x7F, 0x22, 0x00, 0x03]] ++
        (0x40 :: List.replicate 512 0x00) :: []) ∧
      testParams.devAddr :: 0x40 :: List.replicate 512 0x00 = [] ++ 0x78 :: 0x40 :: List.replicate 512 0x00 ∧
      bytesBefore [[0x00, 0x20, 0x00, 0x21, 0x00, 0x7F, 0x22, 0x00, 0x03]] [] = 10 ∧
      (∀ j < 10, (List.replicate 10 true ++ [false])[j]? = some true) ∧
      (List.replicate 10 true ++ [false])[10]? = some false) ∧
    (withPolicy .all dark).ready ∧ (withPolicy .all dark).flows ∧ (withPolicy .all dark).params.ackPolicy = .all ∧
    (withPolicy .all dark).params.stretchLimit ≠ .bounded 0 ∧
    (withPolicy .all dark).env.powerNow.leaves (withPolicy .all dark).peer.on = false ∧
    (∀ c ∈ (withPolicy .all dark).env.power.tail, c ≠ .on) ∧
    (opPayloads (withPolicy .all dark).params (.marquee 0 0 16 [0x41, 0x42] 6 2)).isSome = true :=
  ⟨⟨by decide, ⟨by decide, by decide⟩, by decide, by decide +kernel, by decide +kernel, by decide, by decide, by decide⟩,
    by decide, ⟨by decide, by decide⟩, by decide, by decide, by decide, by decide, by decide +kernel⟩

theorem lit_hearing : lit.hearing := by decide

theorem witness_SetPageWindowPointsThePeer : lit.ready ∧ lit.flows ∧ lit.hearing := ⟨by decide, lit_flows, lit_hearing⟩

/-- Exactly room for the bytes; one byte too many; the pointers unknown. -/
theorem witness_WriteBytesStoresInThePage :
    lit.ready ∧ lit.flows ∧ lit.hearing ∧ (paged 7 126).mode = some .pageMode ∧ (paged 7 126).page = some 7 ∧
    (paged 7 126).col = some 126 ∧ (126 : BitVec 7).toNat + [(0x01 : Byte), 0x02].length ≤ 128 ∧
    128 < (126 : BitVec 7).toNat + [(0x01 : Byte), 0x02, 0x03].length ∧ [(0x01 : Byte)] ≠ [] ∧
    lit.peer.disp.page = none :=
  ⟨by decide, lit_flows, lit_hearing, by decide, by decide, by decide, by decide, by decide, by decide, by decide⟩

theorem witness_ClearBlanksTheActivePages : lit.ready ∧ lit.flows ∧ lit.hearing := ⟨by decide, lit_flows, lit_hearing⟩

/-- Neither flag, and one flag. -/
theorem witness_ContrastAndInitConfigureThePeer :
    lit.ready ∧ lit.flows ∧ lit.hearing ∧ lit.params.flipSeg = false ∧ lit.params.flipCom = false ∧
    (withFlips true false lit).ready ∧ (withFlips true false lit).flows ∧ (withFlips true false lit).hearing ∧
    (withFlips true false lit).params.flipSeg = true ∧ (3 : BitVec 3).toNat < 4 :=
  ⟨by decide, lit_flows, lit_hearing, by decide, by decide, by decide, ⟨by decide, by decide⟩, by decide, by decide,
    by decide⟩

theorem witness_GlyphForReturnsTheBitmap : lit.hung = false ∧ opened.hung = false := by decide

/-- The widest window from column 0, and the narrowest at column 127. -/
theorem witness_MarqueeSendsTheScrolledColumns :
    dark.unhindered ∧ 1 ≤ (128 : Byte).toNat ∧ (0 : BitVec 7).toNat + (128 : Byte).toNat ≤ 128 ∧
    1 ≤ (1 : Byte).toNat ∧ (127 : BitVec 7).toNat + (1 : Byte).toNat ≤ 128 ∧ 1 ≤ [(0x41 : Byte)].length ∧
    [(0x41 : Byte)].length < 256 ∧ (7 : BitVec 16).toNat < 8 * [(0x41 : Byte)].length :=
  ⟨lit_unhindered.1, by decide, by decide, by decide, by decide, by decide, by decide, by decide⟩

theorem witness_BungeeSendsItsRuns :
    dark.unhindered ∧ 1 ≤ (128 : Byte).toNat ∧ (0 : BitVec 7).toNat + (128 : Byte).toNat ≤ 128 ∧
    1 ≤ (1 : Byte).toNat ∧ (127 : BitVec 7).toNat + (1 : Byte).toNat ≤ 128 ∧ 1 ≤ [(0x41 : Byte)].length ∧
    [(0x41 : Byte)].length < 256 ∧ (7 : BitVec 16).toNat < 8 * [(0x41 : Byte)].length :=
  witness_MarqueeSendsTheScrolledColumns

/-- Width 32 of V36: a rising pair of runs, a falling one and the cut at the end. -/
theorem witness_BungeeFactorsRiseThenFall :
    2 ≤ 32 ∧ bungeeRuns 32 = [(1, 1)] ++ (2, 2) :: (3, 3) :: [(4, 4), (5, 5), (6, 6), (5, 5), (4, 4), (3, 2)] ∧
    bungeeRuns 32 = [(1, 1), (2, 2), (3, 3), (4, 4), (5, 5), (6, 6), (5, 5)] ++ (4, 4) :: (3, 2) :: [] ∧
    2 ≤ 2 ∧ bungeeRuns 2 = [] ++ (1, 1) :: (1, 1) :: [] := by decide +kernel

theorem witness_WobbleSendsBothPages :
    dark.unhindered ∧ 1 ≤ [(0x41 : Byte)].length ∧ (120 : BitVec 7).toNat + 8 * [(0x41 : Byte)].length ≤ 128 ∧
    (6 : BitVec 3) ≠ 7 := ⟨lit_unhindered.1, by decide, by decide, by decide⟩

theorem witness_WobblePhaseCountsModulo64 : (63 : Byte).toNat % 64 = (255 : Byte).toNat % 64 := by decide

theorem witness_AdvanceWraps :
    (15 : BitVec 16).toNat < 8 * [(0x41 : Byte), 0x42].length ∧ [(0x41 : Byte), 0x42].length < 256 ∧
    (8 : Byte).toNat ≤ 8 := by decide

theorem witness_MarqueesStoreInTheirWindow :
    lit.ready ∧ lit.flows ∧ lit.hearing ∧ 1 ≤ (1 : Byte).toNat ∧ (127 : BitVec 7).toNat + (1 : Byte).toNat ≤ 128 ∧
    1 ≤ [(0x41 : Byte)].length ∧ [(0x41 : Byte)].length < 256 ∧ (7 : BitVec 16).toNat < 8 * [(0x41 : Byte)].length :=
  ⟨by decide, lit_flows, lit_hearing, by decide, by decide, by decide, by decide, by decide⟩

theorem witness_WobbleStoresInTwoPages :
    lit.ready ∧ lit.flows ∧ lit.hearing ∧ 1 ≤ [(0x41 : Byte)].length ∧
    (120 : BitVec 7).toNat + 8 * [(0x41 : Byte)].length ≤ 128 ∧ (6 : BitVec 3) ≠ 7 :=
  ⟨by decide, lit_flows, lit_hearing, by decide, by decide, by decide⟩

/-- Two blocks whose peers answer differently. -/
theorem witness_MarqueeIgnoresThePeersAnswers :
    lit.ready ∧ lit.flows ∧ lit.params.ackPolicy ≠ .all ∧ dark.ready ∧ dark.flows ∧ dark.params = lit.params ∧
    marqueeProblem 0 16 [0x41, 0x42] 15 = none :=
  ⟨by decide, lit_flows, by decide, by decide, dark_flows, rfl, by decide⟩

theorem witness_AddressItemOpensTheTransaction : lit.ready ∧ lit.flows := ⟨by decide, lit_flows⟩

theorem witness_FramingItemsDecideTheRest : opened.readyOpen ∧ opened.flows ∧ opened.wire = .control :=
  ⟨by decide, opened_flows, by decide⟩

theorem commanded_items : (commanded true).readyOpen ∧ (commanded true).flows ∧ (commanded true).listening ∧
    (commanded true).wire.isCommand = true :=
  ⟨by decide, ⟨by decide, by decide⟩, by decide, by decide⟩

theorem witness_OneByteCommandItems :
    (commanded true).readyOpen ∧ (commanded true).flows ∧ (commanded true).wire.isCommand = true :=
  ⟨commanded_items.1, commanded_items.2.1, commanded_items.2.2.2⟩

theorem witness_CommandItemsWithOperands :
    (commanded true).readyOpen ∧ (commanded true).flows ∧ (commanded true).wire.isCommand = true :=
  witness_OneByteCommandItems

/-- Both sides of each bound: column 127 and 128, page 7 and 8. -/
theorem witness_CommandItemsSetThePeer :
    ((commanded true).readyOpen ∧ (commanded true).flows ∧ (commanded true).listening ∧
      (commanded true).wire.isCommand = true) ∧
    (127 : Byte).toNat < 128 ∧ ¬(128 : Byte).toNat < 128 ∧ (7 : Byte).toNat < 8 ∧ ¬(8 : Byte).toNat < 8 :=
  ⟨commanded_items, by decide, by decide, by decide, by decide⟩

theorem witness_ConfigurationItemsAreListed :
    (commanded true).readyOpen ∧ (commanded true).flows ∧ (commanded true).listening ∧
    (commanded true).wire.isCommand = true := commanded_items

theorem witness_NibbleOrderDecidesTheColumn :
    (commanded true).readyOpen ∧ (commanded true).flows ∧ (commanded true).listening ∧
    (commanded true).wire = .command true ∧
    ({ commanded true with peer := { opened.peer with disp := { paged 1 5 with hi := some 7 } } }).peer.disp.hi = some 7 ∧
    (commanded false).wire = .command false :=
  ⟨commanded_items.1, commanded_items.2.1, commanded_items.2.2.1, by decide, by decide, by decide⟩

theorem witness_OnlyRenderersWriteTheAnimationState :
    gives (exec (.setContrast 0x00) lit) (fun _ => true) = true := by decide +kernel

theorem witness_OperationsOnlyAddToTheTraces :
    gives (exec (.sendByte 0xFF) opened) (fun _ => true) = true := by decide +kernel

theorem witness_OnlyDataOperationsStore :
    gives (exec (.setPageWindow 7 127)
      { lit with peer := { lit.peer with disp := { Display.unknown with ram := [(0, 0xAA)] } } })
      (fun t => Memory.read t.peer.disp.ram 0 = some 0xAA) = true := by decide +kernel

/-- Every change of power, to a powered peer and to another; operations to a peer without power, one that has lost it and
one that never had it; a line held at START; the clock held at STOP; acknowledges against the reference peer, missing
and unexpected; a peer out of step. -/
theorem witness_PeerOutsideTheReference :
    ((∀ c ∈ [PowerChange.steady, .on, .off, .reset], ∀ s ∈ [withPower [c] dark, withPower [c] known],
      s.ready ∧ s.env.acks = [] ∧ s.env.startHeld = [] ∧ s.env.powerNow = c) ∧
      (∀ c, (withPower c dark).flows ∧ (withPower c known).flows) ∧
      (withAcks [true] (withStartHeld [true] dark)).env.powerNow.leaves dark.peer.on = false ∧ (0x78 : Byte).getLsbD 0 = false) ∧
    (∀ s ∈ [withPower [.off, .reset] known, withAcks [true] (withPower [.reset] dark)],
      s.ready ∧ opPayloads s.params (.setContrast 0x10) = some [[0x00, 0x81, 0x10]] ∧
        opChecks s.params.ackPolicy (.setContrast 0x10) = false ∧ s.peer.wf ∧ s.params.stretchLimit ≠ .bounded 0 ∧
        s.env.powerNow.leaves s.peer.on = false ∧ ∀ c ∈ s.env.power.tail, c ≠ .on) ∧
    ((withStartHeld [true] lit).ready ∧ (withStartHeld [true] lit).flows ∧
      lit.env.powerNow.leaves lit.peer.on = true ∧ (withStartHeld [true] lit).env.startHeld.head? = some true) ∧
    ((withStopHeld [true] opened).readyOpen ∧ opened.peer.on = true ∧ (withStopHeld [true] opened).env.stopHeld.head? = some true) ∧
    ((withAcks [false] lit).ready ∧ (withAcks [false] lit).flows ∧ (withAcks [false] lit).env.acks.head? = some false ∧
      false ≠ ((0x78 : Byte) == lit.params.devAddr)) ∧
    ((withAcks [true] { opened with peer := { opened.peer with addressed := false } }).readyOpen ∧
      (withAcks [true] { opened with peer := { opened.peer with addressed := false } }).flows ∧
      opened.wire ≠ .address ∧ opened.peer.on = true ∧ true ≠ false) ∧
    ({ opened with peer := { opened.peer with synced := false } }).readyOpen ∧
    ({ opened with peer := { opened.peer with synced := false } }).peer.disp = .unknown :=
  ⟨⟨by decide, fun _ =>
      ⟨⟨dark_flows.1, .inr (fun _ h => nomatch h)⟩, ⟨lit_flows.1, .inr (fun _ h => nomatch h)⟩⟩, by decide, by decide⟩, by decide,
    ⟨by decide, ⟨by decide, by decide⟩, by decide, by decide⟩, ⟨by decide, by decide, by decide⟩,
    ⟨by decide, ⟨by decide, by decide⟩, by decide, by decide⟩,
    ⟨by decide, ⟨by decide, by decide⟩, by decide, by decide, by decide⟩, by decide, by decide⟩

theorem witness_HungBlockStaysAndAcceptsNothing : ({ lit with hung := true }).hung = true := rfl

end Sys2Proof.Tests
end

section
/-! PROOFS. The reset state, the invariant along every step, and who writes the host's animation state
(10_state.md R21, R23, R29, R30; 20_memory.md R50, R71; 00_scope.md R9). -/

namespace Sys2Proof.Machine

variable {s t : State} {i : Instr} {b : Byte} {bs : List Byte} {ps : List (List Byte)}

/-! ### Reset -/

/-- Settles O1: the reset state is a literal with both pulls off. -/
theorem resetReleasesBothLines : Obligations.ResetReleasesBothLines := ⟨rfl, rfl, rfl⟩

/-- The reset parameters are legal whatever the open tables hold: the count is 95 or more, and the fallback is brought
below it. -/
theorem paramsDefault_wf : Params.default.wf := by
  refine ⟨by decide, by decide, Nat.le_add_right 95 _, Nat.mod_lt _ ?_⟩
  exact Nat.add_pos_left (by decide) _

/-- Settles O2: parameters, bus and peer, each by its own lemma. -/
theorem resetMeetsTheInvariant : Obligations.ResetMeetsTheInvariant :=
  ⟨paramsDefault_wf, busWf_idle rfl rfl rfl rfl, Peer.blank_wf false⟩

/-! ### Drive state and wire after each instruction (10_state.md R23) -/

/-- Where a request may be made with the bus Idle, the wire is idle. -/
theorem wire_idle_of_ready (hb : s.busWf) (hr : s.ready) : s.wire = .idle := by
  obtain ⟨hh, hi⟩ := hr
  simp only [State.isIdle, Bool.and_eq_true, Bool.not_eq_true'] at hi
  simp only [State.busWf, hh, Bool.false_eq_true, if_false] at hb
  exact hb.2.1.mp hi.1

/-- Where a request may be made with the bus Open, the wire is inside a transaction. -/
theorem wire_ne_idle_of_readyOpen (hb : s.busWf) (hr : s.readyOpen) : s.wire ≠ .idle := by
  obtain ⟨hh, ho⟩ := hr
  simp only [State.isOpen, Bool.and_eq_true] at ho
  simp only [State.busWf, hh, Bool.false_eq_true, if_false] at hb
  exact fun hw => absurd (hb.2.1.mpr hw) (by simp [ho.1])

/-- A Protocol or Animation operation ends Idle, or inside the wait of a transaction. -/
theorem operation_busWf (hr : s.ready) (hp : opPayloads s.params i = some ps) (h : exec i s = .next t) : t.busWf := by
  rw [exec_operation hr hp] at h
  have hw := txns_endsWell (opChecks s.params.ackPolicy i) (opPayloads_ne_nil hp) s
  obtain ⟨-, -, -, -, hh⟩ := txns_sameHost (opChecks s.params.ackPolicy i) ps s
  generalize txns (opChecks s.params.ackPolicy i) ps s = r at h hw hh
  obtain ⟨u, e⟩ := r
  cases e <;> simp only [answerOp, Host.Outcome.next.injEq] at h <;> subst h
  · exact busWf_idle (hh.trans hr.1) hw.1 hw.2.1 hw.2.2
  · exact ⟨hw.1, hw.2⟩

/-- START ends Open past the address byte, Idle by Timeout, or inside a wait. -/
theorem startOp_busWf (hh : s.hung = false) (h : answerByte (startOp b s) = .next t) : t.busWf :=
  answerByte_busWf (startOp_endsWell b s) (startOp_closed (hung_closed false) hh) h

/-- An item of at least one byte, sent inside a transaction, ends as its last byte does. -/
theorem sendItem_busWf (hb : s.busWf) (hr : s.readyOpen) (h : answerByte (sendItem (b :: bs) s) = .next t) : t.busWf :=
  answerByte_busWf (sendItem_endsWell (wire_ne_idle_of_readyOpen hb hr) b bs)
    (sendItem_closed (hung_closed false) hr.1) h

theorem sendFraming_busWf (hb : s.busWf) (h : sendFraming b s = .next t) : t.busWf := by
  obtain ⟨hr, h⟩ := whenOpen_next h
  split at h
  · exact sendItem_busWf hb hr h
  · simp at h

theorem sendCommand_busWf (hb : s.busWf) (h : sendCommand (b :: bs) s = .next t) : t.busWf := by
  obtain ⟨hr, h⟩ := whenOpen_next h
  split at h
  · exact sendItem_busWf hb hr h
  · simp at h

/-- Drive state and wire agree after every instruction if they did before. -/
theorem exec_busWf (i : Instr) (hb : s.busWf) (h : exec i s = .next t) : t.busWf := by
  cases i with
  | busCfg =>
    obtain ⟨hr, h⟩ := whenIdle_next (s := s) h
    have hw := wire_idle_of_ready hb hr
    simp only [Host.Outcome.next.injEq] at h
    subst h
    exact busWf_idle hr.1 rfl rfl hw
  | start a =>
    obtain ⟨hr, h⟩ := whenIdle_next (s := s) h
    split at h
    · simp at h
    · exact startOp_busWf hr.1 h
  | addrByte a =>
    obtain ⟨hr, h⟩ := whenIdle_next (s := s) h
    exact startOp_busWf hr.1 h
  | sendByte b =>
    obtain ⟨hr, h⟩ := whenOpen_next (s := s) h
    exact answerByte_busWf (shift9_endsWell b (wire_ne_idle_of_readyOpen hb hr))
      (shift9_closed (hung_closed false) hr.1) h
  | stop =>
    obtain ⟨hr, h⟩ := whenOpen_next (s := s) h
    simp only [Host.Outcome.next.injEq] at h
    subst h
    exact busWf_idle hr.1 rfl rfl rfl
  | glyphFor code =>
    have h := (whenFree_next (s := s) h).2
    simp only [Host.Outcome.next.injEq] at h
    subst h
    exact hb
  | init => exact operation_busWf (whenIdle_next (s := s) h).1 rfl h
  | setPageWindow page column => exact operation_busWf (whenIdle_next (s := s) h).1 rfl h
  | clear => exact operation_busWf (whenIdle_next (s := s) h).1 rfl h
  | setContrast level => exact operation_busWf (whenIdle_next (s := s) h).1 rfl h
  | writeBytes src =>
    obtain ⟨hr, ha⟩ := whenIdle_next (s := s) h
    exact operation_busWf (i := .writeBytes src) hr (if_pos (writeProblem_none.mp (whenLegal_next ha).1)) h
  | marquee x y width msg offset speed =>
    obtain ⟨hr, ha⟩ := whenIdle_next (s := s) h
    exact operation_busWf (i := .marquee x y width msg offset speed) hr (if_pos (whenLegal_next ha).1) h
  | bungee x y width msg offset =>
    obtain ⟨hr, ha⟩ := whenIdle_next (s := s) h
    exact operation_busWf (i := .bungee x y width msg offset) hr (if_pos (whenLegal_next ha).1) h
  | wobble x y msg phase =>
    obtain ⟨hr, ha⟩ := whenIdle_next (s := s) h
    exact operation_busWf (i := .wobble x y msg phase) hr (if_pos (whenLegal_next ha).1) h
  | reserved1101 | reserved1110 | reserved1111 => cases h
  | ctrlCommands | ctrlData => exact sendFraming_busWf hb h
  | _ => exact sendCommand_busWf hb h

/-! ### The invariant along every step -/

/-- What a step that answers a state can be: nothing, or an instruction run with its bytes taken off the host's list. -/
theorem step_next (h : step s = .next t) : t = s ∨ ∃ i rest, exec i { s with requests := rest } = .next t := by
  unfold step at h
  split at h
  · exact .inl (Host.Outcome.next.inj h).symm
  · exact .inl (Host.Outcome.next.inj h).symm
  · exact .inr ⟨_, _, h⟩
  · cases h

/-- No instruction writes the parameters or the host's requests. -/
theorem exec_fixed (h : exec i s = .next t) : t.params = s.params ∧ t.requests = s.requests :=
  exec_allClosed (fixed_closed s.params s.requests) i ⟨rfl, rfl⟩ h

/-- Every instruction's meaning keeps the invariant. -/
theorem exec_inv (hs : s.Inv) (h : exec i s = .next t) : t.Inv := by
  obtain ⟨hp, hb, hpeer⟩ := hs
  exact ⟨(exec_fixed h).1 ▸ hp, exec_busWf i hb h, exec_allClosed peerWf_allClosed i hpeer h⟩

/-- Settles O3: a step does nothing or runs one instruction, and the invariant does not speak of the host's requests. -/
theorem stepKeepsTheInvariant : Obligations.StepKeepsTheInvariant := by
  intro s t hs h
  rcases step_next h with rfl | ⟨i, rest, h⟩
  · exact hs
  · exact exec_inv (s := { s with requests := rest }) hs h

/-! ### Who writes the animation state (10_state.md R29, R30, R34) -/

/-- Bus activity and answering leave `OFFSET` and `PHASE` alone; each is kept under a condition of its own, so that the
writer of one need not keep it to keep the other. -/
theorem animation_closed (v : BitVec 16) (w : Byte) (p q : Prop) :
    OpClosed fun s => (p → s.offset = v) ∧ (q → s.phase = w) where
  byte _ _ h := h
  mid _ u h hm := by obtain ⟨_, _, _, _, -, -, rfl⟩ := hm; exact h
  timeout _ h := h
  start _ h := h
  stop _ h := h
  result _ _ h := h
  hang _ h := h
  release _ h := h

/-- An instruction that is no writer of `OFFSET` leaves it as it is, and so for `PHASE`. -/
theorem exec_animation (h : exec i s = .next t) :
    (writesOffset i = false → t.offset = s.offset) ∧ (writesPhase i = false → t.phase = s.phase) := by
  refine exec_closed (animation_closed s.offset s.phase _ _) i ?_ ?_ ⟨fun _ => rfl, fun _ => rfl⟩ h
  · exact fun hw u v hu => ⟨fun hn => absurd hw (by simp [hn]), hu.2⟩
  · exact fun hw u v hu => ⟨hu.1, fun hn => absurd hw (by simp [hn])⟩

/-- The writers of `OFFSET` are MARQUEE and BUNGEE. -/
theorem writesOffset_cases (hi : writesOffset i = true) :
    (∃ x y w m o v, i = .marquee x y w m o v) ∨ ∃ x y w m o, i = .bungee x y w m o := by
  unfold writesOffset at hi
  split at hi
  · exact .inl ⟨_, _, _, _, _, _, rfl⟩
  · exact .inr ⟨_, _, _, _, _, rfl⟩
  · cases hi

/-- The writer of `PHASE` is WOBBLE. -/
theorem writesPhase_cases (hi : writesPhase i = true) : ∃ x y m p, i = .wobble x y m p := by
  unfold writesPhase at hi
  split at hi
  · exact ⟨_, _, _, _, rfl⟩
  · cases hi

/-- Settles O56: what every instruction preserves, and for `OFFSET` and `PHASE` every instruction but their writers. -/
theorem onlyRenderersWriteTheAnimationState : Obligations.OnlyRenderersWriteTheAnimationState := by
  intro i s t h
  obtain ⟨hp, hr⟩ := exec_fixed h
  obtain ⟨ho, hph⟩ := exec_animation h
  refine ⟨hp, hr, ?_, ?_⟩
  · cases hi : writesOffset i with
    | false => exact .inl (ho hi)
    | true => exact .inr (writesOffset_cases hi)
  · cases hi : writesPhase i with
    | false => exact .inl (hph hi)
    | true => exact .inr (writesPhase_cases hi)

end Sys2Proof.Machine
end

section
/-! PROOFS. What the bytes of the bus do to the reference peer and its display (20_memory.md R54 to R81): one byte or
one item in an open transaction, and the bus operations. -/

namespace Sys2Proof.Machine

variable {s t : State} {d d' : Display} {p : Peer} {a b : Byte} {pos : StreamPos} {pg : BitVec 3} {c : BitVec 7}

/-! ### The byte frame (20_memory.md R55) -/

/-- Bit frames put their bits on the data line in their order. -/
theorem dataBits_bitFrames (ds : List Bool) : (ds.flatMap bitFrame).filterMap LineEvent.dataBit = ds := by
  induction ds with
  | nil => rfl
  | cons d ds ih => rw [List.flatMap_cons, List.filterMap_append, ih]; rfl

/-- Settles O17: the data bits are those of the bit frames, the clock order that of each frame. -/
theorem byteFrameIsMsbFirst : Obligations.ByteFrameIsMsbFirst := by
  intro b k
  refine ⟨?_, ?_, by simp [byteFrame, msbFirst, bitFrame, ackFrame]⟩
  · rw [byteFrame, List.filterMap_append, dataBits_bitFrames]; rfl
  · rw [← List.append_nil (byteFrame b k), dataOnlyWhileClockLow_byteFrame]; rfl

/-! ### START, SENDBYTE and STOP in a flowing environment (40_bus.md R137, R139, R141) -/

theorem exec_start_of_flows (hr : s.ready) (hf : s.flows) (ha : a.getLsbD 0 = false) :
    exec (.start a) s = .next (afterItem [a] (afterStart s)) := by
  show whenIdle s (if readBitSet a then _ else answerByte (startOp a s)) = _
  rw [whenIdle_of_ready hr, readBitSet, ha, startOp_of_flows a hf]
  rfl

theorem exec_sendByte_of_flows (hr : s.readyOpen) (hf : s.flows) :
    exec (.sendByte b) s = .next (afterItem [b] s) := by
  show whenOpen s (answerByte (shift9 b s)) = _
  rw [whenOpen_of_readyOpen hr, shift9_of_flows b hf]
  rfl

theorem exec_stop_of_readyOpen (hr : s.readyOpen) : exec .stop s = .next { afterStop s with result := .none } :=
  whenOpen_of_readyOpen hr

/-- One byte as an item: the peer receives it, and its answer is the result. -/
@[simp] theorem afterItem_byte_peer (b : Byte) (s : State) :
    (afterItem [b] s).peer = s.peer.receive s.params.devAddr s.wire b (s.peerPulls b) := rfl

@[simp] theorem afterItem_byte_result (b : Byte) (s : State) : (afterItem [b] s).result = .acked (s.peerPulls b) := rfl

theorem afterItem_byte_lineTrace (b : Byte) (s : State) :
    (afterItem [b] s).lineTrace = s.lineTrace ++ byteFrame b (s.peerPulls b) := by
  show ((byteFrame b (s.peerPulls b)).reverse ++ s.line).reverse = _
  rw [List.reverse_append, List.reverse_reverse, State.lineTrace]

theorem afterItem_byte_readyOpen (b : Byte) (hh : s.hung = false) : (afterItem [b] s).readyOpen := ⟨hh, rfl⟩

theorem afterStart_lineTrace (s : State) : (afterStart s).lineTrace = s.lineTrace ++ startFrame := by
  show (startFrame.reverse ++ s.line).reverse = _
  rw [List.reverse_append, List.reverse_reverse, State.lineTrace]

theorem afterStop_lineTrace (s : State) : (afterStop s).lineTrace = s.lineTrace ++ stopFrame := by
  show (stopFrame.reverse ++ s.line).reverse = _
  rw [List.reverse_append, List.reverse_reverse, State.lineTrace]

/-! ### What a peer makes of one byte -/

/-- An address byte by itself does nothing to a peer. -/
theorem Peer.take_address (p : Peer) (b : Byte) : p.take .address b = p := by
  simp only [Peer.take, Display.take]
  split <;> rfl

/-- An address byte decides whether the peer is addressed, and nothing else if the answer is the reference peer's. -/
theorem Peer.receive_address (p : Peer) (d b : Byte) (pulls : Bool) : p.receive d .address b pulls =
    { (if pulls = (p.on && b == d) then p else p.lost) with addressed := pulls } := by
  simp only [Peer.receive, Peer.answer, Peer.take_address]

/-- A byte answered against the reference peer leaves nothing known (93_implementation_defined.md U14). -/
theorem Peer.receive_against (d : Byte) {pulls : Bool} (h : pulls ≠ p.answer d pos b) :
    (p.receive d pos b pulls).synced = false ∧ (p.receive d pos b pulls).disp = .unknown := by
  unfold Peer.receive
  rw [if_neg h]
  cases pos <;> exact ⟨rfl, rfl⟩

/-- A peer out of step stays so through a byte (93 §1). -/
theorem Peer.receive_of_lost (d b : Byte) (pos : StreamPos) (pulls : Bool) (hs : p.synced = false)
    (hd : p.disp = .unknown) :
    (p.receive d pos b pulls).synced = false ∧ (p.receive d pos b pulls).disp = .unknown := by
  have ht : p.take pos b = p := by simp [Peer.take, hs]
  unfold Peer.receive
  rw [ht]
  cases pos <;> (simp only; split <;> simp_all [Peer.lost])

/-- Where the environment's list is empty, the answer is the reference peer's (20_memory.md R72). -/
theorem peerPulls_of_reference (h : s.env.acks = []) (b : Byte) :
    s.peerPulls b = s.peer.answer s.params.devAddr s.wire b := by
  have ho : (s.peer.on && s.peer.answer s.params.devAddr s.wire b) = s.peer.answer s.params.devAddr s.wire b := by
    cases s.wire <;> simp [Peer.answer]
  rw [State.peerPulls, Env.pull, h]
  exact ho

/-- Past the address byte a peer that answers as the reference peer takes the byte. -/
theorem receive_of_reference (h : s.env.acks = []) (hw : s.wire ≠ .address) (b : Byte) :
    s.peer.receive s.params.devAddr s.wire b (s.peerPulls b) = s.peer.take s.wire b := by
  rw [Peer.receive_payload hw, if_pos (peerPulls_of_reference h b)]

/-- START to a peer that answers as the reference peer, or has no power: whether it is addressed, and nothing else. -/
theorem afterItem_address_peer (hw : s.wire = .address) (h : s.peer.on = true → s.env.acks = []) (b : Byte) :
    (afterItem [b] s).peer = { s.peer with addressed := s.peer.on && b == s.params.devAddr } ∧
      (afterItem [b] s).result = .acked (s.peer.on && b == s.params.devAddr) := by
  have hp : s.peerPulls b = (s.peer.on && b == s.params.devAddr) := by
    cases hon : s.peer.on with
    | false => exact peerPulls_of_off hon b
    | true => rw [peerPulls_of_reference (h hon), hw, Peer.answer, hon]
  rw [afterItem_byte_peer, afterItem_byte_result, hw, Peer.receive_address, hp, if_pos rfl]
  exact ⟨rfl, rfl⟩

/-! ### Acknowledges (20_memory.md R72, 10_state.md R33) -/

/-- Past `s`, only bytes that nobody acknowledged. -/
def UnansweredSince (s u : State) : Prop :=
  u.silent ∧ ∃ new, u.bytes = new ++ s.bytes ∧ ∀ b k, ByteEvent.byte b k ∈ new → k = false

/-- A peer without power answers nothing, whatever the block does. -/
theorem unansweredSince_closed (s : State) : AllClosed (UnansweredSince s) where
  byte b u h := by
    obtain ⟨hs, new, hb, hn⟩ := h
    refine ⟨silent_afterByte hs b, .byte b (u.peerPulls b) :: new, congrArg _ hb, fun x k hx => ?_⟩
    rcases List.mem_cons.mp hx with hx | hx
    · cases hx
      exact peerPulls_of_off hs.1 _
    · exact hn x k hx
  mid u v h hm := by
    obtain ⟨_, _, _, _, -, rfl | rfl, rfl⟩ := hm
    · exact h
    · exact h
  timeout _ h := h
  start u h := by
    obtain ⟨hs, new, hb, hn⟩ := h
    exact ⟨silent_afterStart hs, .start :: new, congrArg _ hb, fun x k hx => hn x k (by simpa using hx)⟩
  stop u h := by
    obtain ⟨hs, new, hb, hn⟩ := h
    exact ⟨silent_afterStop hs, .stop :: new, congrArg _ hb, fun x k hx => hn x k (by simpa using hx)⟩
  result _ _ h := h
  hang _ h := h
  release _ h := h
  offset _ _ h := h
  phase _ _ h := h

/-- Settles O18: START and SENDBYTE by what the byte does to the peer, silence as a property that everything keeps. -/
theorem referencePeerAcknowledges : Obligations.ReferencePeerAcknowledges := by
  refine ⟨fun s a hr hf href ha => ?_, fun s b hr hf href hw => ?_, fun i s t hs h => ?_⟩
  · obtain ⟨hp, he⟩ := reference_afterStart href
    obtain ⟨h1, h2⟩ := afterItem_address_peer (s := afterStart s) rfl (fun _ => he ▸ href.1) a
    rw [hp] at h1 h2
    exact ⟨_, exec_start_of_flows hr hf ha, h2, by rw [h1]; rfl, by rw [h1], by rw [h1]⟩
  · have hk := peerPulls_of_reference href.1 b
    rw [Peer.answer_payload hw] at hk
    refine ⟨_, exec_sendByte_of_flows hr hf, by rw [afterItem_byte_result, hk], ?_⟩
    rw [afterItem_byte_peer, receive_of_reference href.1 hw]
    exact (Peer.take_on_addressed s.peer s.wire b).symm
  · obtain ⟨h1, new, h2, h3⟩ := exec_allClosed (unansweredSince_closed s) i
      ⟨hs, [], rfl, fun _ _ h => absurd h List.not_mem_nil⟩ h
    exact ⟨h1, new.reverse, by rw [State.byteTrace, h2, List.reverse_append]; rfl,
      fun b k hb => h3 b k (List.mem_reverse.mp hb)⟩

/-! ### One byte to a listening peer (20_memory.md R57, R65, R79) -/

/-- What the byte does to the display, or nothing known where it has no meaning. -/
theorem afterItem_byte_disp (hl : s.listening) (hw : s.wire ≠ .address) (b : Byte) :
    (afterItem [b] s).peer.disp = (s.peer.disp.take s.wire b).getD .unknown := by
  obtain ⟨⟨href, -, hsy⟩, had⟩ := hl
  rw [afterItem_byte_peer, receive_of_reference href.1 hw, Peer.take, had, hsy]
  cases s.peer.disp.take s.wire b <;> rfl

/-- Settles O20: a byte outside data position does not write the RAM, and one without meaning leaves nothing known. -/
theorem onlyDataBytesStore : Obligations.OnlyDataBytesStore := by
  intro s b hr hf hl hd hw
  refine ⟨_, exec_sendByte_of_flows hr hf, ?_⟩
  rw [afterItem_byte_disp hl hw]
  cases ht : s.peer.disp.take s.wire b with
  | none => exact .inr rfl
  | some d =>
    rcases Display.take_ram ht with h | ⟨h, -⟩
    · exact .inl fun x => by rw [Option.getD_some, h]
    · exact absurd h hd

/-! ### Data bytes (20_memory.md R79) -/

theorem stores_one (h : d'.ram = Memory.write d.ram (dispAddr pg c) b) : d.stores d' (dispAddr pg c) [b] :=
  stores_cons h (stores_nil rfl _)

theorem Display.data_of_unknown (h : d.page = none ∨ d.col = none ∨ d.mode = none) : d.data b = none := by
  unfold Display.data
  split <;> simp_all

theorem Display.data_pageMode (hp : d.page = some pg) (hc : d.col = some c) (hm : d.mode = some .pageMode) :
    d.data b = some { d with
      ram := Memory.write d.ram (dispAddr pg c) b, col := if c.toNat < 127 then some (c + 1) else none } := by
  simp only [Display.data, hp, hc, hm, stepPageMode]
  split <;> rfl

theorem Display.data_otherWindow (hm : d.mode = some .rangeMode) (h : d.c0 ≠ some 0 ∨ d.c1 ≠ some 127) :
    d.data b = none := by
  have hw : ¬(d.c0 = some 0 ∧ d.c1 = some 127) := by tauto
  unfold Display.data
  split <;> simp_all

/-- A data byte in range mode with all columns: stored, and the pointers step as `stepRangeMode` says. -/
theorem Display.data_rangeMode (hp : d.page = some pg) (hc : d.col = some c) (hm : d.mode = some .rangeMode)
    (h0 : d.c0 = some 0) (h1 : d.c1 = some 127) :
    d.data b = some (stepRangeMode { d with ram := Memory.write d.ram (dispAddr pg c) b } pg c) := by
  simp [Display.data, hp, hc, hm, h0, h1]

/-- The column steps, then the page, and after the last page both are unknown. -/
theorem stepRangeMode_of_last {last : BitVec 3} (hp : d.page = some pg) (hg : d.g1 = some last) :
    stepRangeMode d pg c = { d with
      col := if c.toNat < 127 then some (c + 1) else if pg < last then some 0 else none
      page := if c.toNat < 127 then some pg else if pg < last then some (pg + 1) else none } := by
  unfold stepRangeMode
  split
  · rw [← hp]
  · simp only [hg]
    split <;> rfl

/-- With the last page unknown, both are unknown after column 127. -/
theorem stepRangeMode_of_noLast (hp : d.page = some pg) (hg : d.g1 = none) :
    stepRangeMode d pg c = { d with
      col := if c.toNat < 127 then some (c + 1) else none
      page := if c.toNat < 127 then some pg else none } := by
  unfold stepRangeMode
  split
  · rw [← hp]
  · simp only [hg]

theorem Display.data_rangeMode_of_last {last : BitVec 3} (hp : d.page = some pg) (hc : d.col = some c)
    (hm : d.mode = some .rangeMode) (h0 : d.c0 = some 0) (h1 : d.c1 = some 127) (hg : d.g1 = some last) :
    d.data b = some { d with
      ram := Memory.write d.ram (dispAddr pg c) b
      col := if c.toNat < 127 then some (c + 1) else if pg < last then some 0 else none
      page := if c.toNat < 127 then some pg else if pg < last then some (pg + 1) else none } :=
  (Display.data_rangeMode hp hc hm h0 h1).trans (congrArg some (stepRangeMode_of_last hp hg))

theorem Display.data_rangeMode_of_noLast (hp : d.page = some pg) (hc : d.col = some c)
    (hm : d.mode = some .rangeMode) (h0 : d.c0 = some 0) (h1 : d.c1 = some 127) (hg : d.g1 = none) :
    d.data b = some { d with
      ram := Memory.write d.ram (dispAddr pg c) b
      col := if c.toNat < 127 then some (c + 1) else none
      page := if c.toNat < 127 then some pg else none } :=
  (Display.data_rangeMode hp hc hm h0 h1).trans (congrArg some (stepRangeMode_of_noLast hp hg))

/-- Settles O19: each clause is one equation of `Display.data`. -/
theorem dataBytesStoreAtThePointers : Obligations.DataBytesStoreAtThePointers := by
  intro s b hr hf hl hw
  have hd := afterItem_byte_disp hl (by rw [hw]; decide) b
  simp only [hw, Display.take] at hd
  refine ⟨_, exec_sendByte_of_flows hr hf, fun h => by rw [hd, Display.data_of_unknown h]; rfl,
    fun pg c hp hc => ⟨fun hm => ?_, fun last hm h0 h1 hg => ?_, fun hm h0 h1 hg => ?_, fun hm h => ?_⟩⟩
  · rw [Display.data_pageMode hp hc hm] at hd
    rw [hd]
    exact ⟨stores_one rfl, rfl⟩
  · rw [Display.data_rangeMode_of_last hp hc hm h0 h1 hg] at hd
    rw [hd]
    exact ⟨stores_one rfl, rfl⟩
  · rw [Display.data_rangeMode_of_noLast hp hc hm h0 h1 hg] at hd
    rw [hd]
    exact ⟨stores_one rfl, rfl⟩
  · rw [hd, Display.data_otherWindow hm h]; rfl

/-! ### START, STOP, BUSCFG and the framing bytes (20_memory.md R57, R65, R73) -/

/-- START to the reference peer, when it answers: what the peer holds is as it was. -/
theorem startOp_keepsDisplay (hf : s.flows) (href : s.reference) (h : answerByte (startOp a s) = .next t) :
    t.peer.disp = s.peer.disp := by
  rw [startOp_of_flows a hf] at h
  cases h
  obtain ⟨hp, he⟩ := reference_afterStart href
  have h1 := (afterItem_address_peer (s := afterStart s) rfl (fun _ => he ▸ href.1) a).1
  rw [hp] at h1
  exact (congrArg Peer.disp h1 :)

/-- A framing byte in its position, when the answer is the reference peer's: the peer is as it was. -/
theorem sendFraming_keepsPeer (hf : s.flows) (href : s.reference) (hb : b = ctrlCommandsByte ∨ b = ctrlDataByte)
    (h : sendFraming b s = .next t) : t.peer = s.peer := by
  obtain ⟨hr, h'⟩ := whenOpen_next h
  split at h'
  · rename_i hw
    rw [sendFraming_of_flows hr hf hw] at h
    cases h
    rw [afterItem_byte_peer, receive_of_reference href.1 (by rw [hw]; decide), hw, Peer.take, Display.take, if_pos hb]
    split <;> rfl
  · cases h'

/-- Settles O21: each operation by what its bytes do to the peer. -/
theorem busOperationsKeepTheDisplay : Obligations.BusOperationsKeepTheDisplay := by
  refine ⟨fun s a t hf href h => ?_, fun s a t hf href h => ?_, fun s t hf href h => ?_, fun s hr href => ?_,
    fun s t h => ?_⟩
  · have h := (whenIdle_next (s := s) h).2
    split at h
    · cases h
    · exact startOp_keepsDisplay hf href h
  · exact startOp_keepsDisplay hf href (whenIdle_next (s := s) h).2
  · rcases h with h | h
    · exact sendFraming_keepsPeer hf href (.inl rfl) h
    · exact sendFraming_keepsPeer hf href (.inr rfl) h
  · refine ⟨_, exec_stop_of_readyOpen hr, ?_⟩
    show s.peer.stopSeen s.env.held = _
    rw [Env.held, href.2.2.1, Peer.stopSeen, List.headD_nil, Bool.and_false]
    rfl
  · cases (whenIdle_next (s := s) h).2
    rfl

end Sys2Proof.Machine
end

section
/-! PROOFS. What command items and the Protocol operations do to the display of a listening or hearing peer
(20_memory.md R57, R65, R75 to R81). -/

namespace Sys2Proof.Machine

variable {s t : State} {i : Instr} {d : Display} {p bs : List Byte} {o : Option Display}

/-! ### Command items at a listening peer (20_memory.md R75 to R80) -/

/-- A command item leaves the display that its bytes run to, or nothing known where one of them has no meaning. -/
theorem sendCommand_run {u : Bool} (hr : s.readyOpen) (hf : s.flows) (hl : s.listening) (hu : s.wire = .command u)
    (ho : Display.run (.command u) bs s.peer.disp = o) :
    ∃ t, sendCommand bs s = .next t ∧ t.peer.disp = o.getD .unknown := by
  have hw : s.wire.isCommand = true := by rw [hu]; rfl
  rw [← hu] at ho
  cases o with
  | none => exact sendCommand_disp_none hr hf hl hw ho
  | some d =>
    obtain ⟨t, ht, -, hd⟩ := sendCommand_disp hr hf hl hw ho
    exact ⟨t, ht, hd⟩

/-- What is known after a run that has a meaning under a condition alone. -/
theorem getD_ite {q : Prop} [Decidable q] (d : Display) :
    (if q then some d else none).getD Display.unknown = if q then d else .unknown := by
  split <;> rfl

theorem run_addressingMode (u : Bool) (v : Byte) (d : Display) : Display.run (.command u) [0x20, v] d =
    some { d with mode := if v = 0x02 then some .pageMode else if v = 0x00 then some .rangeMode else none } := by
  rw [run_command1 (row := ⟨.addressingMode, 0x20, 0xFF, 1⟩) (by decide) rfl]
  rfl

theorem run_pageStart (u : Bool) (page : BitVec 3) (d : Display) :
    Display.run (.command u) [pageStartByte page] d = some { d with page := some page } := by
  rw [run_command0 (commandRow_pageStart page) rfl]
  simp only [Display.obey, operands0, setWidth_pageStart, Option.bind_some, Display.run]

/-- Settles O53: each command by the run of its bytes. -/
theorem commandItemsSetThePeer : Obligations.CommandItemsSetThePeer := by
  intro s v w page hr hf hl hw
  obtain ⟨-, -, u, hu⟩ := isCommand_inside hw
  refine ⟨?_, ?_, ?_, ?_, ?_⟩
  · exact sendCommand_run hr hf hl hu run_contrast
  · exact sendCommand_run hr hf hl hu (run_addressingMode u v _)
  · exact sendCommand_run hr hf hl hu (run_pageStart u page _)
  · rw [← getD_ite]
    exact sendCommand_run hr hf hl hu (run_columnRange u v w _)
  · rw [← getD_ite]
    exact sendCommand_run hr hf hl hu (run_pageRange u v w _)

/-! ### Configuration items (20_memory.md R80) -/

theorem bit_cases (f : BitVec 1) : f = 0 ∨ f = 1 := by revert f; decide

theorem segmentRemapByte_eq (f : BitVec 1) : segmentRemapByte f = if f = 1 then 0xA1 else 0xA0 := by
  revert f; decide

theorem comScanDirByte_eq (f : BitVec 1) : comScanDirByte f = if f = 1 then 0xC8 else 0xC0 := by
  revert f; decide

theorem displayOnOffByte_eq (f : BitVec 1) : displayOnOffByte f = if f = 1 then 0xAF else 0xAE := by
  revert f; decide

theorem commandRow_displayOnOff (f : BitVec 1) :
    commandRow (displayOnOffByte f) = some ⟨.displayOnOff, 0xAE, 0xFE, 0⟩ := by
  revert f; decide

/-- `0xA5` is none of the peer's commands (R74). -/
theorem run_entireDisplayOn (u : Bool) (f : BitVec 1) (d : Display) :
    Display.run (.command u) [entireDisplayOnByte f] d = if f = 0 then some (d.configure 0xA4 none) else none := by
  rcases bit_cases f with rfl | rfl <;> rfl

/-- `0xA7` is none of the peer's commands (R74). -/
theorem run_normalInverted (u : Bool) (f : BitVec 1) (d : Display) :
    Display.run (.command u) [normalInvertedByte f] d = if f = 0 then some (d.configure 0xA6 none) else none := by
  rcases bit_cases f with rfl | rfl <;> rfl

/-- Settles O54: each command by the run of its bytes, which appends it. -/
theorem configurationItemsAreListed : Obligations.ConfigurationItemsAreListed := by
  intro s v f hr hf hl hw
  obtain ⟨-, -, u, hu⟩ := isCommand_inside hw
  refine ⟨?_, ?_, ?_, ?_, ?_, ?_, ?_, ?_, ?_, ?_, ?_⟩
  · exact sendCommand_run hr hf hl hu (run_configure1 (row := ⟨.muxRatio, 0xA8, 0xFF, 1⟩) (by decide) rfl rfl)
  · exact sendCommand_run hr hf hl hu (run_configure1 (row := ⟨.displayOffset, 0xD3, 0xFF, 1⟩) (by decide) rfl rfl)
  · exact sendCommand_run hr hf hl hu (run_configure1 (row := ⟨.comPins, 0xDA, 0xFF, 1⟩) (by decide) rfl rfl)
  · exact sendCommand_run hr hf hl hu (run_configure1 (row := ⟨.oscFreq, 0xD5, 0xFF, 1⟩) (by decide) rfl rfl)
  · exact sendCommand_run hr hf hl hu (run_configure1 (row := ⟨.chargePump, 0x8D, 0xFF, 1⟩) (by decide) rfl rfl)
  · exact sendCommand_run hr hf hl hu
      (run_configure0 (row := ⟨.startLine, 0x40, 0xFF, 0⟩) (by decide) rfl rfl fun _ => rfl)
  · rw [← segmentRemapByte_eq]
    exact sendCommand_run hr hf hl hu (run_configure0 (commandRow_segmentRemap f) rfl rfl fun _ => rfl)
  · rw [← comScanDirByte_eq]
    exact sendCommand_run hr hf hl hu (run_configure0 (commandRow_comScanDir f) rfl rfl fun _ => rfl)
  · rw [← displayOnOffByte_eq]
    exact sendCommand_run hr hf hl hu (run_configure0 (commandRow_displayOnOff f) rfl rfl fun _ => rfl)
  · rw [← getD_ite]
    exact sendCommand_run hr hf hl hu (run_entireDisplayOn u f _)
  · rw [← getD_ite]
    exact sendCommand_run hr hf hl hu (run_normalInverted u f _)

/-! ### The column nibbles (20_memory.md R77) -/

theorem run_columnUpper (u : Bool) (hi : BitVec 3) (d : Display) :
    Display.run (.command u) [columnUpperByte hi] d = some { d with hi := some hi, col := none } := by
  rw [run_command0 (commandRow_columnUpper hi) rfl]
  simp only [Display.obey, operands0, setWidth_columnUpper, Option.bind_some, Display.run]

theorem run_columnLower (u : Bool) (lo : BitVec 4) (d : Display) :
    Display.run (.command u) [columnLowerByte lo] d = some (d.lowerNibble lo u) := by
  rw [run_command0 (commandRow_columnLower lo) rfl]
  simp only [Display.obey, operands0, setWidth_columnLower, Option.bind_some, Display.run]

theorem lowerNibble_afterUpper {hi : BitVec 3} (h : d.hi = some hi) (lo : BitVec 4) :
    d.lowerNibble lo true = { d with hi := none, col := some (hi ++ lo) } := by
  simp only [Display.lowerNibble, h]

theorem lowerNibble_alone (lo : BitVec 4) (d : Display) :
    d.lowerNibble lo false = { d with col := some (lo.setWidth 7) } := rfl

theorem toNat_nibbles (hi : BitVec 3) (lo : BitVec 4) : (hi ++ lo).toNat = 16 * hi.toNat + lo.toNat := by
  rw [BitVec.toNat_append, ← Nat.shiftLeft_add_eq_or_of_lt lo.isLt, Nat.shiftLeft_eq]
  omega

/-- Settles O55: each nibble by the run of its byte, which depends on the command just before it. -/
theorem nibbleOrderDecidesTheColumn : Obligations.NibbleOrderDecidesTheColumn := by
  intro s hi lo hr hf hl
  refine ⟨fun u hu => ?_, fun hu hhi => ?_, fun hu => ?_⟩ <;> have hw : s.wire.isCommand = true := by rw [hu]; rfl
  · obtain ⟨t, ht, hwt, hd⟩ := sendCommand_disp hr hf hl hw (by rw [hu]; exact run_columnUpper u hi _)
    exact ⟨t, ht, hwt.trans (after_command0 hw (commandRow_columnUpper hi) rfl), hd⟩
  · obtain ⟨t, ht, hwt, hd⟩ := sendCommand_disp hr hf hl hw (by rw [hu]; exact run_columnLower true lo _)
    rw [lowerNibble_afterUpper hhi] at hd
    exact ⟨t, ht, hwt.trans (after_command0 hw (commandRow_columnLower lo) rfl), _, hd, toNat_nibbles hi lo⟩
  · obtain ⟨t, ht, hwt, hd⟩ := sendCommand_disp hr hf hl hw (by rw [hu]; exact run_columnLower false lo _)
    refine ⟨t, ht, hwt.trans (after_command0 hw (commandRow_columnLower lo) rfl), _, hd, ?_⟩
    exact BitVec.toNat_setWidth_of_le (by decide)

/-! ### One-transaction operations at a hearing peer (20_memory.md R75 to R81) -/

/-- The display afterwards is the one the payload runs to, or nothing is known where one of its bytes has no meaning. -/
theorem operation_at_hearing (hr : s.ready) (hf : s.flows) (hh : s.hearing) (hp : opPayloads s.params i = some [p]) :
    ∃ t, exec i s = .next t ∧
      (∀ d, Display.run .control p s.peer.disp = some d → t.hearing ∧ t.peer.disp = d) ∧
      (Display.run .control p s.peer.disp = none → t.peer.disp = .unknown) := by
  rw [exec_operation hr hp, txns_one, txn_hearing _ p hf hh.1 hh.2.1]
  refine ⟨_, rfl, fun d hd => ?_, afterTxn_run_none hh⟩
  obtain ⟨h1, h2⟩ := afterTxn_run hh hd
  exact ⟨h2, congrArg Peer.disp h1⟩

/-- Settles O34: the run of SETPAGEWINDOW's payload. -/
theorem setPageWindowPointsThePeer : Obligations.SetPageWindowPointsThePeer := by
  intro s page column hr hf hh
  obtain ⟨t, ht, hd, -⟩ := operation_at_hearing (i := .setPageWindow page column) hr hf hh rfl
  exact ⟨t, ht, hd _ (run_window page column _)⟩

/-- Settles O35: the run of the data, with room in the page, past it, and with a pointer or the mode unknown. -/
theorem writeBytesStoresInThePage : Obligations.WriteBytesStoresInThePage := by
  intro s src hr hf hh hl
  obtain ⟨t, ht, hd, hn⟩ := operation_at_hearing (i := .writeBytes src) hr hf hh (if_pos hl)
  rw [run_dataPayload] at hd hn
  refine ⟨t, ht, fun pg c hm hp hc => ⟨fun hroom => ?_, fun hpast => ?_⟩, fun hne hu => ?_⟩
  · obtain ⟨d', h1, h2, h3⟩ := run_data_page src s.peer.disp c hm hp hc hroom
    obtain ⟨h4, h5⟩ := hd d' h1
    rw [h5]
    exact ⟨h4, h2, h3⟩
  · exact hn (run_data_page_past src _ c hm hp hc hpast)
  · obtain ⟨b, bs, rfl⟩ := List.exists_cons_of_ne_nil hne
    exact hn (run_data_unknown hu)

theorem segmentRemapByte_ofBool (f : Bool) : segmentRemapByte (BitVec.ofBool f) = if f then 0xA1 else 0xA0 := by
  revert f; decide

theorem comScanDirByte_ofBool (f : Bool) : comScanDirByte (BitVec.ofBool f) = if f then 0xC8 else 0xC0 := by
  revert f; decide

/-- A frame lists the bytes of pages 0 to 3 by their address. -/
theorem frame_getElem? {f : List (Option Byte)} (ram : List Host.Cell)
    (hf : f = (List.range (Config.nCols * Config.nActivePages)).map (Memory.read ram)) (page : BitVec 3)
    (col : BitVec 7) (hp : page.toNat < 4) : f[dispAddr page col]? = some (Memory.read ram (dispAddr page col)) := by
  have hc := col.isLt
  have hlt : dispAddr page col < Config.nCols * Config.nActivePages := by
    simp only [dispAddr, Config.nCols, Config.nActivePages]; omega
  rw [hf, List.getElem?_map, List.getElem?_range hlt]
  rfl

/-- Settles O37: the runs of the two payloads, and the frame that INIT's configuration makes visible. -/
theorem contrastAndInitConfigureThePeer : Obligations.ContrastAndInitConfigureThePeer := by
  intro s level hr hf hh
  constructor
  · obtain ⟨t, ht, hd, -⟩ := operation_at_hearing (i := .setContrast level) hr hf hh rfl
    exact ⟨t, ht, hd _ (by rw [run_cmdPayload, run_contrast]; rfl)⟩
  · obtain ⟨t, ht, hd, -⟩ := operation_at_hearing (i := .init) hr hf hh rfl
    obtain ⟨h1, h2⟩ := hd _ (run_initCommands s.params _)
    rw [segmentRemapByte_ofBool, comScanDirByte_ofBool] at h2
    refine ⟨t, ht, h1, h2, fun hseg hcom => ?_, fun hflip => ?_⟩
    · have hframe := frame_of_init (d := t.peer.disp) (old := s.peer.disp.cfg) (by rw [h2, hseg, hcom]; rfl)
      have hram : t.peer.disp.ram = s.peer.disp.ram := by rw [h2]
      refine ⟨_, hframe, by rw [List.length_map, List.length_range]; rfl, fun page col hp => ?_⟩
      rw [frame_getElem? t.peer.disp.ram rfl page col hp, hram]
      rfl
    · refine frame_of_flipped (d := t.peer.disp) (old := s.peer.disp.cfg) (by rw [h2]) ?_
      cases hs : s.params.flipSeg <;> cases hc : s.params.flipCom <;> simp_all

end Sys2Proof.Machine
end

section
/-! PROOFS. What holds of the traces and of the display RAM along every instruction (20_memory.md R57, R65, R69). -/

namespace Sys2Proof.Machine

variable {s t : State} {bs : List Byte} {b : Byte} {m : List Host.Cell}

/-! ### Traces only grow (20_memory.md R69) -/

/-- Newest first, what was there before is the end of what is there after. -/
theorem traces_closed (line : List LineEvent) (bytes : List ByteEvent) :
    AllClosed fun s => line <:+ s.line ∧ bytes <:+ s.bytes where
  byte _ _ h := ⟨h.1.trans (List.suffix_append _ _), h.2.trans (List.suffix_cons _ _)⟩
  mid _ _ h hm := by
    obtain ⟨_, evs, _, _, -, -, rfl⟩ := hm
    exact ⟨h.1.trans (List.suffix_append evs _), h.2⟩
  timeout _ h := ⟨h.1.trans (List.suffix_cons _ _), h.2⟩
  start _ h := ⟨h.1.trans (List.suffix_append _ _), h.2.trans (List.suffix_cons _ _)⟩
  stop _ h := ⟨h.1.trans (List.suffix_append _ _), h.2.trans (List.suffix_cons _ _)⟩
  result _ _ h := h
  hang _ h := h
  release _ h := ⟨h.1.trans ⟨[.sda true, .scl true], rfl⟩, h.2⟩
  offset _ _ h := h
  phase _ _ h := h

/-- Settles O57: oldest first, the traces before are the beginnings of those after. -/
theorem operationsOnlyAddToTheTraces : Obligations.OperationsOnlyAddToTheTraces := by
  intro i s t h
  obtain ⟨⟨es, hl⟩, bs, hb⟩ :=
    exec_allClosed (traces_closed s.line s.bytes) i ⟨List.suffix_rfl, List.suffix_rfl⟩ h
  exact ⟨⟨es.reverse, by rw [State.lineTrace, ← hl, List.reverse_append]; rfl⟩,
    bs.reverse, by rw [State.byteTrace, ← hb, List.reverse_append]; rfl⟩

/-! ### Who stores to the display (20_memory.md R57, R65) -/

/-- Answering leaves the peer as it is. -/
theorem answerByte_peer {r : State × ByteEnd} (h : answerByte r = .next t) : t.peer = r.1.peer := by
  obtain ⟨u, e⟩ := r
  cases e <;> cases h <;> rfl

theorem answerStatus_peer {r : State × OpEnd} (h : answerStatus r = .next t) : t.peer = r.1.peer := by
  obtain ⟨u, e⟩ := r
  cases e <;> cases h <;> rfl

theorem answerInit_peer {r : State × OpEnd} (h : answerInit r = .next t) : t.peer = r.1.peer := by
  obtain ⟨u, e⟩ := r
  rcases e with (_ | _ | _) | _ <;> cases h <;> rfl

theorem keepsRam_of_peer (h : t.peer = s.peer) (hs : KeepsRam m s) : KeepsRam m t :=
  keepsRam_of_eq (congrArg (fun p => p.disp.ram) h) hs

theorem answerByte_keepsRam {r : State × ByteEnd} (hr : KeepsRam m r.1) (h : answerByte r = .next t) : KeepsRam m t :=
  keepsRam_of_peer (answerByte_peer h) hr

/-- An item of one byte is that byte's frame. -/
theorem sendItem_byte (b : Byte) (s : State) : (sendItem [b] s).1 = (shift9 b s).1 := by
  rw [sendItem]
  generalize shift9 b s = r
  obtain ⟨u, e⟩ := r
  cases e <;> rfl

theorem sendFraming_keepsRam (hs : KeepsRam m s) (h : sendFraming b s = .next t) : KeepsRam m t := by
  obtain ⟨-, h⟩ := whenOpen_next h
  split at h
  · rename_i hw
    refine answerByte_keepsRam ?_ h
    rw [sendItem_byte]
    exact (shift9_keepsRam b (by rw [hw]; decide) hs).1
  · cases h

theorem sendCommand_keepsRam (hs : KeepsRam m s) (h : sendCommand bs s = .next t) : KeepsRam m t := by
  obtain ⟨-, h⟩ := whenOpen_next h
  split at h
  · rename_i hw
    obtain ⟨-, -, u, hu⟩ := isCommand_inside hw
    exact answerByte_keepsRam (sendItem_keepsRam bs (by rw [hu]; rfl) hs) h
  · cases h

/-- Settles O58: every other instruction sends no byte in data position. -/
theorem onlyDataOperationsStore : Obligations.OnlyDataOperationsStore := by
  intro i s t h hwrite hclear hsend hmarquee hbungee hwobble
  have hs : KeepsRam s.peer.disp.ram s := fun _ => .inl rfl
  show KeepsRam s.peer.disp.ram t
  cases i with
  | writeBytes bs => exact absurd rfl (hwrite bs)
  | clear => exact absurd rfl hclear
  | sendByte b => exact absurd rfl (hsend b)
  | marquee x y w m o v => exact absurd rfl (hmarquee x y w m o v)
  | bungee x y w m o => exact absurd rfl (hbungee x y w m o)
  | wobble x y m p => exact absurd rfl (hwobble x y m p)
  | busCfg => cases (whenIdle_next (s := s) h).2; exact hs
  | stop => cases (whenOpen_next (s := s) h).2; exact keepsRam_stop hs
  | glyphFor code => cases (whenFree_next (s := s) h).2; exact hs
  | start a =>
    have h := (whenIdle_next (s := s) h).2
    split at h
    · cases h
    · exact answerByte_keepsRam (startOp_keepsRam a hs).1 h
  | addrByte a => exact answerByte_keepsRam (startOp_keepsRam _ hs).1 (whenIdle_next (s := s) h).2
  | init => exact keepsRam_of_peer (answerInit_peer (whenIdle_next (s := s) h).2) (cmdTxn_keepsRam _ _ hs)
  | setPageWindow page column =>
    exact keepsRam_of_peer (answerStatus_peer (whenIdle_next (s := s) h).2) (cmdTxn_keepsRam _ _ hs)
  | setContrast level =>
    exact keepsRam_of_peer (answerStatus_peer (whenIdle_next (s := s) h).2) (cmdTxn_keepsRam _ _ hs)
  | reserved1101 | reserved1110 | reserved1111 => cases h
  | ctrlCommands | ctrlData => exact sendFraming_keepsRam hs h
  | _ => exact sendCommand_keepsRam hs h

end Sys2Proof.Machine
end

section
/-! PROOFS. What the environment's choices do to the peer: power that comes and goes, a line held at START or STOP, an
acknowledge against the reference peer (20_memory.md R71, R72; 40_bus.md R138, R142; 70_reset_and_hazards.md R298). -/

namespace Sys2Proof.Machine

variable {s t : State} {i : Instr} {b : Byte} {x : Bool} {ps : List (List Byte)}

/-! ### The peer as a transaction begins (20_memory.md R71, 40_bus.md R138) -/

/-- When a change of power leaves a peer that nothing is known of, and when it leaves the peer alone. -/
theorem Peer.powerChange_eq (c : PowerChange) (p : Peer) : p.powerChange c =
    if (c = .on ∧ p.on = false) ∨ c = .off ∨ (c = .reset ∧ p.on = true) then .blank (c.leaves p.on) else p := by
  cases c <;> cases hp : p.on <;> simp [Peer.powerChange, PowerChange.leaves, hp]

/-- A start condition that the peer, if it has power, does not spoil. -/
theorem afterStart_peer_of_unheld (h : s.env.powerNow.leaves s.peer.on = true → s.env.startHeld = []) :
    (afterStart s).peer = s.peer.powerChange s.env.powerNow := by
  show (s.peer.powerChange s.env.powerNow).startSeen s.env.heldAtStart = _
  rw [Peer.startSeen, Peer.powerChange_on]
  cases hon : s.env.powerNow.leaves s.peer.on with
  | false => rfl
  | true => rw [Env.heldAtStart, h hon]; rfl

/-- A start condition that a powered peer spoils. -/
theorem afterStart_peer_of_held (hon : s.env.powerNow.leaves s.peer.on = true)
    (hh : s.env.startHeld.head? = some true) :
    (afterStart s).peer = (s.peer.powerChange s.env.powerNow).lost := by
  show (s.peer.powerChange s.env.powerNow).startSeen s.env.heldAtStart = _
  rw [Peer.startSeen, Peer.powerChange_on, hon, Env.heldAtStart, List.headD_eq_head?_getD, hh]
  rfl

/-! ### An acknowledge that the environment lists (93_implementation_defined.md U14) -/

theorem peerPulls_of_listed (hon : s.peer.on = true) (h : s.env.acks.head? = some x) (b : Byte) : s.peerPulls b = x :=
  peerPulls_of_acks hon (by rw [← List.head?_eq_getElem?]; exact h) b

/-- A byte whose listed acknowledge is not the reference peer's: it is the result, and nothing is known of the peer. -/
theorem afterItem_against (hon : s.peer.on = true) (h : s.env.acks.head? = some x)
    (hx : x ≠ s.peer.answer s.params.devAddr s.wire b) :
    (afterItem [b] s).result = .acked x ∧ (afterItem [b] s).peer.synced = false ∧
      (afterItem [b] s).peer.disp = .unknown := by
  rw [afterItem_byte_result, afterItem_byte_peer, peerPulls_of_listed hon h]
  exact ⟨rfl, Peer.receive_against s.params.devAddr hx⟩

/-! ### Operations to a peer without power (70_reset_and_hazards.md R298, 60_exceptions.md R251) -/

/-- How an operation whose transactions end with a status ends. -/
theorem answerOp_endsWith {u : State} {st : Status} (hr : s.ready) (hh : s.sameHost u) (hw : EndsWell (u, .status st)) :
    ∃ t, answerOp i s (u, .status st) = .next t ∧ EndsWith i s t st ∧ t.line = u.line ∧ t.bytes = u.bytes ∧
      t.peer = u.peer := by
  obtain ⟨hscl, hsda, hwire⟩ := hw
  obtain ⟨hparams, hrequests, -, -, hhung⟩ := hh
  have hidle : u.isIdle = true := by rw [State.isIdle, hscl, hsda]; rfl
  exact ⟨_, rfl, ⟨rfl, rfl, rfl, hidle, hwire, hhung.trans hr.1, hparams, hrequests⟩, rfl, rfl, rfl⟩

/-- An unchecked operation, the peer without power throughout: sent whole, status OK, nothing held and no frame. -/
theorem operation_without_power (hr : s.ready) (hb : s.params.stretchLimit ≠ .bounded 0)
    (hp : opPayloads s.params i = some ps) (hc : opChecks s.params.ackPolicy i = false) (hwf : s.peer.wf)
    (hs : (afterStart s).silent) :
    ∃ t, exec i s = .next t ∧ EndsWith i s t .ok ∧
      t.lineTrace = s.lineTrace ++ ps.flatMap (fun p => txnFrame ((s.params.devAddr :: p).map fun b => (b, false))) ∧
      t.byteTrace = s.byteTrace ++ ps.flatMap (fun p => txnBytes ((s.params.devAddr :: p).map fun b => (b, false))) ∧
      t.peer.on = false ∧ t.peer.disp = .unknown ∧ t.peer.disp.frame = none := by
  have hne := opPayloads_ne_nil hp
  obtain ⟨h1, h2, h3, h4⟩ := silent_txns hb hs ps hne
  have hh := txns_sameHost false ps s
  have hw := txns_endsWell false hne s
  rw [h1] at hh hw
  obtain ⟨t, ht, hend, hline, hbytes, hpeer⟩ := answerOp_endsWith (i := i) hr hh hw
  have he : exec i s = .next t := by rw [exec_operation hr hp, hc, h1, ht]
  have hon : t.peer.on = false := by rw [hpeer]; exact h2.1
  obtain ⟨-, -, hoff, -⟩ := exec_allClosed peerWf_allClosed i hwf he
  refine ⟨t, he, hend, ?_, ?_, hon, hoff hon, by rw [hoff hon]; rfl⟩
  · rw [State.lineTrace, hline, h3, List.reverse_append, List.reverse_reverse]; rfl
  · rw [State.byteTrace, hbytes, h4, List.reverse_append, List.reverse_reverse]; rfl

/-! ### STOP with the clock held low (40_bus.md R142) -/

theorem afterStop_peer_of_held (hon : s.peer.on = true) (hh : s.env.stopHeld.head? = some true) :
    (afterStop s).peer = s.peer.lost := by
  show s.peer.stopSeen s.env.held = _
  rw [Peer.stopSeen, hon, Env.held, List.headD_eq_head?_getD, hh]
  rfl

/-- Settles O60: the peer as the transaction begins, then what the byte, or the stop condition, does to it. -/
theorem peerOutsideTheReference : Obligations.PeerOutsideTheReference := by
  refine ⟨fun s a on hr hf ha hon href => ?_, fun i s ps hr hb hp hc hwf hoff hnone => ?_,
    fun s a hr hf ha hon hh => ?_, fun s hr hon hh => ?_, fun s a x hr hf ha hon hx hne => ?_,
    fun s b x hr hf hw hon hx hne => ?_, fun s b hr hf hsy hd => ?_⟩
  · have hon' : (afterStart s).peer.on = on := (afterStart_on s).trans hon.symm
    obtain ⟨hpeer, hres⟩ := afterItem_address_peer (s := afterStart s) rfl
      (fun h => (href (hon'.symm.trans h)).1) a
    rw [hon'] at hpeer hres
    refine ⟨_, exec_start_of_flows hr hf ha, hres, by rw [hpeer]; exact hon', by rw [hpeer]; rfl, rfl, ?_⟩
    rw [hpeer, afterStart_peer_of_unheld fun h => (href (hon.trans h)).2, Peer.powerChange_eq]
    split
    · exact ⟨rfl, rfl⟩
    · exact ⟨rfl, rfl⟩
  · exact operation_without_power hr hb hp hc hwf (silent_of hoff hnone)
  · have hpeer := afterStart_peer_of_held hon hh
    refine ⟨_, _, exec_start_of_flows hr hf ha, rfl, afterItem_byte_readyOpen a hr.1, rfl, ?_,
      Peer.receive_of_lost _ a _ _ (by rw [hpeer]; rfl) (by rw [hpeer]; rfl)⟩
    rw [afterItem_byte_lineTrace, afterStart_lineTrace]; rfl
  · have hpeer := afterStop_peer_of_held hon hh
    refine ⟨_, exec_stop_of_readyOpen hr, rfl, ⟨hr.1, rfl⟩, rfl, afterStop_lineTrace s, ?_, ?_⟩
    · exact congrArg Peer.synced hpeer
    · exact congrArg Peer.disp hpeer
  · have hon' : (afterStart s).peer.on = true := (afterStart_on s).trans hon
    have hans : x ≠ (afterStart s).peer.answer s.params.devAddr .address a := by
      rw [Peer.answer, hon']; exact hne
    obtain ⟨hres, hsy, hd⟩ := afterItem_against (s := afterStart s) hon' hx hans
    refine ⟨_, exec_start_of_flows hr hf ha, hres, afterItem_byte_readyOpen a hr.1, ?_, hsy, hd⟩
    exact peerPulls_of_listed (s := afterStart s) hon' hx a
  · have hans : x ≠ s.peer.answer s.params.devAddr s.wire b := by
      rw [Peer.answer_payload hw, hon]; exact hne
    obtain ⟨hres, hsy, hd⟩ := afterItem_against hon hx hans
    exact ⟨_, exec_sendByte_of_flows hr hf, hres, afterItem_byte_readyOpen b hr.1, rfl, hsy, hd⟩
  · exact ⟨_, exec_sendByte_of_flows hr hf, Peer.receive_of_lost _ b _ _ hsy hd⟩

end Sys2Proof.Machine
end

section
/-! PROOFS. The encoding of requests and wire items (30_encoding.md R94 to R100, R110): decoding undoes encoding, and
whatever decodes was encoded so. -/

namespace Sys2Proof

open Machine

variable {b c base mask : Byte} {bs ops rest : List Byte} {i j : Instr} {row : CmdRow}

/-! ### Fields in command and address bytes (30_encoding.md R94, R98) -/

theorem commandRow_entireDisplayOn (f : BitVec 1) :
    commandRow (entireDisplayOnByte f) = some ⟨.entireDisplayOn, 0xA4, 0xFE, 0⟩ := by
  revert f; decide

theorem commandRow_normalInverted (f : BitVec 1) :
    commandRow (normalInvertedByte f) = some ⟨.normalInverted, 0xA6, 0xFE, 0⟩ := by
  revert f; decide

theorem addressByte_and_mask (sub : BitVec 1) : addressByte sub &&& 0xFD = 0x78 := by revert sub; decide

theorem setWidth_addressByte (sub : BitVec 1) : (addressByte sub >>> 1).setWidth 1 = sub := by revert sub; decide

theorem setWidth_segmentRemap (f : BitVec 1) : (segmentRemapByte f).setWidth 1 = f := by revert f; decide

theorem setWidth_comScanDir (f : BitVec 1) : (comScanDirByte f >>> 3).setWidth 1 = f := by revert f; decide

theorem setWidth_entireDisplayOn (f : BitVec 1) : (entireDisplayOnByte f).setWidth 1 = f := by revert f; decide

theorem setWidth_normalInverted (f : BitVec 1) : (normalInvertedByte f).setWidth 1 = f := by revert f; decide

theorem setWidth_displayOnOff (f : BitVec 1) : (displayOnOffByte f).setWidth 1 = f := by revert f; decide

/-- Taking `w` bits from bit `k` on out of a byte and putting them back is masking. -/
theorem shifted_field_eq_and (w k : Nat) (b : Byte) :
    ((b >>> k).setWidth w).setWidth 8 <<< k = b &&& (BitVec.allOnes w).setWidth 8 <<< k := by
  apply BitVec.eq_of_getLsbD_eq
  intro p _
  by_cases hk : p < k
  · simp [hk]
  · have hp : k + (p - k) = p := by omega
    simp [hp, Bool.and_comm, Bool.and_left_comm, Bool.and_assoc]

/-- A byte is its bits under the mask with the field that the mask leaves out, `w` bits from bit `k` on, OR'd in. -/
theorem or_shifted_field (w k : Nat) (h : b &&& mask = base) (hm : ~~~mask = (BitVec.allOnes w).setWidth 8 <<< k) :
    base ||| (((b >>> k).setWidth w).setWidth 8 <<< k) = b := by
  rw [shifted_field_eq_and, ← hm, ← h, ← BitVec.and_or_distrib_left, BitVec.or_not_self, BitVec.and_allOnes]

/-- The same for a field in the lowest bits. -/
theorem or_field (w : Nat) (h : b &&& mask = base) (hm : ~~~mask = (BitVec.allOnes w).setWidth 8) :
    base ||| (b.setWidth w).setWidth 8 = b := by
  have := or_shifted_field w 0 h (by rw [BitVec.shiftLeft_zero]; exact hm)
  rwa [BitVec.shiftLeft_zero, BitVec.ushiftRight_zero] at this

/-! ### Decoding undoes encoding -/

/-- A command without operands. -/
theorem decode_command0 (hr : commandRow b = some row) (ho : row.operands = 0)
    (hi : commandInstr row.kind b [] = some i) : decode ([commandMarker, b] ++ rest) = .ok (i, rest) :=
  decodeCommand_cons (ops := []) hr ho.symm hi

/-- A command with one operand. -/
theorem decode_command1 {v : Byte} (hr : commandRow b = some row) (ho : row.operands = 1)
    (hi : commandInstr row.kind b [v] = some i) : decode ([commandMarker, b, v] ++ rest) = .ok (i, rest) :=
  decodeCommand_cons (ops := [v]) hr ho.symm hi

/-- A command with two operands. -/
theorem decode_command2 {v w : Byte} (hr : commandRow b = some row) (ho : row.operands = 2)
    (hi : commandInstr row.kind b [v, w] = some i) : decode ([commandMarker, b, v, w] ++ rest) = .ok (i, rest) :=
  decodeCommand_cons (ops := [v, w]) hr ho.symm hi

/-- Settles O6: each operand reads back what was written, each command is its row of the table with its operands. -/
theorem everyInstructionDecodesFromItsEncoding : Obligations.EveryInstructionDecodesFromItsEncoding := by
  intro i rest hwf
  cases i with
  | busCfg | stop | init | clear | reserved1101 | reserved1110 | reserved1111 => rfl
  | start | sendByte | setContrast | glyphFor => rfl
  | setPageWindow page column =>
    show decodeRequest 0x5 (page.setWidth 8 :: column.setWidth 8 :: rest) = _
    rw [decodeRequest_window, withField_setWidth (by decide), withField_setWidth (by decide)]
  | writeBytes src =>
    have hl : (BitVec.ofNat 16 src.length).toNat = src.length := by
      rw [BitVec.toNat_ofNat]; exact Nat.mod_eq_of_lt (of_decide_eq_true hwf)
    show decodeRequest 0x6 (halfBytes (BitVec.ofNat 16 src.length) ++ src ++ rest) = _
    rw [decodeRequest_write, List.append_assoc, withHalf_halfBytes, hl, withBytes_append]
  | marquee x y width msg offset speed =>
    show decodeRequest 0xA (x.setWidth 8 :: y.setWidth 8 :: width ::
      (messageBytes msg ++ halfBytes offset ++ [speed] ++ rest)) = _
    rw [decodeRequest_marquee, withField_setWidth (by decide), withField_setWidth (by decide), withByte_cons,
      List.append_assoc, List.append_assoc, withMessage_messageBytes (of_decide_eq_true hwf), withHalf_halfBytes]
    rfl
  | bungee x y width msg offset =>
    show decodeRequest 0xB (x.setWidth 8 :: y.setWidth 8 :: width :: (messageBytes msg ++ halfBytes offset ++ rest)) = _
    rw [decodeRequest_bungee, withField_setWidth (by decide), withField_setWidth (by decide), withByte_cons,
      List.append_assoc, withMessage_messageBytes (of_decide_eq_true hwf), withHalf_halfBytes]
  | wobble x y msg phase =>
    show decodeRequest 0xC (x.setWidth 8 :: y.setWidth 8 :: (messageBytes msg ++ [phase] ++ rest)) = _
    rw [decodeRequest_wobble, withField_setWidth (by decide), withField_setWidth (by decide), List.append_assoc,
      withMessage_messageBytes (of_decide_eq_true hwf)]
    rfl
  | addrByte sub =>
    show decodeAddress (addressByte sub :: rest) = _
    rw [decodeAddress, withByte_cons, if_pos (addressByte_and_mask sub), setWidth_addressByte]
  | ctrlCommands | ctrlData => rfl
  | cmdMuxRatio v => exact decode_command1 (row := ⟨.muxRatio, 0xA8, 0xFF, 1⟩) rfl rfl rfl
  | cmdDisplayOffset v => exact decode_command1 (row := ⟨.displayOffset, 0xD3, 0xFF, 1⟩) rfl rfl rfl
  | cmdStartLine => exact decode_command0 (row := ⟨.startLine, 0x40, 0xFF, 0⟩) rfl rfl rfl
  | cmdSegmentRemap f =>
    exact decode_command0 (commandRow_segmentRemap f) rfl
      (congrArg (some ∘ Instr.cmdSegmentRemap) (setWidth_segmentRemap f))
  | cmdComScanDir f =>
    exact decode_command0 (commandRow_comScanDir f) rfl
      (congrArg (some ∘ Instr.cmdComScanDir) (setWidth_comScanDir f))
  | cmdComPins v => exact decode_command1 (row := ⟨.comPins, 0xDA, 0xFF, 1⟩) rfl rfl rfl
  | cmdContrast v => exact decode_command1 (row := ⟨.contrast, 0x81, 0xFF, 1⟩) rfl rfl rfl
  | cmdEntireDisplayOn f =>
    exact decode_command0 (commandRow_entireDisplayOn f) rfl
      (congrArg (some ∘ Instr.cmdEntireDisplayOn) (setWidth_entireDisplayOn f))
  | cmdNormalInverted f =>
    exact decode_command0 (commandRow_normalInverted f) rfl
      (congrArg (some ∘ Instr.cmdNormalInverted) (setWidth_normalInverted f))
  | cmdOscFreq v => exact decode_command1 (row := ⟨.oscFreq, 0xD5, 0xFF, 1⟩) rfl rfl rfl
  | cmdChargePump v => exact decode_command1 (row := ⟨.chargePump, 0x8D, 0xFF, 1⟩) rfl rfl rfl
  | cmdDisplayOnOff f =>
    exact decode_command0 (commandRow_displayOnOff f) rfl
      (congrArg (some ∘ Instr.cmdDisplayOnOff) (setWidth_displayOnOff f))
  | cmdAddressingMode v => exact decode_command1 (row := ⟨.addressingMode, 0x20, 0xFF, 1⟩) rfl rfl rfl
  | cmdColumnRange v w => exact decode_command2 (row := ⟨.columnRange, 0x21, 0xFF, 2⟩) rfl rfl rfl
  | cmdPageRange v w => exact decode_command2 (row := ⟨.pageRange, 0x22, 0xFF, 2⟩) rfl rfl rfl
  | cmdPageStart page =>
    exact decode_command0 (commandRow_pageStart page) rfl
      (congrArg (some ∘ Instr.cmdPageStart) (setWidth_pageStart page))
  | cmdColumnUpper hi =>
    exact decode_command0 (commandRow_columnUpper hi) rfl
      (congrArg (some ∘ Instr.cmdColumnUpper) (setWidth_columnUpper hi))
  | cmdColumnLower lo =>
    exact decode_command0 (commandRow_columnLower lo) rfl
      (congrArg (some ∘ Instr.cmdColumnLower) (setWidth_columnLower lo))

/-! ### Whatever decodes was encoded so -/

/-- The bytes `bs` are the encoding of a well-formed instruction, with `rest` after it. -/
structure Encoded (bs : List Byte) (i : Instr) (rest : List Byte) : Prop where
  bytes : bs = encode i ++ rest
  wellFormed : i.wellFormed = true

/-- A byte that equals its base under the full mask has no field. -/
theorem eq_of_and_full (h : b &&& 0xFF = base) : base = b := h.symm.trans BitVec.and_allOnes

/-- A command that takes no operand was its byte alone. -/
theorem encoded_operands0 (hb : c = b) (h : operands0 ops (some j) = some i)
    (hj : Encoded (commandMarker :: c :: rest) j rest) : Encoded (commandMarker :: b :: (ops ++ rest)) i rest := by
  obtain ⟨rfl, hk⟩ := operands0_ok h
  cases hb
  cases hk
  exact hj

/-- A command that takes one operand was its byte and that operand. -/
theorem encoded_operands1 {f : Byte → Instr} (hb : c = b) (h : operands1 ops (fun v => some (f v)) = some i)
    (hf : ∀ v, Encoded (commandMarker :: c :: v :: rest) (f v) rest) :
    Encoded (commandMarker :: b :: (ops ++ rest)) i rest := by
  obtain ⟨v, rfl, hk⟩ := operands1_ok h
  cases hb
  cases hk
  exact hf v

/-- A command that takes two operands was its byte and those operands. -/
theorem encoded_operands2 {f : Byte → Byte → Instr} (hb : c = b)
    (h : operands2 ops (fun v w => some (f v w)) = some i)
    (hf : ∀ v w, Encoded (commandMarker :: c :: v :: w :: rest) (f v w) rest) :
    Encoded (commandMarker :: b :: (ops ++ rest)) i rest := by
  obtain ⟨v, w, rfl, hk⟩ := operands2_ok h
  cases hb
  cases hk
  exact hf v w

/-- Row by row of the command table (R100). -/
theorem encoded_commandInstr (hr : commandRow b = some row) (hi : commandInstr row.kind b ops = some i)
    (rest : List Byte) : Encoded (commandMarker :: b :: (ops ++ rest)) i rest := by
  obtain ⟨hm, hb⟩ := commandRow_mem hr
  simp only [commandTable, List.cons_append, List.nil_append, List.mem_cons, List.not_mem_nil, or_false] at hm
  rcases hm with rfl | rfl | rfl | rfl | rfl | rfl | rfl | rfl | rfl |
    rfl | rfl | rfl | rfl | rfl | rfl | rfl | rfl | rfl
  · exact encoded_operands1 (eq_of_and_full hb) hi fun _ => ⟨rfl, rfl⟩
  · exact encoded_operands1 (eq_of_and_full hb) hi fun _ => ⟨rfl, rfl⟩
  · exact encoded_operands0 (eq_of_and_full hb) hi ⟨rfl, rfl⟩
  · exact encoded_operands0 (or_field 1 hb rfl) hi ⟨rfl, rfl⟩
  · exact encoded_operands0 (or_shifted_field 1 3 hb rfl) hi ⟨rfl, rfl⟩
  · exact encoded_operands1 (eq_of_and_full hb) hi fun _ => ⟨rfl, rfl⟩
  · exact encoded_operands1 (eq_of_and_full hb) hi fun _ => ⟨rfl, rfl⟩
  · exact encoded_operands0 (or_field 1 hb rfl) hi ⟨rfl, rfl⟩
  · exact encoded_operands0 (or_field 1 hb rfl) hi ⟨rfl, rfl⟩
  · exact encoded_operands1 (eq_of_and_full hb) hi fun _ => ⟨rfl, rfl⟩
  · exact encoded_operands1 (eq_of_and_full hb) hi fun _ => ⟨rfl, rfl⟩
  · exact encoded_operands0 (or_field 1 hb rfl) hi ⟨rfl, rfl⟩
  · exact encoded_operands1 (eq_of_and_full hb) hi fun _ => ⟨rfl, rfl⟩
  · exact encoded_operands2 (eq_of_and_full hb) hi fun _ _ => ⟨rfl, rfl⟩
  · exact encoded_operands2 (eq_of_and_full hb) hi fun _ _ => ⟨rfl, rfl⟩
  · exact encoded_operands0 (or_field 3 hb rfl) hi ⟨rfl, rfl⟩
  · exact encoded_operands0 (or_field 3 hb rfl) hi ⟨rfl, rfl⟩
  · exact encoded_operands0 (or_field 4 hb rfl) hi ⟨rfl, rfl⟩

theorem encoded_of_decodeCommand (h : decodeCommand bs = .ok (i, rest)) : Encoded (commandMarker :: bs) i rest := by
  obtain ⟨b, t, rfl, hb⟩ := withByte_ok h
  split at hb
  · cases hb
  · rename_i row hr
    obtain ⟨ops, t, rfl, -, hops⟩ := withBytes_ok hb
    split at hops
    · rename_i j hj
      cases hops
      exact encoded_commandInstr hr hj _
    · cases hops

theorem encoded_of_decodeAddress (h : decodeAddress bs = .ok (i, rest)) : Encoded (addressMarker :: bs) i rest := by
  obtain ⟨b, t, rfl, hb⟩ := withByte_ok h
  split at hb
  · rename_i hmask
    cases hb
    have hbyte : addressByte ((b >>> 1).setWidth 1) = b := or_shifted_field 1 1 hmask rfl
    exact ⟨by rw [encode, hbyte]; rfl, rfl⟩
  · cases hb

theorem encoded_of_decodeFraming (h : decodeFraming bs = .ok (i, rest)) : Encoded (framingMarker :: bs) i rest := by
  obtain ⟨b, t, rfl, hb⟩ := withByte_ok h
  split_ifs at hb with h0 h4 <;> cases hb
  · exact ⟨by rw [h0]; rfl, rfl⟩
  · exact ⟨by rw [h4]; rfl, rfl⟩

/-- Selector by selector (R110), each operand by what its reader says of the bytes it read. -/
theorem encoded_of_decodeRequest {n : Nat} (h : decodeRequest n bs = .ok (i, rest)) :
    Encoded (BitVec.ofNat 8 n :: bs) i rest := by
  unfold decodeRequest at h
  split at h
  · cases h; exact ⟨rfl, rfl⟩
  · obtain ⟨a, t, rfl, ha⟩ := withByte_ok h
    cases ha; exact ⟨rfl, rfl⟩
  · obtain ⟨b, t, rfl, hb⟩ := withByte_ok h
    cases hb; exact ⟨rfl, rfl⟩
  · cases h; exact ⟨rfl, rfl⟩
  · cases h; exact ⟨rfl, rfl⟩
  · obtain ⟨page, t, rfl, hpage⟩ := withField_ok h
    obtain ⟨column, t, rfl, hcolumn⟩ := withField_ok hpage
    cases hcolumn; exact ⟨rfl, rfl⟩
  · obtain ⟨len, t, rfl, hlen⟩ := withHalf_ok h
    obtain ⟨src, t, rfl, hl, hsrc⟩ := withBytes_ok hlen
    have hv : BitVec.ofNat 16 src.length = len := by rw [hl, BitVec.ofNat_toNat, BitVec.setWidth_eq]
    cases hsrc; exact ⟨by simp [encode, hv], decide_eq_true (hl ▸ len.isLt)⟩
  · cases h; exact ⟨rfl, rfl⟩
  · obtain ⟨level, t, rfl, hlevel⟩ := withByte_ok h
    cases hlevel; exact ⟨rfl, rfl⟩
  · obtain ⟨code, t, rfl, hcode⟩ := withByte_ok h
    cases hcode; exact ⟨rfl, rfl⟩
  · obtain ⟨x, t, rfl, hx⟩ := withField_ok h
    obtain ⟨y, t, rfl, hy⟩ := withField_ok hx
    obtain ⟨width, t, rfl, hwidth⟩ := withByte_ok hy
    obtain ⟨msg, t, rfl, hl, hmsg⟩ := withMessage_ok hwidth
    obtain ⟨offset, t, rfl, hoffset⟩ := withHalf_ok hmsg
    obtain ⟨speed, t, rfl, hspeed⟩ := withByte_ok hoffset
    cases hspeed; exact ⟨by simp [encode], decide_eq_true hl⟩
  · obtain ⟨x, t, rfl, hx⟩ := withField_ok h
    obtain ⟨y, t, rfl, hy⟩ := withField_ok hx
    obtain ⟨width, t, rfl, hwidth⟩ := withByte_ok hy
    obtain ⟨msg, t, rfl, hl, hmsg⟩ := withMessage_ok hwidth
    obtain ⟨offset, t, rfl, hoffset⟩ := withHalf_ok hmsg
    cases hoffset; exact ⟨by simp [encode], decide_eq_true hl⟩
  · obtain ⟨x, t, rfl, hx⟩ := withField_ok h
    obtain ⟨y, t, rfl, hy⟩ := withField_ok hx
    obtain ⟨msg, t, rfl, hl, hmsg⟩ := withMessage_ok hy
    obtain ⟨phase, t, rfl, hphase⟩ := withByte_ok hmsg
    cases hphase; exact ⟨by simp [encode], decide_eq_true hl⟩
  · cases h; exact ⟨rfl, rfl⟩
  · cases h; exact ⟨rfl, rfl⟩
  · cases h; exact ⟨rfl, rfl⟩
  · cases h

/-- What decodes was encoded so: a selector and its operands, or a position marker and an item. -/
theorem encoded_of_decode (h : decode bs = .ok (i, rest)) : Encoded bs i rest := by
  cases bs with
  | nil => cases h
  | cons b bs =>
    simp only [decode] at h
    split_ifs at h with hsel haddr hframe hcmd
    · have hb := encoded_of_decodeRequest h
      rwa [BitVec.ofNat_toNat, BitVec.setWidth_eq] at hb
    · rw [haddr]; exact encoded_of_decodeAddress h
    · rw [hframe]; exact encoded_of_decodeFraming h
    · rw [hcmd]; exact encoded_of_decodeCommand h

/-- Settles O7: by the first byte, a selector or the marker of a position. -/
theorem whateverDecodesIsAnEncoding : Obligations.WhateverDecodesIsAnEncoding := by
  intro bs i rest h
  obtain ⟨hbytes, hwf⟩ := encoded_of_decode h
  exact ⟨hbytes, hwf⟩

/-- Settles O8: eight closed lists of bytes. -/
theorem writtenOutWordsDecode : Obligations.WrittenOutWordsDecode := by
  unfold Obligations.WrittenOutWordsDecode
  decide

end Sys2Proof
end

section
/-! PROOFS. The step and the decoded request, the refusals of reserved selectors and misplaced items, and what the wire
items and SETPAGEWINDOW send in a flowing environment (30_encoding.md R94 to R100, R115, R118, R122; 41_protocol.md
R166). -/

namespace Sys2Proof.Machine

variable {s : State} {i : Instr} {b v w : Byte} {bs : List Byte} {row : CmdRow}

/-! ### The step (10_state.md R25) -/

theorem fetch_of_decode {rest : List Byte} (hh : s.hung = false) (hd : decode s.requests = .ok (i, rest)) :
    fetch s = .request i rest := by
  have hne : s.requests ≠ [] := fun h => by rw [h] at hd; cases hd
  rw [fetch, hh, if_neg (by decide), if_neg hne, hd]

/-- Settles O4: what is fetched is what the bytes decode to. -/
theorem stepRunsTheDecodedRequest : Obligations.StepRunsTheDecodedRequest := by
  intro s i rest hh hd
  rw [step, fetch_of_decode hh hd]

/-! ### Refusals (30_encoding.md R96, R115, R122) -/

/-- Settles O9: the three meanings are refusals whatever the state. -/
theorem reservedSelectorsAreRefused : Obligations.ReservedSelectorsAreRefused := fun _ => ⟨rfl, rfl, rfl⟩

theorem sendFraming_out_of_position (hr : s.readyOpen) (hw : s.wire ≠ .control) (b : Byte) :
    sendFraming b s = .refused .wrongPosition := by
  rw [sendFraming, whenOpen_of_readyOpen hr, if_neg hw]

theorem sendCommand_out_of_position (hr : s.readyOpen) (hw : s.wire.isCommand = false) (bs : List Byte) :
    sendCommand bs s = .refused .wrongPosition := by
  rw [sendCommand, whenOpen_of_readyOpen hr, hw, if_neg (by decide)]

/-- Settles O12: every item is a framing byte or a command, and each looks at its position. -/
theorem itemsOutOfPositionAreRefused : Obligations.ItemsOutOfPositionAreRefused := by
  refine ⟨fun s hr hw => ?_, fun s v w f hr hw => ?_⟩
  · have hframing := sendFraming_out_of_position hr hw
    exact ⟨hframing _, hframing _⟩
  · have hcommand := sendCommand_out_of_position hr hw
    exact ⟨hcommand _, hcommand _, hcommand _, hcommand _, hcommand _, hcommand _, hcommand _, hcommand _, hcommand _,
      hcommand _, hcommand _, hcommand _, hcommand _, hcommand _, hcommand _, fun _ => hcommand _, fun _ => hcommand _,
      fun _ => hcommand _⟩

/-! ### SETPAGEWINDOW (41_protocol.md R166) -/

/-- Settles O27: one transaction, sent whole, whose payload is `windowPayload_eq`. -/
theorem setPageWindowSendsItsCommands : Obligations.SetPageWindowSendsItsCommands := by
  intro s page column h
  obtain ⟨t, ht, hsends, hsame, hidle, -⟩ := txn_sends h (cmdPayload (windowCommands page column))
  have he : exec (.setPageWindow page column) s = answerStatus (t, .status .ok) := by
    rw [← ht]
    exact whenIdle_of_ready h.1
  rw [← windowPayload_eq]
  exact ⟨_, he, rfl, hidle, hsame, sends_congr hsends rfl rfl rfl⟩

/-! ### The address item (30_encoding.md R94) -/

theorem addressByte_eq (sub : BitVec 1) : addressByte sub = if sub = 1 then 0x7A else 0x78 := by revert sub; decide

theorem exec_addrByte_of_flows (hr : s.ready) (hf : s.flows) (sub : BitVec 1) :
    exec (.addrByte sub) s = .next (afterItem [addressByte sub] (afterStart s)) := by
  show whenIdle s (answerByte (startOp (addressByte sub) s)) = _
  rw [whenIdle_of_ready hr, startOp_of_flows _ hf]
  rfl

theorem afterItem_byte_byteTrace (b : Byte) (s : State) :
    (afterItem [b] s).byteTrace = s.byteTrace ++ [.byte b (s.peerPulls b)] := List.reverse_cons

theorem afterStart_byteTrace (s : State) : (afterStart s).byteTrace = s.byteTrace ++ [.start] := List.reverse_cons

/-- Settles O49: the start condition, then the address byte as an item. -/
theorem addressItemOpensTheTransaction : Obligations.AddressItemOpensTheTransaction := by
  intro s sub hr hf
  rw [← addressByte_eq]
  refine ⟨_, _, exec_addrByte_of_flows hr hf sub, rfl, rfl, afterItem_byte_readyOpen _ hr.1, rfl, ?_, ?_,
    rfl, rfl, rfl, rfl, rfl⟩
  · rw [afterItem_byte_lineTrace, afterStart_lineTrace]; rfl
  · rw [afterItem_byte_byteTrace, afterStart_byteTrace, List.append_assoc]; rfl

/-! ### Framing and command items (30_encoding.md R95 to R100) -/

/-- Settles O50: each framing byte as an item, and the position it leads to. -/
theorem framingItemsDecideTheRest : Obligations.FramingItemsDecideTheRest := by
  intro s hr hf hw
  constructor
  · exact itemSends_of_next hr (by rw [hw]; rfl) (sendFraming_of_flows hr hf hw 0x00)
  · exact itemSends_of_next hr (by rw [hw]; rfl) (sendFraming_of_flows hr hf hw 0x40)

section
variable (hr : s.readyOpen) (hf : s.flows) (hw : s.wire.isCommand = true)
include hr hf hw

/-- A one-byte command in command position. -/
theorem itemSends_command0 (hi : exec i s = sendCommand [b] s) (hrow : commandRow b = some row)
    (ho : row.operands = 0) : ItemSends i s [b] (.command (row.kind = .columnUpper)) :=
  itemSends_of_next hr (after_command0 hw hrow ho) (hi.trans (sendCommand_of_flows hr hf hw _))

/-- A command with one operand in command position. -/
theorem itemSends_command1 (hi : exec i s = sendCommand [b, v] s) (hrow : commandRow b = some row)
    (ho : row.operands = 1) : ItemSends i s [b, v] (.command false) :=
  itemSends_of_next hr (after_command1 hw hrow ho) (hi.trans (sendCommand_of_flows hr hf hw _))

/-- A command with two operands in command position. -/
theorem itemSends_command2 (hi : exec i s = sendCommand [b, v, w] s) (hrow : commandRow b = some row)
    (ho : row.operands = 2) : ItemSends i s [b, v, w] (.command false) :=
  itemSends_of_next hr (after_command2 hw hrow ho) (hi.trans (sendCommand_of_flows hr hf hw _))

end

theorem entireDisplayOnByte_eq (f : BitVec 1) : entireDisplayOnByte f = if f = 1 then 0xA5 else 0xA4 := by
  revert f; decide

theorem normalInvertedByte_eq (f : BitVec 1) : normalInvertedByte f = if f = 1 then 0xA7 else 0xA6 := by
  revert f; decide

/-- Settles O51: each command is its row of the table, without operands. -/
theorem oneByteCommandItems : Obligations.OneByteCommandItems := by
  intro s f page hi lo hr hf hw
  rw [← segmentRemapByte_eq, ← comScanDirByte_eq, ← entireDisplayOnByte_eq, ← normalInvertedByte_eq,
    ← displayOnOffByte_eq]
  refine ⟨?_, ?_, ?_, ?_, ?_, ?_, ?_, ?_, ?_⟩
  · exact itemSends_command0 hr hf hw rfl (row := ⟨.startLine, 0x40, 0xFF, 0⟩) rfl rfl
  · exact itemSends_command0 hr hf hw rfl (commandRow_segmentRemap f) rfl
  · exact itemSends_command0 hr hf hw rfl (commandRow_comScanDir f) rfl
  · exact itemSends_command0 hr hf hw rfl (commandRow_entireDisplayOn f) rfl
  · exact itemSends_command0 hr hf hw rfl (commandRow_normalInverted f) rfl
  · exact itemSends_command0 hr hf hw rfl (commandRow_displayOnOff f) rfl
  · exact itemSends_command0 hr hf hw rfl (commandRow_pageStart page) rfl
  · exact itemSends_command0 hr hf hw rfl (commandRow_columnUpper hi) rfl
  · exact itemSends_command0 hr hf hw rfl (commandRow_columnLower lo) rfl

/-- Settles O52: each command is its row of the table, with as many operands as that row says. -/
theorem commandItemsWithOperands : Obligations.CommandItemsWithOperands := by
  intro s v w hr hf hw
  refine ⟨?_, ?_, ?_, ?_, ?_, ?_, ?_, ?_, ?_⟩
  · exact itemSends_command1 hr hf hw rfl (row := ⟨.muxRatio, 0xA8, 0xFF, 1⟩) rfl rfl
  · exact itemSends_command1 hr hf hw rfl (row := ⟨.displayOffset, 0xD3, 0xFF, 1⟩) rfl rfl
  · exact itemSends_command1 hr hf hw rfl (row := ⟨.comPins, 0xDA, 0xFF, 1⟩) rfl rfl
  · exact itemSends_command1 hr hf hw rfl (row := ⟨.contrast, 0x81, 0xFF, 1⟩) rfl rfl
  · exact itemSends_command1 hr hf hw rfl (row := ⟨.oscFreq, 0xD5, 0xFF, 1⟩) rfl rfl
  · exact itemSends_command1 hr hf hw rfl (row := ⟨.chargePump, 0x8D, 0xFF, 1⟩) rfl rfl
  · exact itemSends_command1 hr hf hw rfl (row := ⟨.addressingMode, 0x20, 0xFF, 1⟩) rfl rfl
  · exact itemSends_command2 hr hf hw rfl (row := ⟨.columnRange, 0x21, 0xFF, 2⟩) rfl rfl
  · exact itemSends_command2 hr hf hw rfl (row := ⟨.pageRange, 0x22, 0xFF, 2⟩) rfl rfl

end Sys2Proof.Machine
end

section
/-! PROOFS. What each request to the bus may be in which phase, what BUSCFG, START, SENDBYTE and STOP do where they are
accepted, and where Protocol and Animation operations leave the bus (40_bus.md R135 to R145; 41_protocol.md R160, R168;
60_exceptions.md R245, R252). -/

namespace Sys2Proof.Machine

variable {s t : State} {i : Instr} {a : Byte} {src : List Byte} {ps : List (List Byte)}

/-! ### Where an operation leaves the bus (40_bus.md R143, 60_exceptions.md R245) -/

theorem answerOp_lines (i : Instr) (s u : State) (st : Status) (v : State)
    (h : answerOp i s (u, .status st) = .next v) :
    v.hung = u.hung ∧ v.sclPull = u.sclPull ∧ v.sdaPull = u.sdaPull ∧ v.wire = u.wire := by
  simp only [answerOp, Host.Outcome.next.injEq] at h
  subst h
  exact ⟨rfl, rfl, rfl, rfl⟩

/-- An operation that was sent as its row of transactions ends where the last of them does. -/
theorem operation_idle_or_hang (hr : s.ready) (hp : opPayloads s.params i = some ps) (h : exec i s = .next t) :
    (t.hung = false ∧ t.isIdle = true ∧ t.wire = .idle) ∨ (t.hung = true ∧ t.result = .none ∧ t.sclPull = false) := by
  rw [exec_operation hr hp] at h
  have hends := txns_endsWell (opChecks s.params.ackPolicy i) (opPayloads_ne_nil hp) s
  obtain ⟨-, -, -, -, hfree⟩ := txns_sameHost (opChecks s.params.ackPolicy i) ps s
  rcases answer_idle_or_hang hends (hfree.trans hr.1) (answerOp_lines i s) (fun _ => rfl) h with
    ⟨hh, hscl, hsda, hw⟩ | ⟨hh, hres, hscl, -⟩
  · exact .inl ⟨hh, by rw [State.isIdle, hscl, hsda]; rfl, hw⟩
  · exact .inr ⟨hh, hres, hscl⟩

/-- An operation that answers had legal operands. -/
theorem legal_of_next {problem : Option Refusal} {x : Answer} (h : whenIdle s (whenLegal problem x) = .next t) :
    problem = none := (whenLegal_next (whenIdle_next h).2).1

/-- Settles O32: each operation that answers had legal operands, so it is a row of transactions. -/
theorem operationsEndIdleOrHang : Obligations.OperationsEndIdleOrHang := by
  intro i s t hr h hi
  rcases hi with rfl | ⟨page, column, rfl⟩ | ⟨src, rfl⟩ | rfl | ⟨level, rfl⟩ | ⟨x, y, width, msg, offset, speed, rfl⟩ |
    ⟨x, y, width, msg, offset, rfl⟩ | ⟨x, y, msg, phase, rfl⟩
  · exact operation_idle_or_hang hr rfl h
  · exact operation_idle_or_hang hr rfl h
  · exact operation_idle_or_hang (i := .writeBytes src) hr (if_pos (writeProblem_none.mp (legal_of_next (s := s) h))) h
  · exact operation_idle_or_hang hr rfl h
  · exact operation_idle_or_hang hr rfl h
  · exact operation_idle_or_hang (i := .marquee x y width msg offset speed) hr (if_pos (legal_of_next (s := s) h)) h
  · exact operation_idle_or_hang (i := .bungee x y width msg offset) hr (if_pos (legal_of_next (s := s) h)) h
  · exact operation_idle_or_hang (i := .wobble x y msg phase) hr (if_pos (legal_of_next (s := s) h)) h

/-! ### What a transaction costs (40_bus.md R145) -/

/-- Line events, samples, clock pulses and releases of the clock of a transaction: those of its byte frames, and one
release more for STOP, which no pull follows. -/
theorem txnFrame_counts (sent : List (Byte × Bool)) :
    (txnFrame sent).length = 4 + 37 * sent.length + 5 ∧ samples (txnFrame sent) = sent.length ∧
    clockPulses (txnFrame sent) = 9 * sent.length ∧ (txnFrame sent).count (.scl true) = 9 * sent.length + 1 := by
  obtain ⟨hlength, hsamples, hcount⟩ := byteFrames_counts sent
  refine ⟨?_, ?_, ?_, ?_⟩
  · rw [txnFrame, List.length_append, List.length_append, hlength]; rfl
  · rw [samples] at hsamples ⊢
    rw [txnFrame, List.countP_append, List.countP_append, hsamples]
    simp [startFrame, stopFrame]
  · rw [txnFrame, List.append_assoc]
    exact clockPulses_byteFrames sent stopFrame
  · rw [txnFrame, List.count_append, List.count_append, hcount]
    simp [startFrame, stopFrame]

theorem sentTxn_length (payload : List Byte) (s : State) : (sentTxn payload s).length = payload.length + 1 := by
  rw [← List.length_map Prod.fst, sentTxn, sentBytes_fst, List.length_cons]

/-- WRITEBYTES, sent whole. -/
theorem exec_writeBytes_of_unhindered (h : s.unhindered) (hl : src.length < 65536) :
    exec (.writeBytes src) s = .next { afterTxn (dataPayload src) s with result := .status .ok } := by
  show whenIdle s (whenLegal (writeProblem src) (answerStatus (dataTxn .otherOp src s))) = _
  rw [whenIdle_of_ready h.1, writeProblem_none.mpr hl, dataTxn_of_unhindered h]
  rfl

/-- Settles O31: the counts of one transaction, whose bytes are the address, the framing byte and the data. -/
theorem writeBytesCounts : Obligations.WriteBytesCounts := by
  intro s src h hl
  have hn : (sentTxn (dataPayload src) s).length = src.length + 2 := sentTxn_length _ s
  obtain ⟨hlength, hsamples, hpulses, hcount⟩ := txnFrame_counts (sentTxn (dataPayload src) s)
  rw [hn] at hlength hsamples hpulses hcount
  refine ⟨_, (sentTxn (dataPayload src) s).flatMap fun x => byteFrame x.1 x.2, exec_writeBytes_of_unhindered h hl, ?_,
    ?_⟩
  · show (afterTxn (dataPayload src) s).line.reverse = _
    rw [afterTxn_line, List.reverse_append, List.reverse_reverse, txnFrame, ← List.append_assoc, ← List.append_assoc]
    rfl
  · exact ⟨hlength, hsamples, hpulses, hcount, dataOnlyWhileClockLow_byteFrames _⟩

/-! ### The Bus operations where they are accepted (40_bus.md R135, R137, R139, R141) -/

/-- Settles O14: the start condition, then the address byte as an item. -/
theorem startSendsConditionAndAddress : Obligations.StartSendsConditionAndAddress := by
  intro s a hr hf ha
  refine ⟨_, (afterStart s).peerPulls a, exec_start_of_flows hr hf ha, rfl, rfl, rfl, rfl, ?_, ?_,
    rfl, rfl, rfl, rfl, rfl, rfl⟩
  · rw [afterItem_byte_lineTrace, afterStart_lineTrace]
  · rw [afterItem_byte_byteTrace, afterStart_byteTrace, List.append_assoc]; rfl

/-- Settles O15: SENDBYTE is its byte as an item, wherever the wire stands. -/
theorem sendByteSendsItsFrame : Obligations.SendByteSendsItsFrame := by
  intro s b hr hf
  exact ⟨_, s.peerPulls b, exec_sendByte_of_flows hr hf, rfl, rfl, rfl, rfl, afterItem_byte_lineTrace b s,
    afterItem_byte_byteTrace b s, rfl, rfl, rfl, rfl, rfl, rfl⟩

/-- Settles O16: STOP is the stop condition, without a premise on the environment. -/
theorem stopSendsConditionAndIdles : Obligations.StopSendsConditionAndIdles := by
  intro s hr
  exact ⟨_, exec_stop_of_readyOpen hr, rfl, rfl, rfl, afterStop_lineTrace s, List.reverse_cons, rfl, rfl,
    rfl, rfl, rfl, rfl, rfl⟩

/-- Settles O13: accepted only when Idle. -/
theorem busCfgReleasesBothLines : Obligations.BusCfgReleasesBothLines :=
  ⟨fun _ hr => whenIdle_of_ready hr, fun _ hr => whenIdle_of_readyOpen hr⟩

/-! ### Requests in the wrong phase (40_bus.md R135, R138, R140, R142; 30_encoding.md R117) -/

theorem exec_start_readBit (hr : s.ready) (ha : a.getLsbD 0 = true) : exec (.start a) s = .refused .readBit := by
  show whenIdle s (if readBitSet a then _ else _) = _
  rw [whenIdle_of_ready hr, readBitSet, if_pos ha]

/-- Settles O10: SENDBYTE, STOP and the items are guarded by Open, all others by Idle, before any operand is looked at. -/
theorem wrongPhaseIsRefused : Obligations.WrongPhaseIsRefused := by
  refine ⟨fun s b hr => whenOpen_of_ready hr, fun s a hr ha => exec_start_readBit hr ha, fun s hr => ?_,
    fun s v w f hr => ?_, fun s hr => ?_⟩
  · have hopen (x : Answer) : whenOpen s x = .refused .notOpen := whenOpen_of_ready hr
    exact ⟨hopen _, hopen _, hopen _⟩
  · have hcommand (bs : List Byte) : sendCommand bs s = .refused .notOpen := whenOpen_of_ready hr
    exact ⟨hcommand _, hcommand _, hcommand _, hcommand _, hcommand _, hcommand _, hcommand _, hcommand _, hcommand _,
      hcommand _, hcommand _, hcommand _, hcommand _, hcommand _, hcommand _, fun _ => hcommand _, fun _ => hcommand _,
      fun _ => hcommand _⟩
  · have hidle (x : Answer) : whenIdle s x = .refused .notIdle := whenIdle_of_readyOpen hr
    exact ⟨hidle _, fun _ => hidle _, fun _ => hidle _, hidle _, fun _ _ => hidle _, fun _ => hidle _, hidle _,
      fun _ => hidle _, fun _ _ _ _ _ _ => hidle _, fun _ _ _ _ _ => hidle _, fun _ _ _ _ => hidle _⟩

end Sys2Proof.Machine
end

section
/-! PROOFS. What INIT, WRITEBYTES, CLEAR and SETCONTRAST send, where an operation whose acknowledges are checked stops, and
what CLEAR does to the display of a hearing peer (41_protocol.md R160 to R172; 60_exceptions.md R243). -/

namespace Sys2Proof.Machine

variable {s t u : State} {i : Instr} {d : Display} {p : List Byte} {ps : List (List Byte)}

/-! ### Operations whose acknowledges are checked (41_protocol.md R160 to R162, 60_exceptions.md R243) -/

/-- How an operation ends whose row of transactions ends with a status. -/
theorem operation_endsWith {st : Status} (hr : s.ready) (hp : opPayloads s.params i = some ps)
    (h : txns (opChecks s.params.ackPolicy i) ps s = (u, .status st)) :
    ∃ t, exec i s = .next t ∧ EndsWith i s t st ∧ t.line = u.line ∧ t.bytes = u.bytes := by
  have hh := txns_sameHost (opChecks s.params.ackPolicy i) ps s
  have hw := txns_endsWell (opChecks s.params.ackPolicy i) (opPayloads_ne_nil hp) s
  rw [h] at hh hw
  obtain ⟨t, ht, hend, hline, hbytes, -⟩ := answerOp_endsWith (i := i) hr hh hw
  exact ⟨t, by rw [exec_operation hr hp, h, ht], hend, hline, hbytes⟩

theorem lineTrace_of_line {es : List LineEvent} (h : t.line = es.reverse ++ s.line) :
    t.lineTrace = s.lineTrace ++ es := by
  rw [State.lineTrace, h, List.reverse_append, List.reverse_reverse]; rfl

theorem byteTrace_of_bytes {es : List ByteEvent} (h : t.bytes = es.reverse ++ s.bytes) :
    t.byteTrace = s.byteTrace ++ es := by
  rw [State.byteTrace, h, List.reverse_append, List.reverse_reverse]; rfl

/-- Whatever the peer answers: sent whole with every byte acknowledged, or up to the first byte that is not. -/
theorem operation_checked (hr : s.ready) (hf : s.flows) (hc : opChecks s.params.ackPolicy i = true)
    (hp : opPayloads s.params i = some ps) :
    ∃ t sent, exec i s = .next t ∧ t.lineTrace = s.lineTrace ++ sent.flatMap txnFrame ∧
      t.byteTrace = s.byteTrace ++ sent.flatMap txnBytes ∧
      ((EndsWith i s t .ok ∧ sent.map (List.map Prod.fst) = ps.map (s.params.devAddr :: ·) ∧
          ∀ x ∈ sent.flatten, x.2 = true) ∨
        (EndsWith i s t .nack ∧ StopsAtNack s.params.devAddr ps sent)) := by
  obtain ⟨u, sent, -, hline, hbytes, ⟨htxns, hwhole⟩ | ⟨htxns, hstop⟩⟩ := txns_checked ps hf
  · obtain ⟨t, ht, hend, hl, hb⟩ := operation_endsWith hr hp (hc ▸ htxns)
    exact ⟨t, sent, ht, lineTrace_of_line (hl.trans hline), byteTrace_of_bytes (hb.trans hbytes), .inl ⟨hend, hwhole⟩⟩
  · obtain ⟨t, ht, hend, hl, hb⟩ := operation_endsWith hr hp (hc ▸ htxns)
    exact ⟨t, sent, ht, lineTrace_of_line (hl.trans hline), byteTrace_of_bytes (hb.trans hbytes), .inr ⟨hend, hstop⟩⟩

/-- To a peer without power: the address byte and STOP. -/
theorem operation_unanswered (hr : s.ready) (hb : s.params.stretchLimit ≠ .bounded 0)
    (hc : opChecks s.params.ackPolicy i = true) (hp : opPayloads s.params i = some ps)
    (hs : (afterStart s).silent) :
    ∃ t, exec i s = .next t ∧ EndsWith i s t .nack ∧
      t.lineTrace = s.lineTrace ++ txnFrame [(s.params.devAddr, false)] ∧
      t.byteTrace = s.byteTrace ++ [.start, .byte s.params.devAddr false, .stop] := by
  obtain ⟨q, qs, rfl⟩ := List.exists_cons_of_ne_nil (opPayloads_ne_nil hp)
  obtain ⟨t, ht, hend, hl, hbt⟩ := operation_endsWith hr hp (hc ▸ txns_unanswered q hb hs)
  have hsent : sentTxn [] s = [(s.params.devAddr, false)] := (silent_afterTxn hs []).1
  refine ⟨t, ht, hend, lineTrace_of_line (hl.trans ?_), byteTrace_of_bytes (hbt.trans ?_)⟩
  · rw [← hsent]; exact afterTxn_line [] s
  · exact (afterTxn_bytes [] s).trans (by rw [hsent]; rfl)

/-- Settles O33: rows of checked transactions, with any answers, with the first missing one listed, and without power. -/
theorem policyAllStopsAtTheFirstNack : Obligations.PolicyAllStopsAtTheFirstNack := by
  have checked {i : Instr} {s : State} (hall : s.params.ackPolicy = .all) : opChecks s.params.ackPolicy i = true := by
    rw [hall]; rfl
  refine ⟨fun i s ps hr hf hall hp => operation_checked hr hf (checked hall) hp,
    fun i s ps whole payload after begun b rest hr hf hpw hall hp hps hb hacked hmissing => ?_,
    fun i s ps hr hlimit hall hp hoff hnone => operation_unanswered hr hlimit (checked hall) hp (silent_of hoff hnone)⟩
  obtain ⟨u, htxns, -, hline, hbytes⟩ := txns_nack whole payload after begun b rest hb hf hpw hacked hmissing
  rw [← hps] at htxns
  obtain ⟨t, ht, hend, hl, hbt⟩ := operation_endsWith (i := i) hr hp (checked hall ▸ htxns)
  exact ⟨t, _, ht, hend, rfl, lineTrace_of_line (hl.trans hline), byteTrace_of_bytes (hbt.trans hbytes)⟩

/-! ### INIT (41_protocol.md R163 to R165) -/

theorem initCommands_payload (p : Params) : cmdPayload (initCommands p) = initPayload p.flipSeg p.flipCom := by
  rw [initCommands, segmentRemapByte_ofBool, comScanDirByte_ofBool]; rfl

/-- INIT, sent whole. -/
theorem init_sends (hr : s.ready)
    (h : ∀ p, txn (checks s.params.ackPolicy .initOp) p s = (afterTxn p s, .status .ok)) :
    ∃ t, exec .init s = .next t ∧ t.result = .acked true ∧ t.isIdle = true ∧ s.sameHost t ∧
      Sends s t [initPayload s.params.flipSeg s.params.flipCom] ∧
      t.bytes = (afterTxn (initPayload s.params.flipSeg s.params.flipCom) s).bytes := by
  have he : exec .init s =
      .next { afterTxn (initPayload s.params.flipSeg s.params.flipCom) s with result := .acked true } := by
    rw [← initCommands_payload]
    show whenIdle s (answerInit (txn (checks s.params.ackPolicy .initOp) _ s)) = _
    rw [whenIdle_of_ready hr, h]; rfl
  generalize initPayload s.params.flipSeg s.params.flipCom = q at he ⊢
  exact ⟨_, he, rfl, rfl, (afterTxn_frame _ s).1, sends_congr (sends_afterTxn _ s) rfl rfl rfl, rfl⟩

/-- Settles O25: an answering peer acknowledges every byte, checked or not. -/
theorem initSendsTheFixedSequence : Obligations.InitSendsTheFixedSequence := by
  intro s hr hf ha
  obtain ⟨t, ht, hres, hidle, hsame, hsends, hbytes⟩ := init_sends hr fun p => txn_hearing _ p hf ha.1 ha.2
  refine ⟨t, ht, hres, hidle, hsame, hsends, ?_⟩
  rw [← sentTxn_acked ha.1 ha.2]
  exact byteTrace_of_bytes (hbytes.trans (afterTxn_bytes _ s))

theorem opChecks_init {policy : AckPolicy} (h : policy ≠ .off) : opChecks policy .init = true := by
  cases policy with
  | all => rfl
  | initOnly => rfl
  | off => exact absurd rfl h

/-- An operation of one transaction stops inside that one. -/
theorem stopsAtNack_one {devAddr : Byte} {sent : List (List (Byte × Bool))} (h : StopsAtNack devAddr [p] sent) :
    ∃ pre b, sent = [pre ++ [(b, false)]] ∧ (∀ x ∈ pre, x.2 = true) ∧
      (pre ++ [(b, false)]).map Prod.fst <+: devAddr :: p := by
  obtain ⟨whole, payload, after, done, pre, b, hps, hsent, hdone, -, hacked, hbegins⟩ := h
  have hlen := congrArg List.length hps
  have hlen' := congrArg List.length hdone
  simp only [List.length_cons, List.length_nil, List.length_append, List.length_map] at hlen hlen'
  obtain rfl : whole = [] := List.length_eq_zero_iff.mp (by omega)
  obtain rfl : done = [] := List.length_eq_zero_iff.mp hlen'
  obtain ⟨rfl, -⟩ := List.cons.inj hps
  exact ⟨pre, b, hsent, hacked, hbegins⟩

/-- INIT leaves the animation state alone, whatever its status. -/
theorem init_sameHost {st : Status} (hr : s.ready) (h : EndsWith .init s t st) : s.sameHost t := by
  obtain ⟨-, hoffset, hphase, -, -, hhung, hparams, hrequests⟩ := h
  exact ⟨hparams, hrequests, hoffset, hphase, hhung.trans hr.1.symm⟩

/-- Settles O26: the checked operation of one transaction, with any answers and without power; and unchecked. -/
theorem initOnAMissingAcknowledge : Obligations.InitOnAMissingAcknowledge := by
  refine ⟨fun s hr hf hchk => ?_, fun s hr hlimit hoff hnone hchk => ?_, fun s hr hf hunchk => ?_⟩
  · obtain ⟨t, sent, ht, hline, hbytes, hends⟩ := operation_checked (i := .init) hr hf (opChecks_init hchk) rfl
    rw [initCommands_payload] at hends
    rcases hends with ⟨hend, hsent, hacked⟩ | ⟨hend, hstop⟩
    · obtain ⟨one, rfl, hone⟩ := List.map_eq_singleton_iff.mp hsent
      have hsame := init_sameHost hr hend
      obtain ⟨hres, -, -, hidle, -⟩ := hend
      exact ⟨t, one, ht, hidle, hsame, by simpa using hline, by simpa using hbytes,
        .inl ⟨hres, by simpa using hacked, hone⟩⟩
    · obtain ⟨pre, b, rfl, hacked, hbegins⟩ := stopsAtNack_one hstop
      have hsame := init_sameHost hr hend
      obtain ⟨hres, -, -, hidle, -⟩ := hend
      exact ⟨t, pre ++ [(b, false)], ht, hidle, hsame, by simpa using hline, by simpa using hbytes,
        .inr ⟨hres, ⟨pre, b, rfl, hacked⟩, hbegins⟩⟩
  · obtain ⟨t, ht, ⟨hres, -⟩, htraces⟩ :=
      operation_unanswered (i := .init) hr hlimit (opChecks_init hchk) rfl (silent_of hoff hnone)
    exact ⟨t, ht, hres, htraces⟩
  · obtain ⟨t, ht, hres, hidle, hsame, hsends, -⟩ := init_sends hr fun p => by
      rw [hunchk]; exact txn_unchecked p hf
    exact ⟨t, ht, hres, hidle, hsame, hsends⟩

/-! ### Operations that answer with a status, sent whole (R168, R170, R172) -/

/-- Requested where it may be, with its transactions sent whole. -/
theorem answerStatus_sends {r : State × OpEnd} (h : s.ready)
    (hr : ∃ u, r = (u, .status .ok) ∧ Sends s u ps ∧ s.sameHost u ∧ u.isIdle = true ∧ u.unhindered) :
    ∃ t, whenIdle s (answerStatus r) = .next t ∧ t.result = .status .ok ∧ t.isIdle = true ∧ s.sameHost t ∧
      Sends s t ps := by
  obtain ⟨u, rfl, hsends, hsame, hidle, -⟩ := hr
  exact ⟨_, whenIdle_of_ready h, rfl, hidle, hsame, sends_congr hsends rfl rfl rfl⟩

/-- Settles O28: one transaction, its count legal. -/
theorem writeBytesStreamsItsBytes : Obligations.WriteBytesStreamsItsBytes := by
  intro s src h hl
  show ∃ t, whenIdle s (whenLegal (writeProblem src) (answerStatus (writeOp src s))) = .next t ∧ _
  rw [writeProblem_none.mpr hl]
  exact answerStatus_sends h.1 (txn_sends h (dataPayload src))

/-- Settles O29: two transactions. -/
theorem clearSendsWindowAndZeros : Obligations.ClearSendsWindowAndZeros := by
  intro s h
  exact answerStatus_sends h.1 (clearOp_sends h)

/-- Settles O30: one transaction. -/
theorem setContrastSendsItsCommand : Obligations.SetContrastSendsItsCommand := by
  intro s level h
  exact answerStatus_sends h.1 (txn_sends h (cmdPayload [0x81, level]))

/-! ### CLEAR at a hearing peer (R170, R171) -/

/-- CLEAR's data fill its window, begun at its first byte: pages 0 to 3, after which no pointer is known. -/
theorem run_clearData (hm : d.mode = some .rangeMode) (h0 : d.c0 = some 0) (h1 : d.c1 = some 127)
    (hg : d.g1 = some 3) (hp : d.page = some 0) (hc : d.col = some 0) :
    ∃ d', Display.run .control (dataPayload clearData) d = some d' ∧ d.stores d' 0 clearData ∧
      d' = { d with ram := d'.ram, page := none, col := none } := by
  have hfull : dispAddr 0 0 + clearData.length = 128 * ((3 : BitVec 3).toNat + 1) := by rw [clearData_length]; rfl
  obtain ⟨d', hrun, hstores, page, col, hd', hend⟩ :=
    run_data_range clearData d 0 0 hm h0 h1 hg hp hc (by decide) hfull.le
  obtain ⟨rfl, rfl⟩ := hend hfull
  exact ⟨d', (run_dataPayload clearData d).trans hrun, hstores, hd'⟩

/-- Settles O36: the window's payload points the peer at its first byte, and the zeros run through the window. -/
theorem clearBlanksTheActivePages : Obligations.ClearBlanksTheActivePages := by
  intro s hr hf hh
  have he : exec .clear s = whenIdle s (answerStatus (clearOp s)) := rfl
  rw [he, whenIdle_of_ready hr, clearOp_of_unhindered (unhindered_of_hearing hr hf hh)]
  obtain ⟨hpeer, hhear⟩ := afterTxn_run hh (run_clearCommands s.peer.disp)
  generalize afterTxn (cmdPayload clearCommands) s = m at hpeer hhear ⊢
  obtain ⟨d', hrun, hstores, hd'⟩ := run_clearData (d := m.peer.disp) (by rw [hpeer]) (by rw [hpeer]) (by rw [hpeer])
    (by rw [hpeer]) (by rw [hpeer]) (by rw [hpeer])
  obtain ⟨hpeer', hhear'⟩ := afterTxn_run hhear hrun
  generalize afterTxn (dataPayload clearData) m = u at hpeer' hhear' ⊢
  obtain rfl : u.peer.disp = d' := congrArg Peer.disp hpeer'
  exact ⟨_, rfl, hhear', stores_congr hstores (by rw [hpeer]) rfl rfl, hd'.trans (by rw [hpeer])⟩

end Sys2Proof.Machine
end

section
/-! PROOFS. What GLYPHFOR returns (42_glyph.md R190, R191). -/

namespace Sys2Proof.Machine

/-- GLYPHFOR's guard asks only that no other operation is running, not for a bus phase. -/
theorem exec_glyphFor_of_free {s : State} (code : Byte) (h : s.hung = false) :
    exec (.glyphFor code) s = .next { s with result := .glyph (glyphBitmap s.params code) } :=
  whenFree_of_free h

/-- The printable codes are 32 to 126, and their glyphs lie in the order of the codes. -/
theorem glyphIndex_eq (p : Params) (code : Byte) :
    glyphIndex p code = if 32 ≤ code.toNat ∧ code.toNat < 127 then code.toNat - 32 else p.fallbackIndex := rfl

/-- A glyph's eight columns stand one after the other in the font. -/
theorem glyphBitmap_eq (p : Params) (code : Byte) :
    glyphBitmap p code = (List.range 8).map fun j => fontAt p (8 * glyphIndex p code + j) := rfl

/-- Settles O38: the answer of an operation without a bus precondition, its bitmap written out. -/
theorem glyphForReturnsTheBitmap : Obligations.GlyphForReturnsTheBitmap := by
  intro s code h
  rw [exec_glyphFor_of_free code h, glyphBitmap_eq, glyphIndex_eq]

end Sys2Proof.Machine
end

section
/-! PROOFS. What the renderers refuse, send and return, and what they store at a hearing peer (43_animation.md R201 to
R224; 20_memory.md R79). -/

namespace Sys2Proof.Machine

variable {s u : State} {x : BitVec 7} {y : BitVec 3} {width : Byte} {msg : List Byte} {offset : BitVec 16}
  {speed phase : Byte} {ps : List (List Byte)}

/-! ### Illegal operands (R204, R222) -/

theorem refused_of_illegal {problem : Option Refusal} (hr : s.ready) (h : problem ≠ none) (a : Answer) :
    ∃ r, whenIdle s (whenLegal problem a) = .refused r := by
  obtain ⟨r, rfl⟩ := Option.ne_none_iff_exists'.mp h
  exact ⟨r, whenIdle_of_ready hr⟩

/-- Settles O11: each listed operand falls outside what `marqueeProblem_none` and `wobbleProblem_none` call legal. -/
theorem renderersRefuseIllegalOperands : Obligations.RenderersRefuseIllegalOperands := by
  refine ⟨fun s x y width msg offset speed hr h => ?_, fun s x y msg phase hr h => ?_⟩
  · have hillegal : marqueeProblem x width msg offset ≠ none := fun hn => by
      have := marqueeProblem_none.mp hn
      omega
    exact ⟨refused_of_illegal hr hillegal _, refused_of_illegal hr hillegal _⟩
  · have hillegal : wobbleProblem x y msg ≠ none := fun hn => by
      obtain ⟨hlength, hroom, hpage⟩ := wobbleProblem_none.mp hn
      rcases h with h | h | h
      · omega
      · omega
      · exact hpage h
    exact refused_of_illegal hr hillegal _

/-! ### Legal operands: the composition the operation is -/

theorem answer_of_legal {problem : Option Refusal} {a : Answer} (hr : s.ready) (h : problem = none) :
    whenIdle s (whenLegal problem a) = a := by
  rw [whenIdle_of_ready hr, h]
  rfl

theorem exec_marquee_of_legal (hr : s.ready) (h : marqueeProblem x width msg offset = none) :
    exec (.marquee x y width msg offset speed) s = answerOffset offset (advance offset speed.toNat msg)
      (andThen (windowOp y x s) (writeOp (marqueeData s.params msg width.toNat offset.toNat))) :=
  answer_of_legal hr h

theorem exec_bungee_of_legal (hr : s.ready) (h : marqueeProblem x width msg offset = none) :
    exec (.bungee x y width msg offset) s = answerOffset offset (advance offset 1 msg)
      (andThen (windowOp y x s) (writeOp (bungeeData s.params msg width.toNat offset.toNat))) :=
  answer_of_legal hr h

theorem exec_wobble_of_legal (hr : s.ready) (h : wobbleProblem x y msg = none) :
    exec (.wobble x y msg phase) s = answerPhase phase (phase + 1)
      (andThen (andThen (andThen (windowOp y x s) (writeOp (wobbleUpper s.params msg phase)))
        (windowOp (y + 1) x)) (writeOp (wobbleLower s.params msg phase))) :=
  answer_of_legal hr h

/-! ### The advanced offset (R202) -/

theorem advanceNat_lt {off step len : Nat} (h : off < 8 * len) : advanceNat off step len < 8 * len := by
  simp only [advanceNat]
  split <;> omega

/-- A step of at most 8 passes the end of the message at most once, and by less than a message. -/
theorem advanceNat_eq_mod {off step len : Nat} (h : off < 8 * len) (hs : step ≤ 8) :
    advanceNat off step len = (off + step) % (8 * len) := by
  simp only [advanceNat]
  split
  · have hwrap : (off + step) % (8 * len) = off + step - 8 * len := by
      rw [Nat.mod_eq_sub_mod (by omega), Nat.mod_eq_of_lt (by omega)]
    omega
  · rw [Nat.mod_eq_of_lt (by omega)]

/-- Settles O45: the stored offset is the exact one, which is legal. -/
theorem advanceWraps : Obligations.AdvanceWraps := by
  intro off step msg h hl
  rw [advance_toNat h hl step.isLt]
  exact ⟨advanceNat_lt h, advanceNat_eq_mod h⟩

/-! ### What MARQUEE and BUNGEE send (R203, R210) -/

/-- An operation that returns an offset, its transactions sent whole: the advanced offset and status OK. -/
theorem answerOffset_sends {operand advanced : BitVec 16} {r : State × OpEnd} (h : s.ready)
    (hr : ∃ u, r = (u, .status .ok) ∧ Sends s u ps ∧ s.sameHost u ∧ u.isIdle = true ∧ u.unhindered) :
    ∃ t, answerOffset operand advanced r = .next t ∧ t.isIdle = true ∧ Sends s t ps ∧ t.offset = advanced ∧
      t.result = .offset advanced .ok ∧ t.params = s.params ∧ t.requests = s.requests ∧ t.phase = s.phase ∧
      t.hung = false := by
  obtain ⟨u, rfl, hsends, ⟨hparams, hrequests, -, hphase, hhung⟩, hidle, -⟩ := hr
  exact ⟨_, rfl, hidle, sends_congr hsends rfl rfl rfl, rfl, rfl, hparams, hrequests, hphase, hhung.trans h.1⟩

/-- MARQUEE's columns written out (R203). -/
theorem marqueePayload_eq (p : Params) (n : Nat) (h : offset.toNat < 8 * msg.length) :
    dataPayload (marqueeData p msg n offset.toNat) = 0x40 :: (List.range n).map fun k =>
      glyphByte p (msg.getD ((offset.toNat + k) % (8 * msg.length) / 8) 0)
        ((offset.toNat + k) % (8 * msg.length) % 8) := by
  rw [marqueeData_eq p (by omega) n offset.toNat h]
  rfl

/-- MARQUEE sends the payloads and returns the offset that its operands and the parameters give. -/
theorem marquee_sends (h : s.unhindered) (hp : marqueeProblem x width msg offset = none) :
    ∃ t, exec (.marquee x y width msg offset speed) s = .next t ∧ t.isIdle = true ∧
      Sends s t [cmdPayload (windowCommands y x), dataPayload (marqueeData s.params msg width.toNat offset.toNat)] ∧
      t.offset = advance offset speed.toNat msg ∧ t.result = .offset (advance offset speed.toNat msg) .ok ∧
      t.params = s.params ∧ t.requests = s.requests ∧ t.phase = s.phase ∧ t.hung = false := by
  rw [exec_marquee_of_legal h.1 hp]
  exact answerOffset_sends h.1 (window_write_sends h y x _)

/-- Settles O39: the pair of transactions sent whole, its columns in closed form. -/
theorem marqueeSendsTheScrolledColumns : Obligations.MarqueeSendsTheScrolledColumns := by
  intro s x y width msg offset speed h hw hx hl1 hl hoff
  obtain ⟨t, ht, hidle, hsends, hoffset, hresult, hrest⟩ :=
    marquee_sends (y := y) (speed := speed) h (marqueeProblem_none.mpr ⟨hw, hx, hl1, hl, hoff⟩)
  rw [windowPayload_eq, marqueePayload_eq s.params width.toNat hoff] at hsends
  refine ⟨t, ht, hidle, hsends, by rw [hresult, hoffset], ?_, hrest⟩
  rw [hoffset, advance_toNat hoff hl speed.isLt]
  rfl

/-- Settles O40: the pair of transactions sent whole, the data run after run. -/
theorem bungeeSendsItsRuns : Obligations.BungeeSendsItsRuns := by
  intro s x y width msg offset h hw hx hl1 hl hoff
  rw [exec_bungee_of_legal h.1 (marqueeProblem_none.mpr ⟨hw, hx, hl1, hl, hoff⟩)]
  obtain ⟨t, ht, hidle, hsends, hoffset, hresult, hrest⟩ := answerOffset_sends (operand := offset)
    (advanced := advance offset 1 msg) h.1 (window_write_sends h y x (bungeeData s.params msg width.toNat offset.toNat))
  rw [windowPayload_eq] at hsends
  refine ⟨t, bungeeData s.params msg width.toNat offset.toNat, ht, hidle,
    expandRuns_eq s.params hl1 (bungeeRuns width.toNat) offset.toNat hoff, bungeeData_length _ _ _ _, hsends,
    by rw [hresult, hoffset], ?_, hrest⟩
  rw [hoffset, advance_toNat hoff hl (by decide), advanceNat_eq_mod hoff (by decide)]

/-- Where no missing acknowledge is acted on, the peer's answers hinder nothing. -/
theorem unhindered_of_unchecked (hr : s.ready) (hf : s.flows) (h : s.params.ackPolicy ≠ .all) : s.unhindered :=
  ⟨hr, hf, .inl h⟩

/-- Settles O48: both blocks send the payloads and return the offset of the one set of parameters. -/
theorem marqueeIgnoresThePeersAnswers : Obligations.MarqueeIgnoresThePeersAnswers := by
  intro s u x y width msg offset speed hsr hsf hpolicy hur huf hparams hp
  obtain ⟨t, ht, -, hts, hto, htr, -⟩ :=
    marquee_sends (y := y) (speed := speed) (unhindered_of_unchecked hsr hsf hpolicy) hp
  obtain ⟨v, hv, -, hvs, hvo, hvr, -⟩ :=
    marquee_sends (y := y) (speed := speed) (unhindered_of_unchecked hur huf (hparams ▸ hpolicy)) hp
  rw [hparams] at hvs
  exact ⟨t, v, _, ht, hv, htr.trans hvr.symm, hto.trans hvo.symm, hts, hvs⟩

/-! ### BUNGEE's factors (R210 to R212) -/

/-- What a first run is, and what is left for the runs after it. -/
theorem bungeeRunsFrom_cons {mid fuel f rem g q : Nat} {rest : List (Nat × Nat)}
    (h : bungeeRunsFrom mid fuel f rem = (g, q) :: rest) :
    rem ≠ 0 ∧ g = f ∧ q = min f rem ∧ ∃ k, rest = bungeeRunsFrom mid k (nextFactor mid (rem - q) f) (rem - q) := by
  cases fuel with
  | zero => simp [bungeeRunsFrom] at h
  | succ k =>
    rw [bungeeRunsFrom] at h
    split at h
    · simp at h
    · obtain ⟨hrun, rfl⟩ := List.cons.inj h
      obtain ⟨rfl, rfl⟩ := Prod.mk.inj hrun
      exact ⟨‹_›, rfl, rfl, k, rfl⟩

/-- No factor falls below 1, every run fills at least one column and at most its factor. -/
theorem bungeeRunsFrom_bounds {mid fuel f rem : Nat} (hf : 1 ≤ f) :
    ∀ run ∈ bungeeRunsFrom mid fuel f rem, 1 ≤ run.1 ∧ 1 ≤ run.2 ∧ run.2 ≤ run.1 := by
  induction fuel generalizing f rem with
  | zero => simp [bungeeRunsFrom]
  | succ k ih =>
    rw [bungeeRunsFrom]
    split
    · simp
    · rintro run (_ | ⟨_, hrun⟩)
      · dsimp only; omega
      · exact ih (nextFactor_pos hf) run hrun

/-- Two runs in a row: the first is not cut, and the second's factor follows from the first's and from the columns still
to be filled. -/
theorem bungeeRunsFrom_pair {mid fuel f₀ rem f r g q : Nat} {pre post : List (Nat × Nat)}
    (h : bungeeRunsFrom mid fuel f₀ rem = pre ++ (f, r) :: (g, q) :: post) :
    r = f ∧ q = min g (rem - ((pre ++ [(f, r)]).map Prod.snd).sum) ∧
      g = nextFactor mid (rem - ((pre ++ [(f, r)]).map Prod.snd).sum) f := by
  induction pre generalizing fuel f₀ rem with
  | nil =>
    obtain ⟨-, rfl, hr, k, hrest⟩ := bungeeRunsFrom_cons h
    obtain ⟨hleft, hg, hq, -⟩ := bungeeRunsFrom_cons hrest.symm
    have hsum : (([] ++ [(f, r)]).map Prod.snd).sum = r := by simp
    rw [hsum]
    exact ⟨by omega, hg ▸ hq, hg⟩
  | cons run pre ih =>
    obtain ⟨f', r'⟩ := run
    obtain ⟨-, -, -, k, hrest⟩ := bungeeRunsFrom_cons h
    simpa [Nat.sub_sub] using ih hrest.symm

theorem nextFactor_rising {mid rem : Nat} (f : Nat) (h : mid < rem) : nextFactor mid rem f = f + 1 := if_pos h

theorem nextFactor_falling {mid rem f : Nat} (hf : 1 ≤ f) (h : rem ≤ mid) : nextFactor mid rem f = max 1 (f - 1) := by
  rw [nextFactor, if_neg (by omega)]
  split <;> omega

/-- Settles O41: the first run by unfolding once, the sum and the bounds by induction, the rest from a pair of runs. -/
theorem bungeeFactorsRiseThenFall : Obligations.BungeeFactorsRiseThenFall := by
  intro width hwidth
  have hbounds : ∀ run ∈ bungeeRuns width, 1 ≤ run.1 ∧ 1 ≤ run.2 ∧ run.2 ≤ run.1 := bungeeRunsFrom_bounds le_rfl
  refine ⟨?_, bungeeRunsFrom_sum _ _ _ _ le_rfl le_rfl, hbounds, fun pre f r g q post h => ?_⟩
  · obtain ⟨n, rfl⟩ : ∃ n, width = n + 2 := ⟨width - 2, by omega⟩
    simp [bungeeRuns, bungeeRunsFrom]
  · have hf : 1 ≤ f := (hbounds (f, r) (by simp [h])).1
    obtain ⟨hr, hq, hg⟩ := bungeeRunsFrom_pair h
    exact ⟨hr, hq, fun hrise => hg.trans (nextFactor_rising f hrise),
      fun hfall => hg.trans (nextFactor_falling hf hfall)⟩

/-! ### WOBBLE's pieces (R220, R221, R223) -/

theorem wobbleShift_le (p : Params) (phase : Byte) (n : Nat) : wobbleShift p phase n ≤ 8 := cosAt_le p _

/-- The two pieces are the low and the high byte of the column moved down (R221). -/
theorem upperByte_add_lowerByte (g : Byte) {sh : Nat} (h : sh ≤ 8) :
    (upperByte g sh).toNat + 256 * (lowerByte g sh).toNat = g.toNat * 2 ^ sh := by
  have hsplit : 256 = 2 ^ (8 - sh) * 2 ^ sh := by rw [← pow_add, Nat.sub_add_cancel h]; rfl
  have hupper : (upperByte g sh).toNat = g.toNat * 2 ^ sh % 256 := by
    rw [upperByte, BitVec.toNat_shiftLeft, Nat.shiftLeft_eq]
  have hlower : (lowerByte g sh).toNat = g.toNat * 2 ^ sh / 256 := by
    rw [lowerByte, BitVec.toNat_ushiftRight, Nat.shiftRight_eq_div_pow, hsplit,
      Nat.mul_div_mul_right _ _ (Nat.two_pow_pos sh)]
  rw [hupper, hlower, Nat.mod_add_div]

/-- Settles O43: every shift is at most 8, and up to 8 the pieces make up the column. -/
theorem wobblePiecesLoseNoPixel : Obligations.WobblePiecesLoseNoPixel := fun p phase g n =>
  ⟨wobbleShift_le p phase n, upperByte_add_lowerByte g (wobbleShift_le p phase n)⟩

theorem wobbleShift_congr {a b : Byte} (h : a.toNat % 64 = b.toNat % 64) (p : Params) :
    wobbleShift p a = wobbleShift p b := by
  funext n
  have hindex : (a.toNat + n) % 64 = (b.toNat + n) % 64 := Nat.ModEq.add_right n h
  rw [wobbleShift, wobbleShift, hindex]

/-- Settles O44: the phase enters both pages through the shifts alone. -/
theorem wobblePhaseCountsModulo64 : Obligations.WobblePhaseCountsModulo64 := by
  intro p msg a b h
  rw [wobbleUpper, wobbleUpper, wobbleLower, wobbleLower, wobbleShift_congr h]
  exact ⟨rfl, rfl⟩

/-- An operation that returns a phase, its transactions sent whole: the next phase and status OK. -/
theorem answerPhase_sends {operand advanced : Byte} {r : State × OpEnd} (h : s.ready)
    (hr : ∃ u, r = (u, .status .ok) ∧ Sends s u ps ∧ s.sameHost u ∧ u.isIdle = true ∧ u.unhindered) :
    ∃ t, answerPhase operand advanced r = .next t ∧ t.isIdle = true ∧ Sends s t ps ∧ t.phase = advanced ∧
      t.result = .phase advanced .ok ∧ t.params = s.params ∧ t.requests = s.requests ∧ t.offset = s.offset ∧
      t.hung = false := by
  obtain ⟨u, rfl, hsends, ⟨hparams, hrequests, hoffset, -, hhung⟩, hidle, -⟩ := hr
  exact ⟨_, rfl, hidle, sends_congr hsends rfl rfl rfl, rfl, rfl, hparams, hrequests, hoffset, hhung.trans h.1⟩

/-- Settles O42: the four transactions sent whole. -/
theorem wobbleSendsBothPages : Obligations.WobbleSendsBothPages := by
  intro s x y msg phase h hl hx hy
  rw [exec_wobble_of_legal h.1 (wobbleProblem_none.mpr ⟨hl, hx, hy⟩)]
  obtain ⟨t, ht, hidle, hsends, hphase, hresult, hrest⟩ :=
    answerPhase_sends (operand := phase) (advanced := phase + 1) h.1
      (wobble_sends h y (y + 1) x (wobbleUpper s.params msg phase) (wobbleLower s.params msg phase))
  rw [windowPayload_eq, windowPayload_eq] at hsends
  refine ⟨t, ht, hidle, hsends, by rw [hresult, hphase], ?_, hrest⟩
  rw [hphase, BitVec.toNat_add]
  rfl

/-! ### What the renderers store at a hearing peer (R203, R210, R220; 20_memory.md R79) -/

/-- Addressing and then data, answered with an offset: the data stand in the page. -/
theorem answerOffset_stores {operand advanced : BitVec 16} (hr : s.ready) (hf : s.flows) (hh : s.hearing)
    (ds : List Byte) (hl : x.toNat + ds.length ≤ 128) :
    ∃ t, answerOffset operand advanced (andThen (windowOp y x s) (writeOp ds)) = .next t ∧
      s.peer.disp.stores t.peer.disp (dispAddr y x) ds := by
  obtain ⟨u, hu, -, -, -, hstores⟩ := window_write_stores hr hf hh y x ds hl
  rw [hu]
  exact ⟨_, rfl, hstores⟩

/-- Settles O46: either operation's data are as long as the window, which ends inside the page. -/
theorem marqueesStoreInTheirWindow : Obligations.MarqueesStoreInTheirWindow := by
  intro s x y width msg offset speed hr hf hh hw hx hl1 hl hoff
  have hlegal := marqueeProblem_none.mpr ⟨hw, hx, hl1, hl, hoff⟩
  rw [exec_marquee_of_legal hr hlegal, exec_bungee_of_legal hr hlegal]
  exact ⟨answerOffset_stores hr hf hh _ (by rwa [marqueeData_length]),
    answerOffset_stores hr hf hh _ (by rwa [bungeeData_length])⟩

/-- Settles O47: addressing and data for page `y`, and from the state they lead to once more for page `y + 1`. -/
theorem wobbleStoresInTwoPages : Obligations.WobbleStoresInTwoPages := by
  intro s x y msg phase hr hf hh hl hx hy
  obtain ⟨m, hm, hmr, hmf, hmh, hupper⟩ := window_write_stores hr hf hh y x (wobbleUpper s.params msg phase)
    (by rwa [wobbleUpper_length])
  obtain ⟨u, hu, -, -, -, hlower⟩ := window_write_stores hmr hmf hmh (y + 1) x (wobbleLower s.params msg phase)
    (by rwa [wobbleLower_length])
  have hexec : exec (.wobble x y msg phase) s = answerPhase phase (phase + 1) (u, .status .ok) := by
    rw [exec_wobble_of_legal hr (wobbleProblem_none.mpr ⟨hl, hx, hy⟩), hm]
    exact congrArg _ hu
  exact ⟨_, m.peer.disp, hexec, hupper, hlower⟩

end Sys2Proof.Machine
end

section
/-! PROOFS. The step where nothing can be run, and waits that fail: what a byte, START and a row of transactions come to
when the clock is held for ever or for too long (60_exceptions.md R245 to R252; 40_bus.md R134, R136; 41_protocol.md
R162). -/

namespace Sys2Proof.Machine

variable {s t : State} {i : Instr} {a b : Byte} {k : Nat} {payload begun rest : List Byte}
  {whole after : List (List Byte)}

/-! ### Steps that run no instruction (60_exceptions.md R252, R261) -/

theorem fetch_of_no_request (hh : s.hung = false) (hr : s.requests = []) : fetch s = .nothing := by
  rw [fetch, hh, if_neg (by decide), if_pos hr]

theorem fetch_of_undecodable {why : DecodeError} (hh : s.hung = false) (hr : s.requests ≠ [])
    (hd : decode s.requests = .error why) : fetch s = .garbage why := by
  rw [fetch, hh, if_neg (by decide), if_neg hr, hd]

theorem fetch_of_hung (h : s.hung = true) : fetch s = .stuck := if_pos h

/-- Settles O5: what is fetched is nothing, or bytes without a meaning. -/
theorem stepWithoutRequest : Obligations.StepWithoutRequest := by
  refine ⟨fun s hh hr => ?_, fun s why hh hr hd => ?_⟩
  · rw [step, fetch_of_no_request hh hr]
  · rw [step, fetch_of_undecodable hh hr hd]

/-! ### A block inside an endless wait (60_exceptions.md R245, R249) -/

theorem step_of_hung (h : s.hung = true) : step s = .next s := by rw [step, fetch_of_hung h]

/-- Every meaning looks at the hang mark first, by one of the three guards; the reserved selectors have none. -/
theorem exec_of_hung (h : s.hung = true) (i : Instr) : ∃ r, exec i s = .refused r := by
  cases i
  case reserved1101 | reserved1110 | reserved1111 => exact ⟨_, rfl⟩
  case glyphFor => exact ⟨.busy, whenFree_of_hung h⟩
  case busCfg | start | addrByte | init | setPageWindow | writeBytes | clear | setContrast | marquee | bungee |
      wobble =>
    exact ⟨.busy, whenIdle_of_hung h⟩
  all_goals exact ⟨.busy, whenOpen_of_hung h⟩

/-- Settles O59: such a block fetches nothing, and every meaning refuses it. -/
theorem hungBlockStaysAndAcceptsNothing : Obligations.HungBlockStaysAndAcceptsNothing :=
  fun _ h => ⟨step_of_hung h, exec_of_hung h⟩

/-- The hang mark alone makes every step idle and every request busy; that the clock is released is the wait's. -/
theorem staysInWait_takeHang (h : s.sclPull = false) : (takeHang s).staysInWait :=
  ⟨rfl, rfl, h, step_of_hung rfl, fun _ => rfl, fun _ => rfl⟩

/-! ### Inside the wait of slot `k` -/

@[simp] theorem stuckByte_sclPull (b : Byte) (k : Nat) (s : State) : (stuckByte b k s).sclPull = false := by
  rw [stuckByte]; split <;> rfl

@[simp] theorem stuckByte_sdaPull (b : Byte) (k : Nat) (s : State) : (stuckByte b k s).sdaPull = slotPull b k := by
  rw [stuckByte]; split <;> rfl

@[simp] theorem stuckByte_line (b : Byte) (k : Nat) (s : State) :
    (stuckByte b k s).line = (cutFrame b k).reverse ++ s.line := by
  rw [stuckByte]; split <;> rfl

@[simp] theorem stuckByte_bytes (b : Byte) (k : Nat) (s : State) : (stuckByte b k s).bytes = s.bytes := by
  rw [stuckByte]; split <;> rfl

theorem stuckByte_sameHost (b : Byte) (k : Nat) (s : State) : s.sameHost (stuckByte b k s) := by
  rw [stuckByte]; split <;> exact ⟨rfl, rfl, rfl, rfl, rfl⟩

theorem stuckByte_peer_of_bit (h : k < 8) : (stuckByte b k s).peer = s.peer := by rw [stuckByte, if_pos h]; rfl

/-- A hang changes nothing of the host's but its mark. -/
theorem sameSetting_takeHang (h : s.sameHost t) : s.sameSetting (takeHang t) := by
  obtain ⟨hparams, hrequests, hoffset, hphase, -⟩ := h
  exact ⟨hparams, hrequests, hoffset, hphase⟩

/-! ### Bytes whose wait fails (40_bus.md R134, R136) -/

/-- A byte to a powered peer whose first failing wait is that of slot `k`. -/
theorem shift9_of_waitAt {e : WaitEnd} (b : Byte) (hon : s.peer.on = true) (hk : k < 9) (hne : e ≠ .high)
    (h : (∀ j < k, s.waitAt j = .high) ∧ s.waitAt k = e) : shift9 b s = byteFails b k e s := by
  obtain ⟨hhigh, he⟩ := h
  exact shift9_stops b s k e hk hne (fun j hj => (waitEndAt_of_on hon j).trans (hhigh j hj))
    ((waitEndAt_of_on hon k).trans he)

theorem answerByte_of_hangs (b : Byte) (hon : s.peer.on = true) (hk : k < 9) (h : s.hangsAfter k) :
    answerByte (shift9 b s) = .next (takeHang (stuckByte b k s)) := by
  rw [shift9_of_waitAt b hon hk (by decide) (waitAt_of_hangs h)]; rfl

theorem answerByte_of_timesOut (b : Byte) (hon : s.peer.on = true) (hk : k < 9) (h : s.timesOutAfter k) :
    answerByte (shift9 b s) = .next { takeTimeout (insideByte b k s) with result := .timeout } := by
  rw [shift9_of_waitAt b hon hk (by decide) (waitAt_of_timesOut h)]; rfl

/-- All that a Timeout adds to the cut frame is the release of the data line: no stop condition (R246). -/
theorem takeTimeout_insideByte_lineTrace (b : Byte) (k : Nat) (s : State) :
    (takeTimeout (insideByte b k s)).lineTrace = s.lineTrace ++ cutFrame b k ++ [.sda true] := by
  rw [List.append_assoc]
  exact lineTrace_of_line (by rw [List.reverse_append]; rfl)

theorem exec_sendByte_of_readyOpen (hr : s.readyOpen) : exec (.sendByte b) s = answerByte (shift9 b s) :=
  whenOpen_of_readyOpen hr

/-- START is its start condition and its byte. -/
theorem exec_start_of_ready (hr : s.ready) (ha : a.getLsbD 0 = false) :
    exec (.start a) s = answerByte (shift9 a (afterStart s)) := by
  show whenIdle s (if readBitSet a then _ else answerByte (startOp a s)) = _
  rw [whenIdle_of_ready hr, readBitSet, ha]
  rfl

/-! ### Operations whose wait fails (41_protocol.md R162) -/

/-- Where the byte begins whose wait fails: after whole transactions and the bytes begun of one more. -/
theorem operation_stops {ps : List (List Byte)} {e : WaitEnd} (hr : s.ready) (hpw : s.powered)
    (hp : opPayloads s.params i = some ps) (hps : ps = whole ++ payload :: after)
    (hb : s.params.devAddr :: payload = begun ++ b :: rest) (hk : k < 9) (hne : e ≠ .high)
    (h : (∀ m < waitsBefore whole begun k, s.waitAt m = .high) ∧ s.waitAt (waitsBefore whole begun k) = e)
    (ha : opChecks s.params.ackPolicy i = false ∨ s.answered) :
    exec i s = answerOp i s (opFails b k e (afterBytes begun (afterStart (afterTxns whole s)))) := by
  obtain ⟨hhigh, he⟩ := h
  rw [exec_operation hr hp, hps, txns_stop whole payload after begun b rest k e hb hk hne hpw hhigh he ha]

/-- Settles O22: each time the block is inside `stuckByte`, and the answer marks that. -/
theorem endlessStretchHangs : Obligations.EndlessStretchHangs := by
  refine ⟨fun s b k hr hon hk h => ?_, fun s a k hr hon ha hk h => ?_,
    fun i s ps whole payload after begun b rest k hr hpw hp hps hb hk h ha => ?_⟩
  · exact ⟨_, (exec_sendByte_of_readyOpen hr).trans (answerByte_of_hangs b hon hk h),
      staysInWait_takeHang (stuckByte_sclPull b k s), stuckByte_sdaPull b k s,
      lineTrace_of_line (stuckByte_line b k s), stuckByte_bytes b k s, stuckByte_peer_of_bit,
      fun h8 => by rw [h8]; rfl, sameSetting_takeHang (stuckByte_sameHost b k s)⟩
  · refine ⟨_, (exec_start_of_ready hr ha).trans (answerByte_of_hangs a ((afterStart_on s).trans hon) hk h),
      staysInWait_takeHang (stuckByte_sclPull a k _), stuckByte_sdaPull a k _, ?_, ?_,
      sameSetting_takeHang (stuckByte_sameHost a k (afterStart s))⟩
    · rw [← afterStart_lineTrace]; exact lineTrace_of_line (stuckByte_line a k (afterStart s))
    · rw [← afterStart_byteTrace]; exact congrArg List.reverse (stuckByte_bytes a k (afterStart s))
  · exact ⟨takeHang (stuckByte b k (afterBytes begun (afterStart (afterTxns whole s)))),
      operation_stops hr hpw hp hps hb hk (by decide) (waitAt_of_hangs h) ha,
      staysInWait_takeHang (stuckByte_sclPull b k _), stuckByte_sdaPull b k _,
      breaksOff_of (stuckByte_line b k _) (stuckByte_bytes b k _),
      sameSetting_takeHang (sameHost_trans (begun_sameHost whole begun s) (stuckByte_sameHost b k _))⟩

/-- Settles O23: each time the byte ends in `takeTimeout`, whose result is Timeout. -/
theorem boundedStretchTimesOut : Obligations.BoundedStretchTimesOut := by
  refine ⟨fun s b k hr hon hk h => ?_, fun s a k hr hon ha hk h => ?_⟩
  · exact ⟨_, (exec_sendByte_of_readyOpen hr).trans (answerByte_of_timesOut b hon hk h), rfl, rfl, rfl, rfl,
      takeTimeout_insideByte_lineTrace b k s, rfl, rfl, rfl, rfl, rfl, rfl⟩
  · refine ⟨_, (exec_start_of_ready hr ha).trans (answerByte_of_timesOut a ((afterStart_on s).trans hon) hk h), rfl,
      rfl, rfl, rfl, ?_, afterStart_byteTrace s, rfl, rfl, rfl, rfl, rfl⟩
    rw [← afterStart_lineTrace]
    exact takeTimeout_insideByte_lineTrace a k (afterStart s)

/-- Settles O24: the row of transactions ends with `takeTimeout`, whose status the operation answers. -/
theorem timeoutEndsAnOperation : Obligations.TimeoutEndsAnOperation := by
  intro i s ps whole payload after begun b rest k hr hpw hp hps hb hk h ha
  obtain ⟨t, ht, hend, hline, hbytes, hpeer⟩ := answerOp_endsWith (i := i) (st := .timeout)
    (u := takeTimeout (insideByte b k (afterBytes begun (afterStart (afterTxns whole s))))) hr
    (begun_sameHost whole begun s) ⟨rfl, rfl, rfl⟩
  refine ⟨t, ?_, hend, breaksOff_of hline hbytes, by rw [hpeer]; rfl⟩
  rw [operation_stops hr hpw hp hps hb hk (by decide) (waitAt_of_timesOut h) ha]
  exact ht

end Sys2Proof.Machine
end
